-- ==== Sys2Proof/Word.lean ====
section
/-! DEFINITION. The word types of WVC (00_scope.md R12, 10_state.md R23, R41, R42) and their plainest arithmetic. -/

namespace Sys2Proof

/-- A word is 32 bits (R12); a host sees every register as one (R23). -/
abbrev Word := BitVec 32

/-- A byte is 8 bits (R12); BUF is made of them (R41). -/
abbrev Byte := BitVec 8

/-- One cell of SMP: 64 bits, without a tag (R42). -/
abbrev Cell := BitVec 64

end Sys2Proof
end

