-- ==== Sys2Proof/Syntax.lean ====
section
/-! DEFINITION. The thirteen commands of WVC (30_encoding.md R77), one constructor per row of the opcode table, each
with the fields of its format (R71, R72, R73, R76). A term holds the NUMBERS of the fields as the word gives them:
which of them name a type or a depth is the command's own check (R74, R80), not the decoder's. -/

namespace Sys2Proof

/-- A numeric type as format V carries it (R72, R74): "T = (bits = BITS, signed = SIGNED, isFloat = FLOAT,
bigEndian = BE)". BITS is the unsigned number of the field, "used as it stands". -/
structure NumericType where
  bits      : Nat
  signed    : Bool
  isFloat   : Bool
  bigEndian : Bool
  deriving DecidableEq, Repr

/-- A container kind (R78). The reserved code 3 has no constructor: a word that holds it is illegal (R82). -/
inductive ContainerKind where
  | riff
  | rifx
  | rf64
  deriving DecidableEq, Repr

/-- A command (R77). -/
inductive Instr where
  /-- 0x01 RDV, read value (R110). -/
  | rdv (t : NumericType)
  /-- 0x02 WRV, write value (R115). -/
  | wrv (t : NumericType)
  /-- 0x03 RDA, read array (R120). -/
  | rda (t : NumericType)
  /-- 0x04 WRA, write array (R125). -/
  | wra (t : NumericType)
  /-- 0x10 IDX, index chunks (R141). -/
  | idx
  /-- 0x20 HDR, build header (R171); `depth` is a bit-depth code (R79). -/
  | hdr (depth : Nat) (kind : ContainerKind)
  /-- 0x30 CVT, convert bit depth (R201); both are bit-depth codes (R79). -/
  | cvt (fromCode : Nat) (toCode : Nat)
  /-- 0x40 ADE, ADPCM encode (R240). -/
  | ade
  /-- 0x41 ADD, ADPCM decode (R251). -/
  | add
  /-- 0x50 ALE, A-law encode (R273). -/
  | ale
  /-- 0x51 ALD, A-law decode (R276). -/
  | ald
  /-- 0x52 MUE, μ-law encode (R284). -/
  | mue
  /-- 0x53 MUD, μ-law decode (R287). -/
  | mud
  deriving DecidableEq, Repr

end Sys2Proof
end

