-- ==== Sys2Proof/WellFormed.lean ====
section
/-! DEFINITION. When a command fits its word: each number of a field lies in the range of the field's bits
(30_encoding.md R72, R73, R76). Nothing else is asked: a BITS or a code that names no type or depth still makes a legal
word, whose command raises InvalidType or InvalidBitDepth (R74, R80, U8). -/

namespace Sys2Proof

/-- BITS fills bits 14:8 of a format V word: "an unsigned number 0 to 127" (R74). -/
def NumericType.fits (t : NumericType) : Bool := decide (t.bits < 2 ^ 7)

/-- A bit-depth code fills eight bits (R73, R76, R79). -/
def depthFits (code : Nat) : Bool := decide (code < 2 ^ 8)

/-- Every field of the command fits the bits its format gives it. -/
def Instr.wellFormed : Instr → Bool
  | .rdv t => t.fits
  | .wrv t => t.fits
  | .rda t => t.fits
  | .wra t => t.fits
  | .idx => true
  | .hdr depth _ => depthFits depth
  | .cvt fromCode toCode => depthFits fromCode && depthFits toCode
  | .ade => true
  | .add => true
  | .ale => true
  | .ald => true
  | .mue => true
  | .mud => true

end Sys2Proof
end

