-- ==== Sys2Proof/Decode.lean ====
section
/-! DEFINITION. From command words to commands and back (30_encoding.md). A command is one 32-bit word written to
register CMD; it lies in no memory and has no byte order (R70, R22). The decoder is total; it rejects by name the
illegal words of R82, which the machine answers with the error InvalidCommand. -/

namespace Sys2Proof

/-- Why a word is illegal (R82). -/
inductive DecodeError where
  /-- Bits 7:0 hold none of the thirteen opcodes of R77. -/
  | undefinedOpcode (opcode : Nat)
  /-- A reserved bit of the word's format is not zero. -/
  | reservedBits
  /-- The KIND field of an HDR word is 3. -/
  | reservedKind
  deriving DecidableEq, Repr

/-- Bits 7:0, the opcode (R70). -/
def opcodeOf (w : Word) : Nat := (w.extractLsb' 0 8).toNat

/-- Container kind codes (R78). -/
def ContainerKind.code : ContainerKind → BitVec 2
  | .riff => 0
  | .rifx => 1
  | .rf64 => 2

/-- The container kind of a code; 3 is reserved (R78). -/
def containerKindOf (code : BitVec 2) : Option ContainerKind :=
  if code = 0 then some .riff else if code = 1 then some .rifx else if code = 2 then some .rf64 else none

/-- Format N (R71): bits 31:8 reserved. -/
def decodeN (i : Instr) (w : Word) : Except DecodeError Instr :=
  if w.extractLsb' 8 24 = 0 then .ok i else .error .reservedBits

/-- Format V (R72, R74): BITS 14:8, SIGNED 16, FLOAT 17, BE 18; bits 15 and 31:19 reserved. -/
def decodeV (mk : NumericType → Instr) (w : Word) : Except DecodeError Instr :=
  if w.extractLsb' 15 1 = 0 ∧ w.extractLsb' 19 13 = 0 then
    .ok (mk { bits := (w.extractLsb' 8 7).toNat
              signed := w.getLsbD 16
              isFloat := w.getLsbD 17
              bigEndian := w.getLsbD 18 })
  else .error .reservedBits

/-- Format H (R76): DEPTH 15:8, KIND 17:16; bits 31:18 reserved. -/
def decodeH (w : Word) : Except DecodeError Instr :=
  if w.extractLsb' 18 14 = 0 then
    match containerKindOf (w.extractLsb' 16 2) with
    | some k => .ok (.hdr (w.extractLsb' 8 8).toNat k)
    | none => .error .reservedKind
  else .error .reservedBits

/-- Format C (R73): FROM 15:8, TO 23:16; bits 31:24 reserved. -/
def decodeC (w : Word) : Except DecodeError Instr :=
  if w.extractLsb' 24 8 = 0 then
    .ok (.cvt (w.extractLsb' 8 8).toNat (w.extractLsb' 16 8).toNat)
  else .error .reservedBits

/-- The opcode map (R77): the opcode chooses the command and its format. -/
def decode (w : Word) : Except DecodeError Instr :=
  if opcodeOf w = 0x01 then decodeV .rdv w
  else if opcodeOf w = 0x02 then decodeV .wrv w
  else if opcodeOf w = 0x03 then decodeV .rda w
  else if opcodeOf w = 0x04 then decodeV .wra w
  else if opcodeOf w = 0x10 then decodeN .idx w
  else if opcodeOf w = 0x20 then decodeH w
  else if opcodeOf w = 0x30 then decodeC w
  else if opcodeOf w = 0x40 then decodeN .ade w
  else if opcodeOf w = 0x41 then decodeN .add w
  else if opcodeOf w = 0x50 then decodeN .ale w
  else if opcodeOf w = 0x51 then decodeN .ald w
  else if opcodeOf w = 0x52 then decodeN .mue w
  else if opcodeOf w = 0x53 then decodeN .mud w
  else .error (.undefinedOpcode (opcodeOf w))

/-- The opcode of a command, by the map of R77. -/
def Instr.opcode : Instr → BitVec 8
  | .rdv _ => 0x01
  | .wrv _ => 0x02
  | .rda _ => 0x03
  | .wra _ => 0x04
  | .idx => 0x10
  | .hdr _ _ => 0x20
  | .cvt _ _ => 0x30
  | .ade => 0x40
  | .add => 0x41
  | .ale => 0x50
  | .ald => 0x51
  | .mue => 0x52
  | .mud => 0x53

/-- A format N word (R71). -/
def encodeN (opcode : BitVec 8) : Word := 0#24 ++ opcode

/-- A format V word (R72), fields from bit 31 down: reserved, BE, FLOAT, SIGNED, reserved, BITS, opcode. -/
def encodeV (opcode : BitVec 8) (t : NumericType) : Word :=
  0#13 ++ BitVec.ofBool t.bigEndian ++ BitVec.ofBool t.isFloat ++ BitVec.ofBool t.signed ++ 0#1 ++
    BitVec.ofNat 7 t.bits ++ opcode

/-- A format H word (R76), fields from bit 31 down: reserved, KIND, DEPTH, opcode. -/
def encodeH (opcode : BitVec 8) (depth : Nat) (kind : ContainerKind) : Word :=
  0#14 ++ kind.code ++ BitVec.ofNat 8 depth ++ opcode

/-- A format C word (R73), fields from bit 31 down: reserved, TO, FROM, opcode. -/
def encodeC (opcode : BitVec 8) (fromCode toCode : Nat) : Word :=
  0#8 ++ BitVec.ofNat 8 toCode ++ BitVec.ofNat 8 fromCode ++ opcode

/-- The command word of a command (R70 to R77); every command is one word long. -/
def encode (i : Instr) : Word :=
  match i with
  | .rdv t => encodeV i.opcode t
  | .wrv t => encodeV i.opcode t
  | .rda t => encodeV i.opcode t
  | .wra t => encodeV i.opcode t
  | .idx => encodeN i.opcode
  | .hdr depth kind => encodeH i.opcode depth kind
  | .cvt fromCode toCode => encodeC i.opcode fromCode toCode
  | .ade => encodeN i.opcode
  | .add => encodeN i.opcode
  | .ale => encodeN i.opcode
  | .ald => encodeN i.opcode
  | .mue => encodeN i.opcode
  | .mud => encodeN i.opcode

/-- The word whose bits the opcode table numbers `w`, of which it gives `nbits`: bit 0 is the least significant, every
bit above `nbits` is 0. -/
def tableWord (nbits w : Nat) : Word := BitVec.ofNat 32 (w % 2 ^ nbits)

/-- The command the decoder reads from a word of the opcode table; none where it refuses. -/
def decodeTableWord (nbits w : Nat) : Option Instr :=
  match decode (tableWord nbits w) with
  | .ok i => some i
  | .error _ => none

end Sys2Proof
end

