-- ==== Sys2Proof/Config.lean ====
section
/-! DEFINITION. What an implementation of WVC fixes (00_scope.md R10) and the free values: what the spec leaves
unspecified (93_implementation_defined.md U1 to U6). A free value is an opaque constant, so nothing can be proved of
the number it is; the state supplies its first argument, a counter, so that two occasions draw independently. -/

namespace Sys2Proof

/-- The implementation parameters of R10: the capacities of BUF (bytes), SMP (cells) and DESC (records), and where the
platform maps the registers. "The model takes these parameters as arguments": `Machine.State` carries one `Params`,
which no step changes. F16_ROUND and CVT_ARITH are fixed by the spec and are not arguments (U11). -/
structure Params where
  bufSize   : Nat
  smpSize   : Nat
  nDesc     : Nat
  regBase   : Nat
  regStride : Nat
  deriving DecidableEq, Repr

/-- The constraints R10 puts on the parameters; the register map is OPEN. -/
abbrev Params.wf (p : Params) : Prop :=
  12 ≤ p.bufSize ∧ p.bufSize ≤ 2 ^ 32 - 1 ∧ 1 ≤ p.smpSize ∧ p.smpSize ≤ 2 ^ 32 - 1 ∧
    1 ≤ p.nDesc ∧ p.nDesc ≤ 2 ^ 32 - 2

/-- The values R10 suggests for tests. DESIGN CHOICE (log 2): the machine after reset has these; every statement is
about a state with any parameters. -/
def Params.suggested : Params :=
  { bufSize := 65536, smpSize := 65536, nDesc := 256, regBase := 0, regStride := 4 }

/-- What a byte of BUF that nothing has written since reset number `resets` holds (U1: a free draw made once at reset). -/
opaque Config.bufAtReset : (resets addr : Nat) → Byte

/-- What a cell of SMP that nothing has written since reset number `resets` holds (U1). -/
opaque Config.smpAtReset : (resets index : Nat) → Cell

/-- What word `word` of a record of DESC that nothing has written since reset number `resets` holds (U1). -/
opaque Config.descAtReset : (resets index word : Nat) → Word

/-- A byte of the destination extent of an array command that ended in an error of its element loop (U2). -/
opaque Config.freeByte : (serial k : Nat) → Byte

/-- A cell of the destination extent of a CVT that ended in an error of its element loop (U2). -/
opaque Config.freeCell : (serial k : Nat) → Cell

/-- A word of DESC after an IDX that ended with TableFull (U2). -/
opaque Config.freeDescWord : (serial index word : Nat) → Word

/-- The raw bits from which a binary64 NaN is drawn when a binary16 or binary32 NaN is read (U3). -/
opaque Config.freeNan64 : (serial k : Nat) → BitVec 64

/-- The raw bits from which a binary32 NaN is drawn when a binary64 NaN is written as binary32 (U3). -/
opaque Config.freeNan32 : (serial k : Nat) → BitVec 32

/-- The cell CVT produces from a NaN source (U5): some integer, or some pattern. -/
opaque Config.freeCvtCell : (serial k : Nat) → Cell

/-- PRED after an ADE or ADD that ended in error (U6): any value of -32768 to 32767, as a 16-bit pattern. -/
opaque Config.freePred : (serial : Nat) → BitVec 16

/-- SIDX after an ADE or ADD that ended in error (U6): any number, taken modulo 89 where it is used. -/
opaque Config.freeSidx : (serial : Nat) → Nat

end Sys2Proof
end

