-- ==== Sys2Proof/Machine/State.lean ====
section
/-! DEFINITION. The state of WVC: its 42 registers (10_state.md R24 to R46), its three memories (R41 to R43), and the
model's own four fields: the implementation parameters, two counters that index free values, and the queue of what
the host does next. -/

namespace Sys2Proof.Machine

/-- A memory holds the cells something has written since reset, as (address, content) pairs with addresses strictly
rising. An address that is not listed holds no value of its own: what a read of it finds is a free draw (U1). -/
abbrev Memory (α : Type) := List (Nat × α)

/-- A record of DESC: eight 32-bit words (41_chunk_indexer.md R150). -/
structure DescRecord where
  id      : Word
  size    : Word
  start   : Word
  endLo   : Word
  endHi   : Word
  listFmt : Word
  parent  : Word
  flags   : Word
  deriving DecidableEq, Repr

/-- Registers 20 to 37, the header result registers (R38), at their widths. -/
structure HeaderRegs where
  riffSize : BitVec 32
  fmtSize  : BitVec 32
  aFmt     : BitVec 16
  nCh      : BitVec 16
  rate     : BitVec 32
  byteRate : BitVec 32
  bAlign   : BitVec 16
  bits     : BitVec 16
  cbSize   : BitVec 16
  vBits    : BitVec 16
  chMask   : BitVec 32
  subFmt0  : BitVec 32
  subFmt1  : BitVec 32
  subFmt2  : BitVec 32
  subFmt3  : BitVec 32
  fact     : BitVec 1
  factLen  : BitVec 32
  kind     : BitVec 2
  deriving DecidableEq, Repr

/-- Registers 38 to 41, the index result registers (R44), at their widths. -/
structure IndexRegs where
  kind   : BitVec 2
  size   : BitVec 32
  format : BitVec 32
  nDesc  : BitVec 32
  deriving DecidableEq, Repr

/-- The 42 registers by name, in the order of their numbers 0 to 41 (R46). -/
inductive Reg where
  | CMD | STATUS | ERRCODE | ERRINFO | OFF | NEXT | VAL_LO | VAL_HI | SRC | DST | CNT | RCNT | BUFLEN | BLKALIGN
  | CH | RATE | BPS | PAYLEN | PRED | SIDX
  | H_RIFFSIZE | H_FMTSIZE | H_AFMT | H_NCH | H_RATE | H_BYTERATE | H_BALIGN | H_BITS | H_CBSIZE | H_VBITS
  | H_CHMASK | H_SUBFMT0 | H_SUBFMT1 | H_SUBFMT2 | H_SUBFMT3 | H_FACT | H_FACTLEN | H_KIND
  | X_KIND | X_SIZE | X_FORMAT | X_NDESC
  deriving DecidableEq, Repr

/-- What the host can do to an idle WVC that changes its state (00_scope.md R9): assert reset, write a register (a
write of CMD issues a command), write a byte of BUF, write a cell of SMP. Reads change nothing (20_memory.md R66) and
are functions of the state (`readReg`, `bufByte`, `smpCell`, `descRecord`). -/
inductive HostAction where
  | reset
  | writeReg (r : Reg) (w : Word)
  | writeBuf (addr : Nat) (b : Byte)
  | writeSmp (index : Nat) (v : Cell)
  deriving DecidableEq, Repr

/-- The state of the machine. -/
structure State where
  /-- The model's own: the implementation parameters (R10). No step changes them. -/
  params   : Params
  /-- Register 0, CMD: the last word written (R24). -/
  cmd      : BitVec 32
  /-- Register 1, STATUS: bit 0 BUSY, bit 1 DONE, bit 2 ERR, bit 3 ERRSEEN (R25). -/
  status   : BitVec 4
  /-- Register 2, ERRCODE (R26). -/
  errCode  : BitVec 8
  /-- Register 3, ERRINFO (R27). -/
  errInfo  : BitVec 32
  /-- Register 4, OFF (R28). -/
  off      : BitVec 32
  /-- Register 5, NEXT (R29). -/
  nextOff  : BitVec 32
  /-- Register 6, VAL_LO: bits 31:0 of VAL (R30). -/
  valLo    : BitVec 32
  /-- Register 7, VAL_HI: bits 63:32 of VAL (R30). -/
  valHi    : BitVec 32
  /-- Register 8, SRC (R31). -/
  src      : BitVec 32
  /-- Register 9, DST (R32). -/
  dst      : BitVec 32
  /-- Register 10, CNT (R33). -/
  cnt      : BitVec 32
  /-- Register 11, RCNT (R34). -/
  rcnt     : BitVec 32
  /-- Register 12, BUFLEN (R35). -/
  bufLen   : BitVec 32
  /-- Register 13, BLKALIGN (R36). -/
  blkAlign : BitVec 32
  /-- Register 14, CH (R37). -/
  ch       : BitVec 16
  /-- Register 15, RATE (R37). -/
  rate     : BitVec 32
  /-- Register 16, BPS (R37). -/
  bps      : BitVec 16
  /-- Register 17, PAYLEN (R37). -/
  payLen   : BitVec 32
  /-- Register 18, PRED: 17 bits, signed (R39). -/
  pred     : BitVec 17
  /-- Register 19, SIDX: 7 bits (R39). -/
  sidx     : BitVec 7
  /-- Registers 20 to 37 (R38). -/
  hdr      : HeaderRegs
  /-- Registers 38 to 41 (R44). -/
  idx      : IndexRegs
  /-- BUF, the byte buffer (R41). -/
  buf      : List Host.Cell
  /-- SMP, the sample memory (R42). -/
  smp      : Memory Cell
  /-- DESC, the descriptor table (R43). -/
  desc     : Memory DescRecord
  /-- The model's own: how many resets the host has asserted; it indexes the draws of U1. -/
  resets   : Nat
  /-- The model's own: how many commands have ended; it indexes the draws of U2, U3, U5 and U6. -/
  serial   : Nat
  /-- The model's own: what the host does next, first action first; WVC itself fetches nothing (R22). -/
  inputs   : List HostAction
  deriving DecidableEq, Repr

/-- Why the machine stops with a fault. Both come from the host's side; no command ends in one. -/
inductive Fault where
  /-- Raised by the host port when the host writes a byte of BUF at an address of BUF_SIZE or above: R41 gives BUF the
  addresses 0 to BUF_SIZE - 1, and no such byte exists. Safe: the machine stops. -/
  | noSuchBufByte (addr : Nat)
  /-- Raised by the host port when the host writes a cell of SMP at an index of SMP_SIZE or above: R42 gives SMP the
  indices 0 to SMP_SIZE - 1, and no such cell exists. Safe: the machine stops. -/
  | noSuchSmpCell (index : Nat)
  deriving DecidableEq, Repr

/-- Why the machine refuses a step. No command ends in a refusal. -/
inductive Refusal where
  /-- Raised by an arm of `exec` whose instruction has no meaning yet, by its mnemonic; no arm of this model does.
  Safe: the machine stops. -/
  | notModelled (mnemonic : String)
  /-- Raised by the host port when the host writes CMD, an operand register, BUF or SMP while STATUS.BUSY is 1: "The spec
  defines none of these actions ... a model with timed commands should refuse them" (70_reset_and_hazards.md R338, U7).
  Commands are atomic, so no state a run reaches has BUSY = 1. Safe: the machine stops. -/
  | hostAccessWhileBusy
  deriving DecidableEq, Repr

/-- Every header result register at its reset value 0 (R38). -/
def HeaderRegs.reset : HeaderRegs :=
  { riffSize := 0, fmtSize := 0, aFmt := 0, nCh := 0, rate := 0, byteRate := 0, bAlign := 0, bits := 0, cbSize := 0,
    vBits := 0, chMask := 0, subFmt0 := 0, subFmt1 := 0, subFmt2 := 0, subFmt3 := 0, fact := 0, factLen := 0, kind := 0 }

/-- Every index result register at its reset value 0 (R44). -/
def IndexRegs.reset : IndexRegs := { kind := 0, size := 0, format := 0, nDesc := 0 }

/-- The machine right after reset (70_reset_and_hazards.md R330, R331): every register 0, nothing written in any
memory, nothing waiting. The parameters are the suggested ones (log 2). -/
def State.reset : State :=
  { params := Params.suggested
    cmd := 0, status := 0, errCode := 0, errInfo := 0, off := 0, nextOff := 0, valLo := 0, valHi := 0, src := 0, dst := 0,
    cnt := 0, rcnt := 0, bufLen := 0, blkAlign := 0, ch := 0, rate := 0, bps := 0, payLen := 0, pred := 0, sidx := 0
    hdr := HeaderRegs.reset
    idx := IndexRegs.reset
    buf := [], smp := [], desc := []
    resets := 0, serial := 0, inputs := [] }

/-- What a command answers. -/
abbrev Result := Host.Outcome State Fault Refusal

end Sys2Proof.Machine
end

