-- ==== Sys2Proof/Machine/Flags.lean ====
section
/-! DEFINITION. The only flags WVC has: the bits of STATUS (10_state.md R25, R45), what the end of a command writes to
them (60_exceptions.md R308, R313), and the one bit a host can clear. -/

namespace Sys2Proof.Machine

/-- STATUS.BUSY, bit 0: 1 while a command runs. -/
def State.busy (s : State) : Bool := s.status.getLsbD 0

/-- STATUS.DONE, bit 1: 1 once a command has ended. -/
def State.doneFlag (s : State) : Bool := s.status.getLsbD 1

/-- STATUS.ERR, bit 2: 1 if the last command ended by `raise`. -/
def State.err (s : State) : Bool := s.status.getLsbD 2

/-- STATUS.ERRSEEN, bit 3, sticky: 1 if some command ended by `raise` since the bit was last cleared. -/
def State.errSeen (s : State) : Bool := s.status.getLsbD 3

/-- STATUS from its four bits. -/
def statusWord (errSeen err done busy : Bool) : BitVec 4 :=
  BitVec.ofBool errSeen ++ BitVec.ofBool err ++ BitVec.ofBool done ++ BitVec.ofBool busy

/-- STATUS after a command that ends by `raise` (R308): ERR, ERRSEEN and DONE are 1, BUSY is 0. -/
def statusRaised : BitVec 4 := statusWord true true true false

/-- STATUS after a command that ends by `done` (R313): ERR 0, DONE 1, BUSY 0, ERRSEEN "left as it was". -/
def statusDone (old : BitVec 4) : BitVec 4 := statusWord (old.getLsbD 3) false true false

/-- STATUS after a host write of `w` (R25): ERRSEEN is cleared where bit 3 of `w` is 1 (write-one-to-clear); no other
bit can be written. -/
def statusWritten (old : BitVec 4) (w : Word) : BitVec 4 :=
  statusWord (old.getLsbD 3 && !w.getLsbD 3) (old.getLsbD 2) (old.getLsbD 1) (old.getLsbD 0)

end Sys2Proof.Machine
end

