-- ==== Sys2Proof/Machine/Ops.lean ====
section
/-! DEFINITION. The named operations over memories and registers (10_state.md, 20_memory.md), and the two ways a
command ends: `raise`, "the whole of WVC's trap entry" (60_exceptions.md R308), and `done` (R313). There is no return
instruction to stand beside it: after an error "WVC is idle and accepts the next command at once" (R314). -/

namespace Sys2Proof.Machine

/-! ### Memories in canonical form -/

/-- The content listed for an address, if any. -/
def Memory.lookup {α : Type} : Memory α → Nat → Option α
  | [], _ => none
  | (k, v) :: m, a => if k = a then some v else Memory.lookup m a

/-- Writes one address, keeping addresses strictly rising. -/
def Memory.store {α : Type} : Memory α → Nat → α → Memory α
  | [], a, v => [(a, v)]
  | (k, u) :: m, a, v =>
    if a < k then (a, v) :: (k, u) :: m
    else if a = k then (a, v) :: m
    else (k, u) :: Memory.store m a v

/-- Writes a list of contents at consecutive addresses, the first at `a`. -/
def Memory.storeList {α : Type} (m : Memory α) (a : Nat) : List α → Memory α
  | [] => m
  | v :: vs => Memory.storeList (Memory.store m a v) (a + 1) vs

/-- The canonical form: addresses strictly rising. An unlisted address reads as no value of its own, so no entry can
equal it. -/
abbrev Memory.wf {α : Type} (m : Memory α) : Prop := m.Pairwise (fun p q => p.1 < q.1)

/-- Every listed address lies below `size`. -/
abbrev Memory.below {α : Type} (m : Memory α) (size : Nat) : Prop := ∀ p ∈ m, p.1 < size

/-! ### Errors -/

/-- The error kinds of R301. -/
inductive ErrorKind where
  | unsupportedContainer
  /-- Reserved for the host; WVC never raises it (R304). -/
  | missingChunk
  | invalidType
  | invalidBitDepth
  | overflow
  | underflow
  | invalidCommand
  | outOfBounds
  | invalidArgument
  | tableFull
  deriving DecidableEq, Repr

/-- The code ERRCODE holds for a kind (R301); 0 stands for no error. -/
def ErrorKind.code : ErrorKind → BitVec 8
  | .unsupportedContainer => 1
  | .missingChunk => 2
  | .invalidType => 3
  | .invalidBitDepth => 4
  | .overflow => 5
  | .underflow => 6
  | .invalidCommand => 16
  | .outOfBounds => 17
  | .invalidArgument => 18
  | .tableFull => 19

/-- An error found by a command: its kind and its info value (R308). -/
structure Error where
  kind : ErrorKind
  info : Nat
  deriving DecidableEq, Repr

/-! ### BUF -/

/-- LEN, the effective length of BUF: min(x[BUFLEN], BUF_SIZE) (R35). -/
def State.len (s : State) : Nat := min s.bufLen.toNat s.params.bufSize

/-- The byte of BUF at an address; a byte nothing has written since reset is a free draw made at that reset (U1). -/
def State.bufByte (s : State) (a : Nat) : Byte :=
  (Memory.lookup s.buf a).getD (Config.bufAtReset s.resets a)

/-- The bytes of BUF at `a` to `a + n - 1`, lowest address first: MemRead (R52) once its bound holds. -/
def State.bufBytes (s : State) (a n : Nat) : List Byte :=
  (List.range n).map fun k => s.bufByte (a + k)

/-- `MemRead(addr, n)` (R52): the bytes, or OutOfBounds(addr) where the range does not lie below LEN. -/
def State.memRead (s : State) (a n : Nat) : Except Error (List Byte) :=
  if s.len < a + n then .error { kind := .outOfBounds, info := a } else .ok (s.bufBytes a n)

/-- Stores a list of bytes from address `a` on: MemWrite (R53) once its bound holds. -/
def State.storeBytes (s : State) (a : Nat) (bytes : List Byte) : State :=
  { s with buf := Memory.storeList s.buf a bytes }

/-! ### SMP -/

/-- SMP[i] as a 64-bit pattern (R55); a cell nothing has written since reset is a free draw (U1). -/
def State.smpCell (s : State) (i : Nat) : Cell :=
  (Memory.lookup s.smp i).getD (Config.smpAtReset s.resets i)

/-- SMPint(i): the cell as a signed integer, sext_64 (R55). -/
def State.smpInt (s : State) (i : Nat) : Int := (s.smpCell i).toInt

/-- Stores a list of cells from index `i` on (R55). -/
def State.storeCells (s : State) (i : Nat) (cells : List Cell) : State :=
  { s with smp := Memory.storeList s.smp i cells }

/-! ### DESC -/

/-- DESC[i] (R43); a record nothing has written since reset is a free draw (U1). -/
def State.descRecord (s : State) (i : Nat) : DescRecord :=
  (Memory.lookup s.desc i).getD
    { id := Config.descAtReset s.resets i 0, size := Config.descAtReset s.resets i 1
      start := Config.descAtReset s.resets i 2, endLo := Config.descAtReset s.resets i 3
      endHi := Config.descAtReset s.resets i 4, listFmt := Config.descAtReset s.resets i 5
      parent := Config.descAtReset s.resets i 6, flags := Config.descAtReset s.resets i 7 }

/-- Stores records from index 0 on (R57). -/
def State.storeRecords (s : State) (records : List DescRecord) : State :=
  { s with desc := Memory.storeList s.desc 0 records }

/-! ### Registers -/

/-- VAL, the pair VAL_HI and VAL_LO (R30). -/
def State.val (s : State) : BitVec 64 := s.valHi ++ s.valLo

/-- Writes VAL: bits 31:0 to VAL_LO, bits 63:32 to VAL_HI (R23, R30). -/
def State.setVal (s : State) (v : BitVec 64) : State :=
  { s with valLo := v.extractLsb' 0 32, valHi := v.extractLsb' 32 32 }

/-- Writes NEXT (R29); the offsets commands give it are at most LEN, so they fit 32 bits. -/
def State.setNext (s : State) (offset : Nat) : State := { s with nextOff := BitVec.ofNat 32 offset }

/-- Writes RCNT (R34). -/
def State.setRcnt (s : State) (count : Nat) : State := { s with rcnt := BitVec.ofNat 32 count }

/-- The number of a register (R46), which `Overflow` reports for HDR (R178). -/
def Reg.number : Reg → Nat
  | .CMD => 0 | .STATUS => 1 | .ERRCODE => 2 | .ERRINFO => 3 | .OFF => 4 | .NEXT => 5 | .VAL_LO => 6 | .VAL_HI => 7
  | .SRC => 8 | .DST => 9 | .CNT => 10 | .RCNT => 11 | .BUFLEN => 12 | .BLKALIGN => 13 | .CH => 14 | .RATE => 15
  | .BPS => 16 | .PAYLEN => 17 | .PRED => 18 | .SIDX => 19 | .H_RIFFSIZE => 20 | .H_FMTSIZE => 21 | .H_AFMT => 22
  | .H_NCH => 23 | .H_RATE => 24 | .H_BYTERATE => 25 | .H_BALIGN => 26 | .H_BITS => 27 | .H_CBSIZE => 28
  | .H_VBITS => 29 | .H_CHMASK => 30 | .H_SUBFMT0 => 31 | .H_SUBFMT1 => 32 | .H_SUBFMT2 => 33 | .H_SUBFMT3 => 34
  | .H_FACT => 35 | .H_FACTLEN => 36 | .H_KIND => 37 | .X_KIND => 38 | .X_SIZE => 39 | .X_FORMAT => 40 | .X_NDESC => 41

/-- Where the platform maps a register: REG_BASE + n × REG_STRIDE (R23, R10). No rule of a command uses it. -/
def State.regAddress (s : State) (r : Reg) : Nat := s.params.regBase + r.number * s.params.regStride

/-- What a host read of a register returns: 32 bits, narrower registers with their upper bits zero, PRED
sign-extended (R23, R39). -/
def State.readReg (s : State) : Reg → Word
  | .CMD => s.cmd
  | .STATUS => s.status.setWidth 32
  | .ERRCODE => s.errCode.setWidth 32
  | .ERRINFO => s.errInfo
  | .OFF => s.off
  | .NEXT => s.nextOff
  | .VAL_LO => s.valLo
  | .VAL_HI => s.valHi
  | .SRC => s.src
  | .DST => s.dst
  | .CNT => s.cnt
  | .RCNT => s.rcnt
  | .BUFLEN => s.bufLen
  | .BLKALIGN => s.blkAlign
  | .CH => s.ch.setWidth 32
  | .RATE => s.rate
  | .BPS => s.bps.setWidth 32
  | .PAYLEN => s.payLen
  | .PRED => s.pred.signExtend 32
  | .SIDX => s.sidx.setWidth 32
  | .H_RIFFSIZE => s.hdr.riffSize
  | .H_FMTSIZE => s.hdr.fmtSize
  | .H_AFMT => s.hdr.aFmt.setWidth 32
  | .H_NCH => s.hdr.nCh.setWidth 32
  | .H_RATE => s.hdr.rate
  | .H_BYTERATE => s.hdr.byteRate
  | .H_BALIGN => s.hdr.bAlign.setWidth 32
  | .H_BITS => s.hdr.bits.setWidth 32
  | .H_CBSIZE => s.hdr.cbSize.setWidth 32
  | .H_VBITS => s.hdr.vBits.setWidth 32
  | .H_CHMASK => s.hdr.chMask
  | .H_SUBFMT0 => s.hdr.subFmt0
  | .H_SUBFMT1 => s.hdr.subFmt1
  | .H_SUBFMT2 => s.hdr.subFmt2
  | .H_SUBFMT3 => s.hdr.subFmt3
  | .H_FACT => s.hdr.fact.setWidth 32
  | .H_FACTLEN => s.hdr.factLen
  | .H_KIND => s.hdr.kind.setWidth 32
  | .X_KIND => s.idx.kind.setWidth 32
  | .X_SIZE => s.idx.size
  | .X_FORMAT => s.idx.format
  | .X_NDESC => s.idx.nDesc

/-- The registers of class RW (R46): the operands of commands. -/
def Reg.isOperand : Reg → Bool
  | .OFF | .VAL_LO | .VAL_HI | .SRC | .DST | .CNT | .BUFLEN | .BLKALIGN | .CH | .RATE | .BPS | .PAYLEN => true
  | _ => false

/-- A host write of a register other than CMD: an RW register keeps its implemented low bits, STATUS has bit 3
write-one-to-clear, a write of an RO register is ignored (R23, R25). CMD is not written here: its write issues a
command (`Machine/HostPort.lean`). -/
def State.writeReg (s : State) (r : Reg) (w : Word) : State :=
  match r with
  | .STATUS => { s with status := statusWritten s.status w }
  | .OFF => { s with off := w }
  | .VAL_LO => { s with valLo := w }
  | .VAL_HI => { s with valHi := w }
  | .SRC => { s with src := w }
  | .DST => { s with dst := w }
  | .CNT => { s with cnt := w }
  | .BUFLEN => { s with bufLen := w }
  | .BLKALIGN => { s with blkAlign := w }
  | .CH => { s with ch := w.setWidth 16 }
  | .RATE => { s with rate := w }
  | .BPS => { s with bps := w.setWidth 16 }
  | .PAYLEN => { s with payLen := w }
  | _ => s

/-! ### The end of a command: error entry and `done` -/

/-- The state after `raise Kind(info)` (R308): ERRCODE, ERRINFO (info mod 2^32) and STATUS are written; nothing else of
the spec's state changes here. CMD already holds the word (the host port stores it before the command runs); what
the spec leaves unspecified after an error is drawn before `raise` by the `free…` operations below. -/
def State.raised (s : State) (e : Error) : State :=
  { s with
    errCode := e.kind.code
    errInfo := BitVec.ofNat 32 e.info
    status := statusRaised
    serial := s.serial + 1 }

/-- The state after `done` (R313): ERRCODE and ERRINFO 0, ERR 0, DONE 1, BUSY 0, ERRSEEN as it was. -/
def State.completed (s : State) : State :=
  { s with
    errCode := 0
    errInfo := 0
    status := statusDone s.status
    serial := s.serial + 1 }

/-- `raise Kind(info)`: the command ends in error (R308). -/
def raise (e : Error) (s : State) : Result := .next (s.raised e)

/-- `done`: the command ends without error (R313). -/
def done (s : State) : Result := .next s.completed

/-! ### What an error of an element loop leaves unspecified (R126, R312, U2, U6) -/

/-- BUF[a .. a+n) unspecified: every byte becomes a draw of its own. -/
def State.freeBytes (s : State) (a n : Nat) : State :=
  s.storeBytes a ((List.range n).map (Config.freeByte s.serial))

/-- SMP[i .. i+n) unspecified: every cell becomes a draw of its own. -/
def State.freeCells (s : State) (i n : Nat) : State :=
  s.storeCells i ((List.range n).map (Config.freeCell s.serial))

/-- The whole of DESC unspecified. -/
def State.freeRecords (s : State) : State :=
  s.storeRecords ((List.range s.params.nDesc).map fun i =>
    { id := Config.freeDescWord s.serial i 0, size := Config.freeDescWord s.serial i 1
      start := Config.freeDescWord s.serial i 2, endLo := Config.freeDescWord s.serial i 3
      endHi := Config.freeDescWord s.serial i 4, listFmt := Config.freeDescWord s.serial i 5
      parent := Config.freeDescWord s.serial i 6, flags := Config.freeDescWord s.serial i 7 })

/-- PRED and SIDX unspecified "within the registers' ranges (PRED in -32768 to 32767, SIDX in 0 to 88)" (U6). -/
def State.freeAdpcm (s : State) : State :=
  { s with
    pred := (Config.freePred s.serial).signExtend 17
    sidx := BitVec.ofNat 7 (Config.freeSidx s.serial % 89) }

/-! ### Reset -/

/-- Reset asserted by the host (70_reset_and_hazards.md R330): every register takes its reset value and every cell of
the memories becomes unspecified, that is, a draw of a new reset. The parameters stay, what the host does next stays,
and neither counter of draws goes back. -/
def State.afterReset (s : State) : State :=
  { State.reset with
    params := s.params
    resets := s.resets + 1
    serial := s.serial
    inputs := s.inputs }

end Sys2Proof.Machine
end

