-- ==== Sys2Proof/Machine/Float.lean ====
section
/-! DEFINITION. IEEE 754 numbers as WVC uses them (00_scope.md R15): the formats binary16, binary32 and binary64, the
number a pattern encodes, rounding to nearest with ties to even, and the binary64 operations of the converter. All
arithmetic is exact on naturals and is narrowed once, by `FloatFormat.encode`. -/

namespace Sys2Proof.Machine

/-- An interchange format: one sign bit, `expBits` of biased exponent, `fracBits` of fraction. -/
structure FloatFormat where
  expBits  : Nat
  fracBits : Nat
  deriving DecidableEq, Repr

/-- binary16 (R112): sign 15, exponent 14:10, fraction 9:0. -/
def binary16 : FloatFormat := { expBits := 5, fracBits := 10 }

/-- binary32 (R111): sign 31, exponent 30:23, fraction 22:0. -/
def binary32 : FloatFormat := { expBits := 8, fracBits := 23 }

/-- binary64 (R109): sign 63, exponent 62:52, fraction 51:0. -/
def binary64 : FloatFormat := { expBits := 11, fracBits := 52 }

/-- The exponent bias: 15, 127, 1023. -/
def FloatFormat.bias (f : FloatFormat) : Nat := 2 ^ (f.expBits - 1) - 1

/-- The largest exponent field, that of infinity and NaN. -/
def FloatFormat.maxExp (f : FloatFormat) : Nat := 2 ^ f.expBits - 1

/-- The pattern of infinity without its sign. -/
def FloatFormat.infinity (f : FloatFormat) : Nat := f.maxExp * 2 ^ f.fracBits

/-- The sign bit of a pattern, as a number. -/
def FloatFormat.signBit (f : FloatFormat) (neg : Bool) : Nat := if neg then 2 ^ (f.expBits + f.fracBits) else 0

/-- A floating-point number: NaN, an infinity, or a finite number `(-1)^neg × num / den`, zero with its sign. -/
inductive FVal where
  | nan
  | inf (neg : Bool)
  | fin (neg : Bool) (num den : Nat)
  deriving DecidableEq, Repr

/-- The number a pattern encodes, `f64(p)` for binary64 (R15, R112). Exponent field 0 is zero and the subnormals; the
largest exponent field is infinity or NaN; the rest are `(1 + fraction / 2^fracBits) × 2^(exponent - bias)`. -/
def FloatFormat.value (f : FloatFormat) (p : Nat) : FVal :=
  let neg := p.testBit (f.expBits + f.fracBits)
  let e := p / 2 ^ f.fracBits % 2 ^ f.expBits
  let m := p % 2 ^ f.fracBits
  if e = f.maxExp then (if m = 0 then .inf neg else .nan)
  else if e = 0 then .fin neg (m * 2) (2 ^ (f.bias + f.fracBits))
  else .fin neg ((2 ^ f.fracBits + m) * 2 ^ e) (2 ^ (f.bias + f.fracBits))

/-- The natural number nearest to num / den; of two equally near, the even one. -/
def roundNearestEven (num den : Nat) : Nat :=
  let q := num / den
  let r := num % den
  if 2 * r < den then q else if den < 2 * r then q + 1 else q + q % 2

/-- The pattern, without its sign, of num / den rounded to nearest, ties to even (R15, R111, R113): `e` is the exponent
field whose spacing suits the magnitude, at least that of the subnormals; a carry out of the fraction moves into the
exponent; a result past the largest finite number is infinity. -/
def FloatFormat.encode (f : FloatFormat) (num den : Nat) : Nat :=
  let scaled := num * 2 ^ (f.bias + f.fracBits)
  let e := max 1 (Nat.log2 (scaled / den) - f.fracBits)
  min ((e - 1) * 2 ^ f.fracBits + roundNearestEven scaled (den * 2 ^ e)) f.infinity

/-- The pattern of a number in a format, rounded to nearest even; the sign of zero is kept. A NaN has no one pattern:
the caller gives it. -/
def FloatFormat.pattern (f : FloatFormat) (nanPattern : Nat) : FVal → Nat
  | .nan => nanPattern
  | .inf neg => f.signBit neg + f.infinity
  | .fin neg num den => f.signBit neg + f.encode num den

/-- A number rounded to a format. -/
def FloatFormat.round (f : FloatFormat) : FVal → FVal
  | .nan => .nan
  | v => f.value (f.pattern 0 v)

/-- Whether a pattern is a NaN of the format. -/
def FloatFormat.isNan (f : FloatFormat) (p : Nat) : Bool := f.value p == .nan

/-- A NaN pattern of the format drawn by raw bits: the raw pattern if it is a NaN, else one fixed NaN. Every NaN of the
format is the draw of some raw bits (U3: "any value among NaN patterns of the target width"). -/
def FloatFormat.nanFrom (f : FloatFormat) (raw : Nat) : Nat :=
  if f.isNan raw then raw else f.infinity + 2 ^ (f.fracBits - 1)

/-- `f64(p)` (R15). -/
def f64 (p : Cell) : FVal := binary64.value p.toNat

/-- `pat64(x)` (R15); `nan` is the pattern that stands for a NaN. -/
def pat64 (nan : Cell) (x : FVal) : Cell := BitVec.ofNat 64 (binary64.pattern nan.toNat x)

/-- `int_to_f64(i)` (R15): "rounded to nearest even; it is exact for |i| ≤ 2^53"; zero is +0.0. -/
def intToF64 (i : Int) : FVal := binary64.round (.fin (decide (i < 0)) i.natAbs 1)

/-- `rne32(x)` (R15): the nearest binary32 value, ties to even, overflowing to infinity, as a number. -/
def rne32 (x : FVal) : FVal := binary32.round x

/-- `fmul` (R15): the binary64 product, rounded to nearest even. -/
def fmul : FVal → FVal → FVal
  | .fin s a b, .fin t c d => binary64.round (.fin (s != t) (a * c) (b * d))
  | .inf s, .inf t => .inf (s != t)
  | .inf s, .fin t c _ => if c = 0 then .nan else .inf (s != t)
  | .fin s a _, .inf t => if a = 0 then .nan else .inf (s != t)
  | .nan, _ => .nan
  | _, .nan => .nan

/-- `fdiv` (R15): the binary64 quotient, rounded to nearest even. -/
def fdiv : FVal → FVal → FVal
  | .fin s a b, .fin t c d =>
    if c = 0 then (if a = 0 then .nan else .inf (s != t))
    else binary64.round (.fin (s != t) (a * d) (b * c))
  | .inf _, .inf _ => .nan
  | .inf s, .fin t _ _ => .inf (s != t)
  | .fin s _ _, .inf t => .fin (s != t) 0 1
  | .nan, _ => .nan
  | _, .nan => .nan

/-- `v > 0`; false of NaN and of zero of either sign. -/
def FVal.isPos : FVal → Bool
  | .nan => false
  | .inf neg => !neg
  | .fin neg num _ => !neg && decide (0 < num)

/-- `v < 0`; false of NaN and of zero of either sign. -/
def FVal.isNeg : FVal → Bool
  | .nan => false
  | .inf neg => neg
  | .fin neg num _ => neg && decide (0 < num)

/-- `trunc(x)` (R13): the integer nearest to x toward zero; none for an infinity or a NaN, which have no such integer. -/
def FVal.trunc : FVal → Option Int
  | .nan => none
  | .inf _ => none
  | .fin neg num den => some (if neg then -((num / den : Nat) : Int) else ((num / den : Nat) : Int))

/-- `+0.0`. -/
def FVal.zero : FVal := .fin false 0 1

end Sys2Proof.Machine
end

