-- ==== Sys2Proof/Machine/Operands.lean ====
section
/-! DEFINITION. What the operands of commands mean: numeric types (30_encoding.md R74, 40_value_codec.md R101, R102),
bit-depth codes (R79 to R81), the errors of R301 by name, the bound checks of 20_memory.md R54, the range checks of
R116, R244 and R272, and the element loop of the array commands. -/

namespace Sys2Proof.Machine

/-! ### Numeric types -/

/-- The type is one of the closed set of R74: an integer of 1 to 53 bits, or a float of 16, 32 or 64 bits. -/
def typeValid (t : NumericType) : Bool :=
  if t.isFloat then t.bits == 16 || t.bits == 32 || t.bits == 64 else decide (1 ≤ t.bits) && decide (t.bits ≤ 53)

/-- `nbytes(T) = ceil(T.bits / 8)` (R101, R65). -/
def nbytes (t : NumericType) : Nat := (t.bits + 7) / 8

/-- `rem(T)`: the number of value bits in the most significant byte (R101). -/
def remBits (t : NumericType) : Nat := t.bits - 8 * (nbytes t - 1)

/-- `lastmask(T) = 2^rem(T) - 1` (R101). -/
def lastMask (t : NumericType) : Nat := 2 ^ remBits t - 1

/-- The least value of an integer type (R102). -/
def typeMin (t : NumericType) : Int := if t.signed then -(2 ^ (t.bits - 1)) else 0

/-- The greatest value of an integer type (R102). -/
def typeMax (t : NumericType) : Int := if t.signed then 2 ^ (t.bits - 1) - 1 else 2 ^ t.bits - 1

/-! ### Bit-depth codes -/

/-- The code of 4-bit ADPCM (R79). -/
def codeAdpcm : Nat := 4
/-- The code of the 64-bit float (R79). -/
def codeF64 : Nat := 64
/-- The code of A-law (R79). -/
def codeAlaw : Nat := 0x81
/-- The code of μ-law (R79). -/
def codeMulaw : Nat := 0x82
/-- The code of the 32-bit float (R79). -/
def codeF32 : Nat := 0xA0

/-- `isInt(c)` (R81). -/
def isIntCode (c : Nat) : Bool := decide (8 ≤ c) && decide (c ≤ 53)

/-- `isFloatCode(c)` (R81). -/
def isFloatCode (c : Nat) : Bool := c == codeF32 || c == codeF64

/-- The codes valid for CVT (R79, R80). -/
def validForCvt (c : Nat) : Bool := isIntCode c || isFloatCode c

/-- The codes valid for HDR (R79, R80). -/
def validForHdr (c : Nat) : Bool := validForCvt c || c == codeAdpcm || c == codeAlaw || c == codeMulaw

/-- `bits(c)`, the column of R79; the integer codes, ADPCM and F64 are their own width. -/
def codeBits (c : Nat) : Nat :=
  if c = codeAlaw ∨ c = codeMulaw then 8 else if c = codeF32 then 32 else c

/-! ### Errors by name (R301) -/

/-- UnsupportedContainer: 0 for the leading tag, 8 for the format tag (R303). -/
def unsupportedContainer (offset : Nat) : Error := { kind := .unsupportedContainer, info := offset }
/-- InvalidType: info is BITS (R305). -/
def invalidType (bits : Nat) : Error := { kind := .invalidType, info := bits }
/-- InvalidBitDepth: info is the code (R306). -/
def invalidBitDepth (code : Nat) : Error := { kind := .invalidBitDepth, info := code }
/-- Overflow, with the info R307 gives each command. -/
def overflow (info : Nat) : Error := { kind := .overflow, info := info }
/-- Underflow, with the info R307 gives each command. -/
def underflow (info : Nat) : Error := { kind := .underflow, info := info }
/-- InvalidCommand: info is the word (R309). -/
def invalidCommand (w : Word) : Error := { kind := .invalidCommand, info := w.toNat }
/-- OutOfBounds: info is the start address of the range found outside (R309). -/
def outOfBounds (start : Nat) : Error := { kind := .outOfBounds, info := start }
/-- InvalidArgument: info is x[BLKALIGN] (R309). -/
def invalidArgument (value : Nat) : Error := { kind := .invalidArgument, info := value }
/-- TableFull: info is the offset of the chunk header that found the table full (R309). -/
def tableFull (offset : Nat) : Error := { kind := .tableFull, info := offset }

/-! ### The extent pre-check (R54) -/

/-- The BUF range of `n` bytes at OFF reaches beyond LEN: "start + count > limit on unbounded integers". -/
abbrev State.bufOutside (s : State) (n : Nat) : Prop := s.len < s.off.toNat + n

/-- The SMP range of `n` cells at SRC reaches beyond SMP_SIZE. -/
abbrev State.srcOutside (s : State) (n : Nat) : Prop := s.params.smpSize < s.src.toNat + n

/-- The SMP range of `n` cells at DST reaches beyond SMP_SIZE. -/
abbrev State.dstOutside (s : State) (n : Nat) : Prop := s.params.smpSize < s.dst.toNat + n

/-! ### Range checks of elements -/

/-- The range check of R116 for a value written to an integer type: Overflow above max, Underflow below min. -/
def checkRange (t : NumericType) (v : Int) (info : Nat) : Except Error Int :=
  if typeMax t < v then .error (overflow info)
  else if v < typeMin t then .error (underflow info)
  else .ok v

/-- The 16-bit check of R244 and R272 on element `i`. -/
def checkSample16 (v : Int) (i : Nat) : Except Error Int :=
  if 32767 < v then .error (overflow i)
  else if v < -32768 then .error (underflow i)
  else .ok v

/-! ### The element loop -/

/-- The element loop of the array commands (R83 (5)): `f i` for `count` elements from `i` on, ascending; the first
failing element ends it. -/
def collect {α : Type} (f : Nat → Except Error α) : (count i : Nat) → Except Error (List α)
  | 0, _ => .ok []
  | count + 1, i =>
    match f i with
    | .error e => .error e
    | .ok x =>
      match collect f count (i + 1) with
      | .error e => .error e
      | .ok xs => .ok (x :: xs)

/-- The samples an encoder reads: CNT cells from SRC on, each checked to be 16-bit (R244, R272). -/
def State.samples16 (s : State) : Except Error (List Int) :=
  collect (fun i => checkSample16 (s.smpInt (s.src.toNat + i)) i) s.cnt.toNat 0

end Sys2Proof.Machine
end

