-- ==== Sys2Proof/Machine/Adp.lean ====
section
/-! DEFINITION. Unit ADP, the IMA ADPCM codec: ADE, ADD (44_adpcm.md). -/

namespace Sys2Proof.Machine

/-- STEP, the 89 entries of R231. -/
def stepTable : List Nat :=
  [7, 8, 9, 10, 11, 12, 13, 14, 16, 17] ++
  [19, 21, 23, 25, 28, 31, 34, 37, 41, 45] ++
  [50, 55, 60, 66, 73, 80, 88, 97, 107, 118] ++
  [130, 143, 157, 173, 190, 209, 230, 253, 279, 307] ++
  [337, 371, 408, 449, 494, 544, 598, 658, 724, 796] ++
  [876, 963, 1060, 1166, 1282, 1411, 1552, 1707, 1878, 2066] ++
  [2272, 2499, 2749, 3024, 3327, 3660, 4026, 4428, 4871, 5358] ++
  [5894, 6484, 7132, 7845, 8630, 9493, 10442, 11487, 12635, 13899] ++
  [15289, 16818, 18500, 20350, 22385, 24623, 27086, 29794, 32767]

/-- IDXT, the 16 entries of R232: -1, -1, -1, -1, 2, 4, 6, 8, twice. -/
def indexTable : List Int := [-1, -1, -1, -1, 2, 4, 6, 8] ++ [-1, -1, -1, -1, 2, 4, 6, 8]

/-- The codec state (R233): the document's `predictedValue` and `stepIndex`, which a pass carries from sample to sample
and the registers PRED and SIDX show after it (R39, R40). -/
structure AdpcmState where
  pred  : Int
  index : Nat
  deriving DecidableEq, Repr

/-- The state every pass starts from (R241). -/
def AdpcmState.fresh : AdpcmState := { pred := 0, index := 0 }

/-- STEP[SIDX]; the index is 0 to 88 throughout a pass (R233). -/
def AdpcmState.step (a : AdpcmState) : Nat := stepTable.getD a.index 0

/-- `clamp(v, lo, hi)` (R13). -/
def clampInt (v lo hi : Int) : Int := if v < lo then lo else if hi < v then hi else v

/-- The state after the prediction moves by `diff`, down where the code's sign bit is set, and the index by `delta`, each
clamped (R235, R237). -/
def AdpcmState.move (a : AdpcmState) (down : Bool) (diff : Nat) (delta : Int) : AdpcmState :=
  { pred := clampInt (if down then a.pred - diff else a.pred + diff) (-32768) 32767
    index := (clampInt (a.index + delta) 0 88).toNat }

/-- `enc(s)` (R235): the nibble for sample `s` and the state after it. Three strict comparisons of the remaining
difference against the step, its half and its quarter set bits 2, 1 and 0; `diff` adds up what they stand for. -/
def adpcmEnc (a : AdpcmState) (s : Int) : Nat × AdpcmState :=
  let step := a.step
  let down := decide (s - a.pred < 0)
  let d := (s - a.pred).natAbs
  let b2 := decide (step < d)
  let d1 := if b2 then d - step else d
  let b1 := decide (step >>> 1 < d1)
  let d2 := if b1 then d1 - step >>> 1 else d1
  let b0 := decide (step >>> 2 < d2)
  let mag := (if b2 then 4 else 0) + (if b1 then 2 else 0) + (if b0 then 1 else 0)
  let diff := step >>> 3 + (if b2 then step else 0) + (if b1 then step >>> 1 else 0) + (if b0 then step >>> 2 else 0)
  ((if down then 8 else 0) + mag, a.move down diff (indexTable.getD mag 0))

/-- `diff(n, step)` (R236), each term truncated separately. -/
def reconstruction (n step : Nat) : Nat :=
  step >>> 3 + (if n.testBit 2 then step else 0) + (if n.testBit 1 then step >>> 1 else 0) +
    (if n.testBit 0 then step >>> 2 else 0)

/-- `dec(n)` (R237): the state after nibble `n`; the sample is its prediction. -/
def adpcmDec (a : AdpcmState) (n : Nat) : AdpcmState :=
  a.move (n.testBit 3) (reconstruction n a.step) (indexTable.getD n 0)

/-- The data bytes of a block (R240, R243): `count` bytes, each the code of the earlier sample in bits 3:0 and of the later
in bits 7:4; a position without a sample is 0 and leaves the state as it is (R245). -/
def encodeData : (count : Nat) → List Int → AdpcmState → List Byte × AdpcmState
  | 0, _, a => ([], a)
  | count + 1, [], a =>
    let r := encodeData count [] a
    (0 :: r.1, r.2)
  | count + 1, [x], a =>
    let lo := adpcmEnc a x
    let r := encodeData count [] lo.2
    (BitVec.ofNat 8 lo.1 :: r.1, r.2)
  | count + 1, x :: y :: xs, a =>
    let lo := adpcmEnc a x
    let hi := adpcmEnc lo.2 y
    let r := encodeData count xs hi.2
    (BitVec.ofNat 8 (lo.1 ||| hi.1 <<< 4) :: r.1, r.2)

/-- One block (R238, R240, R242): the header holds the first sample, low byte first, the index the block starts with and
a zero byte; then 252 data bytes. The prediction is seeded with the first sample; the index is carried. -/
def encodeBlock (a : AdpcmState) : List Int → List Byte × AdpcmState
  | [] => ([], a)
  | x :: xs =>
    let r := encodeData 252 xs { pred := x, index := a.index }
    (BitVec.ofInt 8 x :: BitVec.ofInt 8 (x / 256) :: BitVec.ofNat 8 a.index :: 0 :: r.1, r.2)

/-- `count` blocks of 505 samples each, the last one of what is left (R240, R247). -/
def encodeBlocks : (count : Nat) → List Int → AdpcmState → List Byte × AdpcmState
  | 0, _, a => ([], a)
  | count + 1, samples, a =>
    let b := encodeBlock a (samples.take 505)
    let r := encodeBlocks count (samples.drop 505) b.2
    (b.1 ++ r.1, r.2)

/-- The samples of data bytes (R243, R251): two for each byte, low nibble first. -/
def decodeData : List Byte → AdpcmState → List Int × AdpcmState
  | [], a => ([], a)
  | y :: ys, a =>
    let lo := adpcmDec a (y.toNat &&& 0xF)
    let hi := adpcmDec lo (y.toNat >>> 4)
    let r := decodeData ys hi
    (lo.pred :: hi.pred :: r.1, r.2)

/-- One block (R251, R252): the header gives the first sample and the index, clamped to 88; byte 3 is ignored. Fewer than
four bytes hold no header and give nothing (R253). -/
def decodeBlock : List Byte → AdpcmState → List Int × AdpcmState
  | h0 :: h1 :: h2 :: _ :: data, _ =>
    let seed : AdpcmState := { pred := (h1 ++ h0).toInt, index := min h2.toNat 88 }
    let r := decodeData data seed
    (seed.pred :: r.1, r.2)
  | _, a => ([], a)

/-- `count` blocks of `ba` bytes each, the last one of what is left (R250, R251). -/
def decodeBlocks (ba : Nat) : (count : Nat) → List Byte → AdpcmState → List Int × AdpcmState
  | 0, _, a => ([], a)
  | count + 1, bytes, a =>
    let b := decodeBlock (bytes.take ba) a
    let r := decodeBlocks ba count (bytes.drop ba) b.2
    (b.1 ++ r.1, r.2)

/-- Writes PRED and SIDX from the codec state (R39). -/
def State.setAdpcm (s : State) (a : AdpcmState) : State :=
  { s with pred := BitVec.ofInt 17 a.pred, sidx := BitVec.ofNat 7 a.index }

/-- `nblk = ceil(CNT / 505)` (R247). -/
def State.adeBlocks (s : State) : Nat := (s.cnt.toNat + 504) / 505

/-- ADE, ADPCM encode (R240). After an error PRED and SIDX are unspecified (R308, U6), and after a range error the
destination extent too (R312). -/
def execAde (s : State) : Result :=
  if s.bufOutside (256 * s.adeBlocks) then raise (outOfBounds s.off.toNat) s.freeAdpcm
  else if s.srcOutside s.cnt.toNat then raise (outOfBounds s.src.toNat) s.freeAdpcm
  else
    match s.samples16 with
    | .error e => raise e (s.freeBytes s.off.toNat (256 * s.adeBlocks)).freeAdpcm
    | .ok samples =>
      let r := encodeBlocks s.adeBlocks samples AdpcmState.fresh
      done ((((s.storeBytes s.off.toNat r.1).setAdpcm r.2).setNext (s.off.toNat + 256 * s.adeBlocks)).setRcnt
        (256 * s.adeBlocks))

/-- The block size ADD works with (R250): x[BLKALIGN], 0 standing for 256. -/
def State.blockSize (s : State) : Nat := if s.blkAlign = 0 then 256 else s.blkAlign.toNat

/-- How many samples ADD gives (R251). -/
def State.addSamples (s : State) : Nat :=
  s.cnt.toNat / s.blockSize * (1 + 2 * (s.blockSize - 4)) +
    (if 4 ≤ s.cnt.toNat % s.blockSize then 1 + 2 * (s.cnt.toNat % s.blockSize - 4) else 0)

/-- The samples ADD decodes and the state after them (R251). -/
def State.addResult (s : State) : List Int × AdpcmState :=
  decodeBlocks s.blockSize ((s.cnt.toNat + s.blockSize - 1) / s.blockSize) (s.bufBytes s.off.toNat s.cnt.toNat)
    AdpcmState.fresh

/-- ADD, ADPCM decode (R251). After an error PRED and SIDX are unspecified (R308, U6). -/
def execAdd (s : State) : Result :=
  if s.blockSize < 4 then raise (invalidArgument s.blockSize) s.freeAdpcm
  else if s.bufOutside s.cnt.toNat then raise (outOfBounds s.off.toNat) s.freeAdpcm
  else if s.dstOutside s.addSamples then raise (outOfBounds s.dst.toNat) s.freeAdpcm
  else
    done ((((s.storeCells s.dst.toNat (s.addResult.1.map (BitVec.ofInt 64))).setAdpcm s.addResult.2).setNext
      (s.off.toNat + s.cnt.toNat)).setRcnt s.addSamples)

end Sys2Proof.Machine
end

