-- ==== Sys2Proof/Machine/Cmp.lean ====
section
/-! DEFINITION. Unit CMP, the A-law and μ-law compander: ALE, ALD, MUE, MUD (45_companding.md). -/

namespace Sys2Proof.Machine

/-- ALOG, the 128-entry A-law segment table (R271), by its ranges of equal entries. -/
def alog (i : Nat) : Nat :=
  if i < 2 then 1 else if i < 4 then 2 else if i < 8 then 3 else if i < 16 then 4 else if i < 32 then 5
  else if i < 64 then 6 else 7

/-- MULOG, the 256-entry μ-law exponent table (R281), by its ranges of equal entries. -/
def mulog (i : Nat) : Nat :=
  if i < 2 then 0 else if i < 4 then 1 else if i < 8 then 2 else if i < 16 then 3 else if i < 32 then 4
  else if i < 64 then 5 else if i < 128 then 6 else 7

/-- MUDEC, the μ-law decode table (R282). -/
def mudec : List Nat := [0, 132, 396, 924, 1980, 4092, 8316, 16764]

/-- `alaw_enc(s)` (R273, R274). -/
def alawEnc (s : Int) : Nat :=
  let s' := if s = -32768 then -32767 else s
  let sign := if 0 ≤ s' then 0x80 else 0x00
  let m := min s'.natAbs 32635
  let e := alog (m >>> 8 &&& 0x7F)
  let b := if 256 ≤ m then e <<< 4 ||| (m >>> (e + 3) &&& 0xF) else m >>> 4
  b ^^^ (sign ^^^ 0x55)

/-- `alaw_dec(y)` (R276). -/
def alawDec (y : Nat) : Int :=
  let a := y ^^^ 0x55
  let low := a &&& 0x7F
  let p := low >>> 4 + 4
  let d := if p ≠ 4 then 1 <<< p ||| (low &&& 0xF) <<< (p - 4) ||| 1 <<< (p - 5) else low <<< 1 ||| 1
  if a &&& 0x80 ≠ 0 then (d * 8 : Nat) else -((d * 8 : Nat) : Int)

/-- `mulaw_enc(s)` (R284, R285). -/
def mulawEnc (s : Int) : Nat :=
  let sign := if s < 0 then 0x80 else 0x00
  let m := min s.natAbs 32635 + 0x84
  let e := mulog (m >>> 7 &&& 0xFF)
  let man := m >>> (e + 3) &&& 0xF
  (sign ||| e <<< 4 ||| man) ^^^ 0xFF

/-- `mulaw_dec(y)` (R287). -/
def mulawDec (y : Nat) : Int :=
  let u := y ^^^ 0xFF
  let e := u >>> 4 &&& 7
  let man := u &&& 0xF
  let v := mudec.getD e 0 + man <<< (e + 3)
  if u &&& 0x80 ≠ 0 then -(v : Int) else v

/-- The shape ALE and MUE share (R270): CNT samples of SMP from SRC on, each checked (R272) and made a byte of BUF from
OFF on; after a range error the destination extent is unspecified (R290). -/
def compress (enc : Int → Nat) (s : State) : Result :=
  if s.bufOutside s.cnt.toNat then raise (outOfBounds s.off.toNat) s
  else if s.srcOutside s.cnt.toNat then raise (outOfBounds s.src.toNat) s
  else
    match s.samples16 with
    | .error e => raise e (s.freeBytes s.off.toNat s.cnt.toNat)
    | .ok samples =>
      done (((s.storeBytes s.off.toNat (samples.map fun x => BitVec.ofNat 8 (enc x))).setNext
        (s.off.toNat + s.cnt.toNat)).setRcnt s.cnt.toNat)

/-- The shape ALD and MUD share (R270): CNT bytes of BUF from OFF on, each made a cell of SMP from DST on. -/
def expand (dec : Nat → Int) (s : State) : Result :=
  if s.bufOutside s.cnt.toNat then raise (outOfBounds s.off.toNat) s
  else if s.dstOutside s.cnt.toNat then raise (outOfBounds s.dst.toNat) s
  else
    let cells := (s.bufBytes s.off.toNat s.cnt.toNat).map fun y => BitVec.ofInt 64 (dec y.toNat)
    done (((s.storeCells s.dst.toNat cells).setNext (s.off.toNat + s.cnt.toNat)).setRcnt s.cnt.toNat)

/-- ALE, A-law encode (R273). -/
def execAle (s : State) : Result := compress alawEnc s

/-- ALD, A-law decode (R276). -/
def execAld (s : State) : Result := expand alawDec s

/-- MUE, μ-law encode (R284). -/
def execMue (s : State) : Result := compress mulawEnc s

/-- MUD, μ-law decode (R287). -/
def execMud (s : State) : Result := expand mulawDec s

end Sys2Proof.Machine
end

