-- ==== Sys2Proof/Machine/Cvt.lean ====
section
/-! DEFINITION. Unit CVT, the bit-depth converter: CVT (43_bitdepth_converter.md). -/

namespace Sys2Proof.Machine

/-- `int_to_f64(MAXV(c))` with MAXV(c) = 2^(bits-1) - 1 (R200). -/
def maxVal (c : Nat) : FVal := intToF64 (2 ^ (codeBits c - 1) - 1)

/-- `int_to_f64(MINMAG(c))` with MINMAG(c) = 2^(bits-1) (R200). -/
def minMag (c : Nat) : FVal := intToF64 (2 ^ (codeBits c - 1))

/-- The float clamp of R204: above 1.0 becomes 1.0, below -1.0 becomes -1.0, infinities included; all else is unchanged,
and so is a NaN, "not ordered against either bound". -/
def clampUnit : FVal → FVal
  | .nan => .nan
  | .inf neg => .fin neg 1 1
  | .fin neg num den => if den < num then .fin neg 1 1 else .fin neg num den

/-- The input stage (R202, R203, R204): an integer source de-offset if its code is 8, a float source clamped. -/
def cvtInput (fromCode : Nat) (cell : Cell) : FVal :=
  if isIntCode fromCode then intToF64 (if fromCode = 8 then cell.toInt - 128 else cell.toInt)
  else clampUnit (f64 cell)

/-- int→int (R205): divide, then multiply, then truncate; "non-positive values scale by value/oldMin*newMin". -/
def scaleIntInt (fromCode toCode : Nat) (v : FVal) : Option Int :=
  if v.isPos then (fmul (fdiv v (maxVal fromCode)) (maxVal toCode)).trunc
  else (fmul (fdiv v (minMag fromCode)) (minMag toCode)).trunc

/-- int→float (R206): divide by the bound of the sample's sign; zero gives +0.0. -/
def scaleIntFloat (fromCode : Nat) (v : FVal) : FVal :=
  if v.isPos then fdiv v (maxVal fromCode)
  else if v.isNeg then fdiv v (minMag fromCode)
  else FVal.zero

/-- float→int (R207): multiply by the bound of the sample's sign, then truncate. -/
def scaleFloatInt (toCode : Nat) (v : FVal) : Option Int :=
  if v.isPos then (fmul v (maxVal toCode)).trunc else (fmul v (minMag toCode)).trunc

/-- float→float (R208): through binary32 when the target is F32, else a copy of the clamped value. -/
def scaleFloatFloat (toCode : Nat) (v : FVal) : FVal := if toCode = codeF32 then rne32 v else v

/-- The output stage for an integer target (R209, R215): re-offset if the code is 8, then the check against the 64-bit
cell. An element that has no integer (it comes from a NaN only) is the draw (R213, U5). -/
def cvtIntOutput (toCode : Nat) (draw : Cell) (i : Nat) : Option Int → Except Error Cell
  | none => .ok draw
  | some r =>
    let r' := if toCode = 8 then r + 128 else r
    if 2 ^ 63 - 1 < r' then .error (overflow i)
    else if r' < -2 ^ 63 then .error (underflow i)
    else .ok (BitVec.ofInt 64 r')

/-- One element of CVT (R201): the destination cell for a source cell, or a cell overflow. The path is "chosen by the two
codes alone, never by the data" (R202). `draw` is what a NaN source gives (U5). -/
def cvtCell (fromCode toCode : Nat) (draw : Cell) (i : Nat) (cell : Cell) : Except Error Cell :=
  let v := cvtInput fromCode cell
  if isIntCode fromCode && isIntCode toCode then cvtIntOutput toCode draw i (scaleIntInt fromCode toCode v)
  else if isIntCode fromCode then .ok (pat64 draw (scaleIntFloat fromCode v))
  else if isIntCode toCode then cvtIntOutput toCode draw i (scaleFloatInt toCode v)
  else .ok (pat64 draw (scaleFloatFloat toCode v))

/-- The element loop of CVT (R201, R216): ascending, each source cell read before its destination cell is written, so
that overlapping ranges see the cells already written. -/
def cvtLoop (fromCode toCode : Nat) : (count i : Nat) → State → Except Error State
  | 0, _, s => .ok s
  | count + 1, i, s =>
    match cvtCell fromCode toCode (Config.freeCvtCell s.serial i) i (s.smpCell (s.src.toNat + i)) with
    | .error e => .error e
    | .ok cell => cvtLoop fromCode toCode count (i + 1) (s.storeCells (s.dst.toNat + i) [cell])

/-- CVT, convert bit depth (R201); after a cell overflow the destination extent is unspecified (R126, R312). -/
def execCvt (fromCode toCode : Nat) (s : State) : Result :=
  if !validForCvt fromCode then raise (invalidBitDepth fromCode) s
  else if !validForCvt toCode then raise (invalidBitDepth toCode) s
  else if s.srcOutside s.cnt.toNat then raise (outOfBounds s.src.toNat) s
  else if s.dstOutside s.cnt.toNat then raise (outOfBounds s.dst.toNat) s
  else
    match cvtLoop fromCode toCode s.cnt.toNat 0 s with
    | .error e => raise e (s.freeCells s.dst.toNat s.cnt.toNat)
    | .ok t => done (t.setRcnt s.cnt.toNat)

end Sys2Proof.Machine
end

