-- ==== Sys2Proof/Machine/Hdr.lean ====
section
/-! DEFINITION. Unit HDR, the container header builder: HDR (42_header_builder.md). -/

namespace Sys2Proof.Machine

/-- The fields of a header before their widths are checked (R171). -/
structure HeaderFields where
  riff     : Nat
  fmtSize  : Nat
  aFmt     : Nat
  byteRate : Nat
  bAlign   : Nat
  bits     : Nat
  cbSize   : Nat
  vBits    : Nat
  chMask   : Nat
  pcm      : Bool
  fact     : Bool
  factLen  : Nat
  deriving DecidableEq, Repr

/-- `CHMASK(ch)` (R180). -/
def channelMask (ch : Nat) : Nat :=
  if ch = 1 then 0x4 else if ch = 2 then 0x3 else if ch = 4 then 0x33 else if ch = 6 then 0x3F
  else if ch = 8 then 0x63F else 0

/-- The "standard" codes {8, 16, 24, 32, F32, F64} (R80). -/
def isStandardCode (c : Nat) : Bool := c == 8 || c == 16 || c == 24 || c == 32 || c == codeF32 || c == codeF64

/-- The payload and its pad byte: "always even-padded" (R177). -/
def paddedPayload (s : State) : Nat := s.payLen.toNat + s.payLen.toNat % 2

/-- Byte rate = channels × bytesPerSample × sampleRate (R172). -/
def commonByteRate (s : State) : Nat := s.ch.toNat * s.bps.toNat * s.rate.toNat

/-- Block align = channels × bytesPerSample (R172). -/
def commonBlockAlign (s : State) : Nat := s.ch.toNat * s.bps.toNat

/-- Shape 1, ADPCM (R173). -/
def shapeAdpcm (s : State) : HeaderFields :=
  { riff := 52 + paddedPayload s, fmtSize := 20, aFmt := 17, byteRate := 4055, bAlign := 256, bits := 4
    cbSize := 2, vBits := 505, chMask := 0, pcm := false, fact := true, factLen := 2 * s.payLen.toNat }

/-- Shape 2, A-law and μ-law (R174). -/
def shapeCompanded (aFmt : Nat) (s : State) : HeaderFields :=
  { riff := 52 + paddedPayload s, fmtSize := 20, aFmt := aFmt, byteRate := commonByteRate s
    bAlign := commonBlockAlign s, bits := 8, cbSize := 2, vBits := 8, chMask := 0, pcm := false
    fact := true, factLen := s.payLen.toNat }

/-- Shape 3, extensible (R175). -/
def shapeExtensible (depth : Nat) (s : State) : HeaderFields :=
  { riff := 60 + paddedPayload s, fmtSize := 40, aFmt := 65534, byteRate := commonByteRate s
    bAlign := commonBlockAlign s, bits := 8 * ((codeBits depth + 7) / 8), cbSize := 22, vBits := codeBits depth
    chMask := channelMask s.ch.toNat, pcm := true, fact := false, factLen := 0 }

/-- Shape 4, plain (R176). -/
def shapePlain (depth : Nat) (s : State) : HeaderFields :=
  { riff := 36 + paddedPayload s, fmtSize := 16, aFmt := if isFloatCode depth then 3 else 1
    byteRate := commonByteRate s, bAlign := commonBlockAlign s, bits := codeBits depth, cbSize := 0, vBits := 0
    chMask := 0, pcm := false, fact := false, factLen := 0 }

/-- The shape a depth code and the channel count select, in the priority of R171. -/
def headerFields (depth : Nat) (s : State) : HeaderFields :=
  if depth = codeAdpcm then shapeAdpcm s
  else if depth = codeAlaw then shapeCompanded 6 s
  else if depth = codeMulaw then shapeCompanded 7 s
  else if !isStandardCode depth || decide (2 < s.ch.toNat) then shapeExtensible depth s
  else shapePlain depth s

/-- The field-width check (R178): Overflow with the number of the register that would overflow, in the order byte rate,
block align, overall size, sample length. -/
def checkWidths (f : HeaderFields) : Except Error HeaderFields :=
  if 2 ^ 32 ≤ f.byteRate then .error (overflow Reg.H_BYTERATE.number)
  else if 2 ^ 16 ≤ f.bAlign then .error (overflow Reg.H_BALIGN.number)
  else if 2 ^ 32 ≤ f.riff then .error (overflow Reg.H_RIFFSIZE.number)
  else if 2 ^ 32 ≤ f.factLen then .error (overflow Reg.H_FACTLEN.number)
  else .ok f

/-- The header registers HDR writes (R171), with the PCM sub-format identifier of R181 where the shape has it. -/
def headerRegs (f : HeaderFields) (kind : ContainerKind) (s : State) : HeaderRegs :=
  { riffSize := BitVec.ofNat 32 f.riff
    fmtSize := BitVec.ofNat 32 f.fmtSize
    aFmt := BitVec.ofNat 16 f.aFmt
    nCh := s.ch
    rate := s.rate
    byteRate := BitVec.ofNat 32 f.byteRate
    bAlign := BitVec.ofNat 16 f.bAlign
    bits := BitVec.ofNat 16 f.bits
    cbSize := BitVec.ofNat 16 f.cbSize
    vBits := BitVec.ofNat 16 f.vBits
    chMask := BitVec.ofNat 32 f.chMask
    subFmt0 := if f.pcm then 0x00000001 else 0
    subFmt1 := if f.pcm then 0x00100000 else 0
    subFmt2 := if f.pcm then 0xAA000080 else 0
    subFmt3 := if f.pcm then 0x719B3800 else 0
    fact := BitVec.ofBool f.fact
    factLen := BitVec.ofNat 32 f.factLen
    kind := kind.code }

/-- HDR, build header (R171). -/
def execHdr (depth : Nat) (kind : ContainerKind) (s : State) : Result :=
  if !validForHdr depth then raise (invalidBitDepth depth) s
  else
    match checkWidths (headerFields depth s) with
    | .error e => raise e s
    | .ok f => done { s with hdr := headerRegs f kind s }

end Sys2Proof.Machine
end

