-- ==== Sys2Proof/Machine/Codec.lean ====
section
/-! DEFINITION. The two functions of unit VAL (40_value_codec.md sections 1 to 4): `pack(T, value)` and
`unpack(T, bytes)`, for integers of 1 to 53 bits and floats of 16, 32 and 64 bits, in either byte order. -/

namespace Sys2Proof.Machine

/-- The `n` low bytes of a number, least significant first (R103). -/
def leBytes (n u : Nat) : List Byte := (List.range n).map fun k => BitVec.ofNat 8 (u >>> (8 * k))

/-- The number whose bytes are given, least significant first (R106). -/
def leNat : List Byte → Nat
  | [] => 0
  | b :: bs => b.toNat + 256 * leNat bs

/-- Bytes between memory order and least-significant-first order: reversed for a big-endian type (R103, R106). -/
def inOrder (t : NumericType) (bytes : List Byte) : List Byte := if t.bigEndian then bytes.reverse else bytes

/-- The last byte of a list, the most significant, masked (R106). -/
def maskLast (mask : Nat) : List Byte → List Byte
  | [] => []
  | [b] => [b &&& BitVec.ofNat 8 mask]
  | b :: c :: bs => b :: maskLast mask (c :: bs)

/-- `pack(T, v)` for an integer type (R103): the two's-complement pattern `v mod 2^bits`, in the type's order. -/
def packInt (t : NumericType) (v : Int) : List Byte :=
  inOrder t (leBytes (nbytes t) (v % 2 ^ t.bits).toNat)

/-- `unpack(T, bytes)` for an integer type (R106): the partial byte is masked; for a signed type "values above
2^(bits-1)-1 are reinterpreted as negative". -/
def unpackInt (t : NumericType) (bytes : List Byte) : Int :=
  let u := leNat (maskLast (lastMask t) (inOrder t bytes))
  if t.signed ∧ 2 ^ (t.bits - 1) - 1 < u then (u : Int) - 2 ^ t.bits else u

/-- The bytes of a float's pattern in the type's order (R109). -/
def packPattern (t : NumericType) (p : Nat) : List Byte := inOrder t (leBytes (nbytes t) p)

/-- The pattern of a float rebuilt from its bytes (R109). -/
def unpackPattern (t : NumericType) (bytes : List Byte) : Nat := leNat (inOrder t bytes)

/-- A binary16 or binary32 pattern widened to binary64 (R111, R112): exact; a NaN becomes some binary64 NaN, drawn from
`raw` (R114, U3). -/
def widen (f : FloatFormat) (raw : BitVec 64) (p : Nat) : Cell :=
  pat64 (BitVec.ofNat 64 (binary64.nanFrom raw.toNat)) (f.value p)

/-- `unpack(T, bytes)` for a float type, as a binary64 pattern: f64 is returned unchanged (R109), f32 (R111) and f16
(R112) are widened. -/
def unpackFloat (t : NumericType) (raw : BitVec 64) (bytes : List Byte) : Cell :=
  if t.bits = 64 then BitVec.ofNat 64 (unpackPattern t bytes)
  else if t.bits = 32 then widen binary32 raw (unpackPattern t bytes)
  else widen binary16 raw (unpackPattern t bytes)

/-- `pack(T, f64(VAL))` for a float type: f64 copies the pattern (R109); f32 rounds to nearest even, a NaN becoming some
binary32 NaN drawn from `raw` (R111, R114, U3); f16 rounds to nearest even, a NaN becoming 0x7E00 (R113). -/
def packFloat (t : NumericType) (raw : BitVec 32) (v : Cell) : List Byte :=
  if t.bits = 64 then packPattern t v.toNat
  else if t.bits = 32 then packPattern t (binary32.pattern (binary32.nanFrom raw.toNat) (f64 v))
  else packPattern t (binary16.pattern 0x7E00 (f64 v))

/-- What a read of type T makes of its bytes, as a 64-bit cell: twos_64 of an integer (R117), the binary64 pattern of a
float (R118). -/
def readValue (t : NumericType) (raw : BitVec 64) (bytes : List Byte) : Cell :=
  if t.isFloat then unpackFloat t raw bytes else BitVec.ofInt 64 (unpackInt t bytes)

/-- What a write of type T makes of a 64-bit value: of an integer, sext_64 of it range-checked (R116, R117) and packed;
of a float, its pattern packed, which never fails. `info` is the info value of a range error. -/
def writeValue (t : NumericType) (raw : BitVec 32) (v : Cell) (info : Nat) : Except Error (List Byte) :=
  if t.isFloat then .ok (packFloat t raw v)
  else
    match checkRange t v.toInt info with
    | .error e => .error e
    | .ok i => .ok (packInt t i)

end Sys2Proof.Machine
end

