-- ==== Sys2Proof/Machine/Idx.lean ====
section
/-! DEFINITION. Unit IDX, the chunk tree indexer: IDX (41_chunk_indexer.md). -/

namespace Sys2Proof.Machine

/-- The four bytes of an ASCII tag (R17). -/
def tagBytes (a b c d : Nat) : List Byte :=
  [BitVec.ofNat 8 a, BitVec.ofNat 8 b, BitVec.ofNat 8 c, BitVec.ofNat 8 d]

/-- "RIFF" (R17). -/
def tagRiff : List Byte := tagBytes 0x52 0x49 0x46 0x46
/-- "RIFX" (R17). -/
def tagRifx : List Byte := tagBytes 0x52 0x49 0x46 0x58
/-- "RF64" (R17). -/
def tagRf64 : List Byte := tagBytes 0x52 0x46 0x36 0x34
/-- "WAVE" (R17). -/
def tagWave : List Byte := tagBytes 0x57 0x41 0x56 0x45
/-- "LIST" (R17). -/
def tagList : List Byte := tagBytes 0x4C 0x49 0x53 0x54

/-- The container kind a leading tag selects (R140, R141). -/
def kindOfTag (tag : List Byte) : Option ContainerKind :=
  if tag = tagRiff then some .riff
  else if tag = tagRifx then some .rifx
  else if tag = tagRf64 then some .rf64
  else none

/-- "RIFF/RF64 are little-endian; RIFX is big-endian" (R59). -/
def isBigEndianKind : ContainerKind → Bool
  | .rifx => true
  | _ => false

/-- `tagword`: first byte in bits 7:0, whatever the container's byte order (R150). -/
def tagWord (tag : List Byte) : Word := BitVec.ofNat 32 (leNat tag)

/-- VAL's unsigned 32-bit type in the container's byte order (R141, R142). -/
def sizeType (be : Bool) : NumericType := { bits := 32, signed := false, isFloat := false, bigEndian := be }

/-- `u32(a)` (R141): VAL's unsigned 32-bit unpack of four bytes of BUF. -/
def State.u32 (s : State) (be : Bool) (a : Nat) : Nat := (unpackInt (sizeType be) (s.bufBytes a 4)).toNat

/-- The FLAGS word (R150): bit 0 ISLIST, bit 1 FMTVALID, bits 15:8 DEPTH saturated at 255. -/
def descFlags (isList fmtValid : Bool) (depth : Nat) : Word :=
  BitVec.ofNat 32 (isList.toNat + 2 * fmtValid.toNat + 256 * min depth 255)

/-- The PARENT word (R150): the enclosing LIST's index, or NONE. -/
def parentWord : Option Nat → Word
  | none => 0xFFFFFFFF
  | some p => BitVec.ofNat 32 p

/-- The record of a chunk whose data of `size` bytes start at `start` (R144, R150). -/
def chunkRecord (id : List Byte) (size start : Nat) (listFmt : Option (List Byte)) (isList : Bool)
    (parent : Option Nat) (depth : Nat) : DescRecord :=
  { id := tagWord id
    size := BitVec.ofNat 32 size
    start := BitVec.ofNat 32 start
    endLo := BitVec.ofNat 32 (start + size)
    endHi := BitVec.ofNat 32 ((start + size) / 2 ^ 32)
    listFmt := match listFmt with
      | none => 0
      | some tag => tagWord tag
    parent := parentWord parent
    flags := descFlags isList listFmt.isSome depth }

/-- Where the next header stands (R146): after the data, and after the pad byte of an odd size. -/
def nextHeader (start size : Nat) : Nat := start + size + size % 2

/-- `walk(cursor, bound, parent, depth)` (R141), the records it allocates in order (R151) when `n` are allocated already,
or TableFull. A chunk is walked when its 8-byte header lies below the bound; a LIST whose format tag does recurses into
its children, bounded by the smaller of its own end and the bound (R147). No read here can leave BUF (R142). `fuel`
bounds the headers still to come on one path; the caller gives more than there can be (R319). -/
def walk (s : State) (be : Bool) : (fuel cursor bound : Nat) → (parent : Option Nat) → (depth n : Nat) →
    Except Error (List DescRecord)
  | 0, _, _, _, _, _ => .ok []
  | fuel + 1, cursor, bound, parent, depth, n =>
    if bound < cursor + 8 then .ok []
    else if s.params.nDesc ≤ n then .error (tableFull cursor)
    else
      let id := s.bufBytes cursor 4
      let size := s.u32 be (cursor + 4)
      let start := cursor + 8
      let childBound := min (start + size) bound
      let isList := decide (id = tagList)
      if isList && decide (start + 4 ≤ childBound) then
        match walk s be fuel (start + 4) childBound (some n) (depth + 1) (n + 1) with
        | .error e => .error e
        | .ok children =>
          match walk s be fuel (nextHeader start size) bound parent depth (n + 1 + children.length) with
          | .error e => .error e
          | .ok rest =>
            .ok (chunkRecord id size start (some (s.bufBytes start 4)) true parent depth :: (children ++ rest))
      else
        match walk s be fuel (nextHeader start size) bound parent depth (n + 1) with
        | .error e => .error e
        | .ok rest => .ok (chunkRecord id size start none isList parent depth :: rest)

/-- The walk of a whole container: from the first header at 12, bounded by LEN (R143, R147). Every header advances the
cursor, so LEN is fuel enough. -/
def State.walkAll (s : State) (be : Bool) : Except Error (List DescRecord) := walk s be s.len 12 s.len none 0 0

/-- The 12-byte container header (R141, R159): the kind and the overall declared size, or the first error in the order of
R310: the three reads in address order, UnsupportedContainer(0) after the first, UnsupportedContainer(8) after the last. -/
def State.containerHeader (s : State) : Except Error (ContainerKind × Nat) :=
  match s.memRead 0 4 with
  | .error e => .error e
  | .ok tag =>
    match kindOfTag tag with
    | none => .error (unsupportedContainer 0)
    | some kind =>
      match s.memRead 4 4 with
      | .error e => .error e
      | .ok size =>
        match s.memRead 8 4 with
        | .error e => .error e
        | .ok fmt =>
          if fmt = tagWave then .ok (kind, (unpackInt (sizeType (isBigEndianKind kind)) size).toNat)
          else .error (unsupportedContainer 8)

/-- IDX, index chunks (R141); after TableFull the whole of DESC is unspecified (R152). -/
def execIdx (s : State) : Result :=
  match s.containerHeader with
  | .error e => raise e s
  | .ok (kind, size) =>
    match s.walkAll (isBigEndianKind kind) with
    | .error e => raise e s.freeRecords
    | .ok records =>
      done { s.storeRecords records with
        idx := { kind := kind.code
                 size := BitVec.ofNat 32 size
                 format := tagWord tagWave
                 nDesc := BitVec.ofNat 32 records.length } }

end Sys2Proof.Machine
end

