-- ==== Sys2Proof/Machine/Val.lean ====
section
/-! DEFINITION. Unit VAL, the binary value codec: RDV, WRV, RDA, WRA (40_value_codec.md section 5). -/

namespace Sys2Proof.Machine

/-- RDV, read value (R110). -/
def execRdv (t : NumericType) (s : State) : Result :=
  if !typeValid t then raise (invalidType t.bits) s
  else if s.bufOutside (nbytes t) then raise (outOfBounds s.off.toNat) s
  else
    let v := readValue t (Config.freeNan64 s.serial 0) (s.bufBytes s.off.toNat (nbytes t))
    done ((s.setVal v).setNext (s.off.toNat + nbytes t))

/-- WRV, write value (R115). -/
def execWrv (t : NumericType) (s : State) : Result :=
  if !typeValid t then raise (invalidType t.bits) s
  else if s.bufOutside (nbytes t) then raise (outOfBounds s.off.toNat) s
  else
    match writeValue t (Config.freeNan32 s.serial 0) s.val s.off.toNat with
    | .error e => raise e s
    | .ok bytes => done ((s.storeBytes s.off.toNat bytes).setNext (s.off.toNat + nbytes t))

/-- The cell RDA stores for element `i` (R120). -/
def rdaCell (t : NumericType) (s : State) (i : Nat) : Cell :=
  readValue t (Config.freeNan64 s.serial i) (s.bufBytes (s.off.toNat + i * nbytes t) (nbytes t))

/-- RDA, read array (R120). -/
def execRda (t : NumericType) (s : State) : Result :=
  if !typeValid t then raise (invalidType t.bits) s
  else if s.bufOutside (s.cnt.toNat * nbytes t) then raise (outOfBounds s.off.toNat) s
  else if s.dstOutside s.cnt.toNat then raise (outOfBounds s.dst.toNat) s
  else
    let cells := (List.range s.cnt.toNat).map (rdaCell t s)
    done (((s.storeCells s.dst.toNat cells).setNext (s.off.toNat + s.cnt.toNat * nbytes t)).setRcnt s.cnt.toNat)

/-- The bytes WRA writes for element `i`, or its range error (R125). -/
def wraBytes (t : NumericType) (s : State) (i : Nat) : Except Error (List Byte) :=
  writeValue t (Config.freeNan32 s.serial i) (s.smpCell (s.src.toNat + i)) i

/-- WRA, write array (R125); after a range error the destination extent is unspecified (R126). -/
def execWra (t : NumericType) (s : State) : Result :=
  if !typeValid t then raise (invalidType t.bits) s
  else if s.bufOutside (s.cnt.toNat * nbytes t) then raise (outOfBounds s.off.toNat) s
  else if s.srcOutside s.cnt.toNat then raise (outOfBounds s.src.toNat) s
  else
    match collect (wraBytes t s) s.cnt.toNat 0 with
    | .error e => raise e (s.freeBytes s.off.toNat (s.cnt.toNat * nbytes t))
    | .ok chunks =>
      done (((s.storeBytes s.off.toNat chunks.flatten).setNext (s.off.toNat + s.cnt.toNat * nbytes t)).setRcnt
        (s.cnt.toNat * nbytes t))

end Sys2Proof.Machine
end

