-- ==== Sys2Proof/Machine/Dispatch.lean ====
section
/-! DEFINITION. The command a decoded word runs (30_encoding.md R77): one arm per command, each a call of its meaning. -/

namespace Sys2Proof.Machine

def exec (i : Instr) (s : State) : Host.Outcome State Fault Refusal :=
  match i with
  -- unit VAL
  | .rdv t => Sys2Proof.Machine.execRdv t s
  | .wrv t => Sys2Proof.Machine.execWrv t s
  | .rda t => Sys2Proof.Machine.execRda t s
  | .wra t => Sys2Proof.Machine.execWra t s
  -- unit IDX
  | .idx => Sys2Proof.Machine.execIdx s
  -- unit HDR
  | .hdr depth kind => Sys2Proof.Machine.execHdr depth kind s
  -- unit CVT
  | .cvt fromCode toCode => Sys2Proof.Machine.execCvt fromCode toCode s
  -- unit ADP
  | .ade => Sys2Proof.Machine.execAde s
  | .add => Sys2Proof.Machine.execAdd s
  -- unit CMP
  | .ale => Sys2Proof.Machine.execAle s
  | .ald => Sys2Proof.Machine.execAld s
  | .mue => Sys2Proof.Machine.execMue s
  | .mud => Sys2Proof.Machine.execMud s

end Sys2Proof.Machine
end

