-- ==== Sys2Proof/Machine/HostPort.lean ====
section
/-! DEFINITION. The host's side of WVC (00_scope.md R9, 10_state.md R23, R24): what each action of the host does. A
command is not fetched; "it is the value the host writes to CMD" (R22). -/

namespace Sys2Proof.Machine

/-- A write of the word `w` to CMD while WVC is idle (R24): the word is stored in CMD and the command it encodes runs to
completion; an illegal word raises InvalidCommand with the word as info (R82). -/
def command (w : Word) (s : State) : Result :=
  let t := { s with cmd := w }
  match decode w with
  | .ok i => exec i t
  | .error _ => raise (invalidCommand w) t

/-- One action of the host. What R338 forbids while STATUS.BUSY is 1 is refused; reset is always allowed (R338, U7). A
byte of BUF or a cell of SMP that does not exist (R41, R42) faults. -/
def hostStep (a : HostAction) (s : State) : Result :=
  match a with
  | .reset => .next s.afterReset
  | .writeReg .CMD w => if s.busy then .refused .hostAccessWhileBusy else command w s
  | .writeReg r w => if s.busy && r.isOperand then .refused .hostAccessWhileBusy else .next (s.writeReg r w)
  | .writeBuf addr b =>
    if s.busy then .refused .hostAccessWhileBusy
    else if s.params.bufSize ≤ addr then .fault (.noSuchBufByte addr)
    else .next (s.storeBytes addr [b])
  | .writeSmp index v =>
    if s.busy then .refused .hostAccessWhileBusy
    else if s.params.smpSize ≤ index then .fault (.noSuchSmpCell index)
    else .next (s.storeCells index [v])

/-- The host's next action, taken from the queue; none when the host is doing nothing. -/
def fetch (s : State) : Option (HostAction × State) :=
  match s.inputs with
  | [] => none
  | a :: rest => some (a, { s with inputs := rest })

/-- The state in which the host's next action is to write `w` to CMD, with WVC idle as that write needs (R24). -/
def issueNext (s : State) (w : Word) : State :=
  { s with
    status := statusWord s.errSeen s.err s.doneFlag false
    inputs := .writeReg .CMD w :: s.inputs }

end Sys2Proof.Machine
end

