-- ==== Sys2Proof/Machine/Step.lean ====
section
/-! DEFINITION. One step of the machine: the host's next action, whole (10_state.md R20, R24). While the host does
nothing WVC is idle and stays as it is: "nothing wakes it but a write to CMD" (60_exceptions.md R326). -/

namespace Sys2Proof.Machine

/-- One step. -/
def step (s : State) : Host.Outcome State Fault Refusal :=
  match fetch s with
  | none => .next s
  | some (a, t) => hostStep a t

/-- `s` with the opcode table's word as the next word the host writes to CMD, so that the very next step runs it. -/
def State.withFetchWord (s : State) (nbits w : Nat) : State := issueNext s (tableWord nbits w)

end Sys2Proof.Machine
end

