-- ==== Sys2Proof/Machine/Script.lean ====
section
/-! DEFINITION. Host scripts (30_encoding.md R84 to R86): what each line of the spec's test programs makes the host do,
the type operands of format V, and the two pseudo-instructions. An `EXPECT` line is a check, not an action. -/

namespace Sys2Proof.Machine

/-- `<MNEMONIC> <operands>`: the host writes the command word to CMD (R84). -/
def issue (i : Instr) : List HostAction := [.writeReg .CMD (encode i)]

/-- `SET <REG>, <value>` (R84). -/
def setReg (r : Reg) (v : Nat) : List HostAction := [.writeReg r (BitVec.ofNat 32 v)]

/-- `SET VAL, <value>`: "VAL takes a 64-bit value and writes both halves" (R84). -/
def setValue (v : BitVec 64) : List HostAction :=
  [.writeReg .VAL_LO (v.extractLsb' 0 32), .writeReg .VAL_HI (v.extractLsb' 32 32)]

/-- `BUF[<a>..] = <hex bytes>` (R84). -/
def setBuf (a : Nat) : List Byte → List HostAction
  | [] => []
  | b :: bs => .writeBuf a b :: setBuf (a + 1) bs

/-- `SMP[<i>..] = <values>` (R84). -/
def setSmp (i : Nat) : List Cell → List HostAction
  | [] => []
  | v :: vs => .writeSmp i v :: setSmp (i + 1) vs

/-- `u<n>le`, `u<n>be` (R85). -/
def unsignedType (n : Nat) (be : Bool) : NumericType := { bits := n, signed := false, isFloat := false, bigEndian := be }

/-- `s<n>le`, `s<n>be` (R85). -/
def signedType (n : Nat) (be : Bool) : NumericType := { bits := n, signed := true, isFloat := false, bigEndian := be }

/-- `f16`, `f32`, `f64` with `le` or `be`; the assembler emits SIGNED = 1 (R85). -/
def floatType (n : Nat) (be : Bool) : NumericType := { bits := n, signed := true, isFloat := true, bigEndian := be }

/-- The pseudo-instruction `RD32 <le|be>` is `RDV u32le` or `RDV u32be` (R86). -/
def rd32 (be : Bool) : List HostAction := issue (.rdv (unsignedType 32 be))

/-- The pseudo-instruction `CLRERR` is `SET STATUS, 8` (R86). -/
def clrErr : List HostAction := setReg .STATUS 8

end Sys2Proof.Machine
end

