-- ==== Sys2Proof/Safety.lean ====
section
/-! DEFINITION. The terms statements about WVC use: the invariants the spec states of the machine "at every command
boundary", the two ways a command ends written out, and what the spec says of a value read or written, an extent, and
a run of the ADPCM codec, each in the spec's own arithmetic. -/

namespace Sys2Proof.Machine

/-- The three memories are in canonical form and lie within their capacities (10_state.md R41 to R43). -/
def State.MemoriesCanonical (s : State) : Prop :=
  (Memory.wf s.buf ∧ Memory.below s.buf s.params.bufSize) ∧
    (Memory.wf s.smp ∧ Memory.below s.smp s.params.smpSize) ∧
    (Memory.wf s.desc ∧ Memory.below s.desc s.params.nDesc)

/-- The ADPCM registers are in range (R39): "-32768 ≤ PRED ≤ 32767", "0 ≤ SIDX ≤ 88". -/
def State.AdpcmInRange (s : State) : Prop :=
  -32768 ≤ s.pred.toInt ∧ s.pred.toInt ≤ 32767 ∧ s.sidx.toNat ≤ 88

/-- BUSY reads 0 (R25). -/
def State.Idle (s : State) : Prop := s.busy = false

/-- ERRCODE holds 0 or the code of a kind WVC raises; code 2 and the unused codes never stand in it (R301, R304, U10). -/
def State.ErrCodeKnown (s : State) : Prop := s.errCode.toNat ∈ [0, 1, 3, 4, 5, 6, 16, 17, 18, 19]

/-- STATUS, ERRCODE and ERRINFO agree (R25 to R27): ERR is 1 exactly when ERRCODE is not 0, an error has set DONE, and
without an error ERRINFO is 0. -/
def State.StatusAgrees (s : State) : Prop :=
  (s.err = true ↔ s.errCode ≠ 0) ∧ (s.err = true → s.doneFlag = true) ∧ (s.errCode = 0 → s.errInfo = 0)

/-- The header registers hold a strict prefix of the extension fields (R38): H_FMTSIZE is 16, 20 or 40, or 0 before any
HDR; H_CBSIZE and H_VBITS read 0 below 20, H_CHMASK and H_SUBFMT below 40. -/
def State.HeaderPrefix (s : State) : Prop :=
  s.hdr.fmtSize.toNat ∈ [0, 16, 20, 40] ∧
    (s.hdr.fmtSize.toNat < 20 → s.hdr.cbSize = 0 ∧ s.hdr.vBits = 0) ∧
    (s.hdr.fmtSize.toNat < 40 → s.hdr.chMask = 0 ∧ s.hdr.subFmt0 = 0 ∧ s.hdr.subFmt1 = 0 ∧ s.hdr.subFmt2 = 0 ∧
      s.hdr.subFmt3 = 0)

/-- The container kinds WVC writes are 0, 1 or 2 (R78). -/
def State.KindsLegal (s : State) : Prop := s.hdr.kind ≠ 3 ∧ s.idx.kind ≠ 3

/-! ### How a command ends -/

/-- `s` after a command that ended with the error code `code` and the info value `info` (R308), written out. -/
def State.failed (s : State) (code : BitVec 8) (info : Nat) : State :=
  { s with errCode := code, errInfo := BitVec.ofNat 32 info, status := 0xE#4, serial := s.serial + 1 }

/-- `s` after a command that ended without error (R313), written out: ERRSEEN is left as it was. -/
def State.succeeded (s : State) : State :=
  { s with errCode := 0, errInfo := 0, status := if s.errSeen then 0xA#4 else 0x2#4, serial := s.serial + 1 }

/-- The error codes a command's row of R302 lists, by the codes of R301; every row also has 0, no error. -/
def errorRow : Instr → List Nat
  | .rdv _ => [3, 17]
  | .wrv _ => [3, 17, 5, 6]
  | .rda _ => [3, 17]
  | .wra _ => [3, 17, 5, 6]
  | .idx => [17, 1, 19]
  | .hdr _ _ => [4, 5]
  | .cvt _ _ => [4, 17, 5, 6]
  | .ade => [17, 5, 6]
  | .add => [18, 17]
  | .ale => [17, 5, 6]
  | .ald => [17]
  | .mue => [17, 5, 6]
  | .mud => [17]

/-! ### Illegal words -/

/-- A word is illegal (30_encoding.md R82): its opcode is none of R77's, or a bit its format reserves (R71, R72, R73, R76)
is not zero, or it is an HDR word with KIND 3. -/
def IllegalWord (w : Nat) : Prop :=
  let opcode := w % 2 ^ 8
  (opcode ∉ [0x01, 0x02, 0x03, 0x04, 0x10, 0x20, 0x30, 0x40, 0x41, 0x50, 0x51, 0x52, 0x53]) ∨
    (opcode ∈ [0x10, 0x40, 0x41, 0x50, 0x51, 0x52, 0x53] ∧ w / 2 ^ 8 ≠ 0) ∨
    (opcode ∈ [0x01, 0x02, 0x03, 0x04] ∧ (w / 2 ^ 15 % 2 ≠ 0 ∨ w / 2 ^ 19 ≠ 0)) ∨
    (opcode = 0x30 ∧ w / 2 ^ 24 ≠ 0) ∨
    (opcode = 0x20 ∧ (w / 2 ^ 18 ≠ 0 ∨ w / 2 ^ 16 % 4 = 3))

/-! ### Values in BUF -/

/-- The number the `n` bytes at `a` hold, least significant byte first, or last for a big-endian type (R58, R103, R106). -/
def State.bytesAt (s : State) (a n : Nat) (be : Bool) : Nat :=
  ∑ k ∈ Finset.range n, (s.bufByte (if be then a + (n - 1 - k) else a + k)).toNat * 256 ^ k

/-- The valid types of R74. -/
def ValidType (t : NumericType) : Prop :=
  (t.isFloat = false ∧ 1 ≤ t.bits ∧ t.bits ≤ 53) ∨ (t.isFloat = true ∧ (t.bits = 16 ∨ t.bits = 32 ∨ t.bits = 64))

/-- Two floating-point numbers are the same: both NaN, the same infinity, or the same sign and magnitude. -/
def SameNumber : FVal → FVal → Prop
  | .nan, .nan => True
  | .inf a, .inf b => a = b
  | .fin a n d, .fin b m e => a = b ∧ n * e = m * d
  | _, _ => False

/-- The binary format of a float type narrower than 64 bits. -/
def narrowFormat (t : NumericType) : FloatFormat := if t.bits = 32 then binary32 else binary16

/-- `v` is what a read of type `t` makes of the bytes at `a`: for an integer, the low `bits` bits of their number, "values
above 2^(bits-1)-1" of a signed type "reinterpreted as negative" (R106); for f64 their number itself (R109); for f16
and f32 the same number in binary64, a NaN for a NaN (R111, R112, R114). -/
def ReadAs (t : NumericType) (s : State) (a : Nat) (v : Cell) : Prop :=
  let p := s.bytesAt a ((t.bits + 7) / 8) t.bigEndian
  if t.isFloat then
    if t.bits = 64 then v.toNat = p else SameNumber (f64 v) ((narrowFormat t).value p)
  else
    let u := p % 2 ^ t.bits
    v.toInt = if t.signed = true ∧ 2 ^ (t.bits - 1) - 1 < u then (u : Int) - 2 ^ t.bits else u

/-- `p` is the number of the bytes a write of type `t` makes of the value `v`: for an integer, `v mod 2^bits` (R103); for
f64 the pattern itself (R109); for f32 the pattern rounded to nearest even, or some binary32 NaN (R111, R114); for f16
the pattern rounded to nearest even, or 0x7E00 for a NaN (R113). -/
def WrittenAs (t : NumericType) (v : Cell) (p : Nat) : Prop :=
  if t.isFloat then
    if t.bits = 64 then p = v.toNat
    else if f64 v = .nan then
      (if t.bits = 32 then p < 2 ^ 32 ∧ binary32.value p = .nan else p = 0x7E00)
    else p = (narrowFormat t).pattern 0 (f64 v)
  else p = (v.toInt % 2 ^ t.bits).toNat

/-- A value that a write of type `t` accepts: any for a float type, one in the type's range for an integer (R116). -/
def Writable (t : NumericType) (v : Cell) : Prop :=
  t.isFloat = true ∨ (typeMin t ≤ v.toInt ∧ v.toInt ≤ typeMax t)

/-- A cell that holds a 16-bit sample (R244, R272). -/
def IsSample16 (v : Int) : Prop := -32768 ≤ v ∧ v ≤ 32767

/-! ### Elements of CVT -/

/-- The bound a sample scales by (R200): 2^(bits-1) - 1 for a positive sample, the magnitude 2^(bits-1) for any other. -/
def cvtBound (bits : Nat) (v : FVal) : FVal := intToF64 (if v.isPos then 2 ^ (bits - 1) - 1 else 2 ^ (bits - 1))

/-- What element `i` answers when its truncated integer is `r` (R209, R215): 128 is added for the target code 8, and the
sum is stored if a signed 64-bit cell holds it. -/
def CvtAnswers (answer : Except Error Cell) (toCode i : Nat) (r : Int) : Prop :=
  let r' := r + (if toCode = 8 then 128 else 0)
  (2 ^ 63 - 1 < r' → answer = .error (overflow i)) ∧ (r' < -2 ^ 63 → answer = .error (underflow i)) ∧
    (-2 ^ 63 ≤ r' → r' ≤ 2 ^ 63 - 1 → answer = .ok (BitVec.ofInt 64 r'))

/-! ### Extents -/

/-- How many bytes of BUF from OFF on a command may write (R47, R51). -/
def bufExtent (i : Instr) (s : State) : Nat :=
  match i with
  | .wrv t => (t.bits + 7) / 8
  | .wra t => s.cnt.toNat * ((t.bits + 7) / 8)
  | .ade => 256 * ((s.cnt.toNat + 504) / 505)
  | .ale => s.cnt.toNat
  | .mue => s.cnt.toNat
  | _ => 0

/-- How many cells of SMP from DST on a command may write (R47, R51). -/
def smpExtent (i : Instr) (s : State) : Nat :=
  match i with
  | .rda _ => s.cnt.toNat
  | .cvt _ _ => s.cnt.toNat
  | .add => s.addSamples
  | .ald => s.cnt.toNat
  | .mud => s.cnt.toNat
  | _ => 0

/-! ### Containers and their records -/

/-- The number of the four tag bytes at `a`, first byte lowest (R150's `tagword`). -/
def State.tagAt (s : State) (a : Nat) : Nat := s.bytesAt a 4 false

/-- The container kind the first four bytes of BUF select (R140, R17): "RIFF", "RIFX" or "RF64". -/
def State.leadingKind (s : State) : Option ContainerKind :=
  if s.tagAt 0 = 0x46464952 then some .riff
  else if s.tagAt 0 = 0x58464952 then some .rifx
  else if s.tagAt 0 = 0x34364652 then some .rf64
  else none

/-- BUF holds the 12-byte header of a container of kind `k` (R140, R143): LEN covers it and the format tag is "WAVE". -/
def State.IsContainer (s : State) (k : ContainerKind) : Prop :=
  12 ≤ s.len ∧ s.leadingKind = some k ∧ s.tagAt 8 = 0x45564157

/-- dataRange.end of a record, from END_LO and END_HI (R144, R150). -/
def DescRecord.dataEnd (r : DescRecord) : Nat := r.endLo.toNat + 2 ^ 32 * r.endHi.toNat

/-- The next header after a record's chunk (R146). -/
def DescRecord.nextOffset (r : DescRecord) : Nat := r.dataEnd + r.size.toNat % 2

/-- FLAGS bit 0 (R150). -/
def DescRecord.isList (r : DescRecord) : Bool := r.flags.getLsbD 0

/-- FLAGS bit 1 (R150). -/
def DescRecord.fmtValid (r : DescRecord) : Bool := r.flags.getLsbD 1

/-- FLAGS bits 15:8 (R150). -/
def DescRecord.depth (r : DescRecord) : Nat := r.flags.toNat / 2 ^ 8

/-- PARENT is NONE (R150). -/
def DescRecord.IsTop (r : DescRecord) : Prop := r.parent = 0xFFFFFFFF

/-- The bound of the level record `i` stands in (R147): LEN at the top level, and below a LIST the smaller of the LIST's
declared end and the bound of the LIST's own level. A parent comes before its child, so `i + 1` is fuel enough. -/
def State.levelBound (s : State) : (fuel i : Nat) → Nat
  | 0, _ => s.len
  | fuel + 1, i =>
    let r := s.descRecord i
    if r.parent = 0xFFFFFFFF then s.len
    else min (s.descRecord r.parent.toNat).dataEnd (s.levelBound fuel r.parent.toNat)

/-- Record `j` is the next of the children of one LIST, or of the top level, after record `i` among the first `n`. -/
def State.NextSibling (s : State) (n i j : Nat) : Prop :=
  i < j ∧ j < n ∧ (s.descRecord j).parent = (s.descRecord i).parent ∧
    ∀ k, i < k → k < j → (s.descRecord k).parent ≠ (s.descRecord i).parent

/-! ### Magnitudes of patterns -/

/-- The magnitude a finite pattern without its sign encodes (R112, R15). -/
def FloatFormat.magnitude (f : FloatFormat) (p : Nat) : ℚ :=
  let e := p / 2 ^ f.fracBits
  let m := p % 2 ^ f.fracBits
  (if e = 0 then (m : ℚ) * 2 else (2 ^ f.fracBits + m) * 2 ^ e) / 2 ^ (f.bias + f.fracBits)

/-! ### A pass of the ADPCM codec -/

/-- The encoder's state after `j` coded samples of a block whose samples are `x 0, x 1, ...`: the first seeds the
prediction and is not coded (R240, R242). -/
def encoderState (index : Nat) (x : Nat → Int) : Nat → AdpcmState
  | 0 => { pred := x 0, index := index }
  | j + 1 => (adpcmEnc (encoderState index x j) (x (j + 1))).2

/-- Code `j` of a block whose data bytes start at `a`: "the earlier sample's code in bits 3:0" (R243). -/
def State.codeAt (s : State) (a j : Nat) : Nat := (s.bufByte (a + j / 2)).toNat / 16 ^ (j % 2) % 16

/-- The decoder's state after `j` codes of a block whose data bytes start at `a` (R251). -/
def State.decoderState (s : State) (a : Nat) (seed : AdpcmState) : Nat → AdpcmState
  | 0 => seed
  | j + 1 => adpcmDec (s.decoderState a seed j) (s.codeAt a j)

end Sys2Proof.Machine
end

