-- ==== Sys2Proof/Certificates/Slice0/Obligations.lean ====
section
/-! DEFINITION. What is claimed of WVC, for the provers. A statement about `exec` speaks of the state in which the command
runs, with CMD already holding the word (30_encoding.md R24); `State.failed` and `State.succeeded` write out the two
ends of a command (60_exceptions.md R308, R313), so an equation with one of them says everything a command leaves
unchanged. Statements about states hold in every state, reached by a run or not, unless a premise says otherwise. -/

section

open Sys2Proof Sys2Proof.Machine

/-! ### Encoding -/

/-- R70 to R76: no bit of a command's fields is dropped by its word. -/
def Obligations.DecodeEncodeRoundTrip : Prop :=
  ∀ i : Instr, i.wellFormed = true → decode (encode i) = .ok i

/-- R70 to R76, R78: a legal word has one meaning, which gives the word back. -/
def Obligations.EncodeDecodeRoundTrip : Prop :=
  ∀ (w : Word) (i : Instr), decode w = .ok i → encode i = w ∧ i.wellFormed = true

/-- R82. The word reaches the machine as the host's next action (log 1); every legal word is accepted. -/
def Obligations.IllegalWordRaisesInvalidCommand : Prop :=
  ∀ (w : Word) (s : State) (rest : List HostAction),
    s.busy = false → s.inputs = .writeReg .CMD w :: rest →
    (IllegalWord w.toNat → step s = .next (State.failed { s with inputs := rest, cmd := w } 16 w.toNat)) ∧
    (¬ IllegalWord w.toNat → ∃ i, decode w = .ok i)

/-- Words of the table of R87 and the commands they stand for. -/
def Obligations.SpecWordsDecode : Prop :=
  decode 0x00000C02 = .ok (.wrv (unsignedType 12 false)) ∧ decode 0x00051801 = .ok (.rdv (signedType 24 true)) ∧
  decode 0x00011003 = .ok (.rda (signedType 16 false)) ∧ decode 0x00000804 = .ok (.wra (unsignedType 8 false)) ∧
  decode 0x00000010 = .ok .idx ∧ decode 0x0002A020 = .ok (.hdr 0xA0 .rf64) ∧
  decode 0x00104030 = .ok (.cvt 64 16) ∧ decode 0x00000041 = .ok .add ∧ decode 0x00000052 = .ok .mue

/-! ### The host's side -/

/-- R24, R70: a write of a legal word to CMD stores the word and runs the command whole, in one step. The queue the action
stands in is the model's (log 1). -/
def Obligations.StepRunsDecodedCommand : Prop :=
  ∀ (w : Word) (i : Instr) (s : State) (rest : List HostAction),
    s.busy = false → s.inputs = .writeReg .CMD w :: rest → decode w = .ok i →
    step s = exec i { s with inputs := rest, cmd := w }

/-- R23, R25, R46: a host write of a register other than CMD. An operand register then reads as the word, its low bits
where it is narrower; STATUS loses ERRSEEN where bit 3 of the word is 1 and nothing else; any other register keeps its
value. No other register and no memory changes. -/
def Obligations.HostRegisterWrites : Prop :=
  ∀ (r : Reg) (w : Word) (s : State) (rest : List HostAction),
    s.busy = false → s.inputs = .writeReg r w :: rest → r ≠ .CMD →
    ∃ u, step s = .next u ∧
      (r ∈ [.OFF, .VAL_LO, .VAL_HI, .SRC, .DST, .CNT, .BUFLEN, .BLKALIGN, .RATE, .PAYLEN] → u.readReg r = w) ∧
      (r ∈ [.CH, .BPS] → (u.readReg r).toNat = w.toNat % 2 ^ 16) ∧
      (r = .STATUS → u.readReg r = if w.getLsbD 3 then s.readReg r &&& 7 else s.readReg r) ∧
      (r ∉ [.OFF, .VAL_LO, .VAL_HI, .SRC, .DST, .CNT, .BUFLEN, .BLKALIGN, .RATE, .PAYLEN, .CH, .BPS, .STATUS] →
        u = { s with inputs := rest }) ∧
      (∀ q, q ≠ r → u.readReg q = s.readReg q) ∧
      (u.buf = s.buf ∧ u.smp = s.smp ∧ u.desc = s.desc ∧ u.resets = s.resets ∧ u.params = s.params ∧ u.inputs = rest)

/-- R41, R42: the host writes one byte of BUF or one cell of SMP of an idle WVC. That an address outside the memory faults
is the model's choice (log 10). -/
def Obligations.HostMemoryWrites : Prop :=
  ∀ (s : State) (rest : List HostAction), s.busy = false →
    (∀ a b, s.inputs = .writeBuf a b :: rest →
      (a < s.params.bufSize → ∃ u, step s = .next u ∧ (∀ c, u.bufByte c = if c = a then b else s.bufByte c) ∧
        u = { s with buf := u.buf, inputs := rest }) ∧
      (s.params.bufSize ≤ a → step s = .fault (.noSuchBufByte a))) ∧
    (∀ i v, s.inputs = .writeSmp i v :: rest →
      (i < s.params.smpSize → ∃ u, step s = .next u ∧ (∀ j, u.smpCell j = if j = i then v else s.smpCell j) ∧
        u = { s with smp := u.smp, inputs := rest }) ∧
      (s.params.smpSize ≤ i → step s = .fault (.noSuchSmpCell i)))

/-- R46, R48, R330, R331: reset gives every register 0, at the start and whenever the host asserts it, even while BUSY is 1
(R338). Every byte of BUF, every cell of SMP and every word of DESC is then a draw of a new reset (log 3); the parameters
stay. -/
def Obligations.ResetClearsEveryRegister : Prop :=
  (∀ r, State.reset.readReg r = 0) ∧
  (∀ (s : State) (rest : List HostAction), s.inputs = .reset :: rest →
    ∃ u, step s = .next u ∧ (∀ r, u.readReg r = 0) ∧ u.resets = s.resets + 1 ∧ u.params = s.params ∧
      (∀ a, u.bufByte a = Config.bufAtReset u.resets a) ∧ (∀ i, u.smpCell i = Config.smpAtReset u.resets i) ∧
      (∀ i, u.descRecord i =
        { id := Config.descAtReset u.resets i 0, size := Config.descAtReset u.resets i 1
          start := Config.descAtReset u.resets i 2, endLo := Config.descAtReset u.resets i 3
          endHi := Config.descAtReset u.resets i 4, listFmt := Config.descAtReset u.resets i 5
          parent := Config.descAtReset u.resets i 6, flags := Config.descAtReset u.resets i 7 }))

/-- The machine stops only where the host does what R338 forbids while BUSY is 1 (a refusal) or writes a cell that R41 or
R42 does not give the memory (a fault); never in a command. Which of these stop, and how, is logged (logs 9, 10). -/
def Obligations.StepStopsOnlyForTheHost : Prop :=
  ∀ s : State,
    (∀ r, step s = .refused r ↔ r = .hostAccessWhileBusy ∧ s.busy = true ∧ ∃ a rest, s.inputs = a :: rest ∧
      ((∃ w, a = .writeReg .CMD w) ∨ (∃ q w, a = .writeReg q w ∧ q.isOperand = true) ∨ (∃ c b, a = .writeBuf c b) ∨
        (∃ i v, a = .writeSmp i v))) ∧
    (∀ f, step s = .fault f ↔ s.busy = false ∧ ∃ a rest, s.inputs = a :: rest ∧
      ((∃ c b, a = .writeBuf c b ∧ s.params.bufSize ≤ c ∧ f = .noSuchBufByte c) ∨
        (∃ i v, a = .writeSmp i v ∧ s.params.smpSize ≤ i ∧ f = .noSuchSmpCell i)))

/-! ### How commands end -/

/-- R25, R26, R27, R308, R313, R319: every command, in every state, ends, and its end writes STATUS, ERRCODE and ERRINFO. -/
def Obligations.CommandEndSetsFlags : Prop :=
  ∀ (i : Instr) (s : State), ∃ t, exec i s = .next t ∧ t.busy = false ∧ t.doneFlag = true ∧
    (t.err = true ↔ t.errCode ≠ 0) ∧ t.errSeen = (s.errSeen || t.err) ∧ (t.errCode = 0 → t.errInfo = 0) ∧ t.cmd = s.cmd

/-- R25: ERRSEEN is cleared only by reset or by a host write of STATUS with bit 3 = 1, DONE only by reset; ERR changes only
by a command or by reset. -/
def Obligations.StickyStatusBits : Prop :=
  ∀ s t : State, step s = .next t →
    (s.errSeen = true → t.errSeen = false → ∃ rest, s.inputs = .reset :: rest ∨
      ∃ w : Word, s.inputs = .writeReg .STATUS w :: rest ∧ w.getLsbD 3 = true) ∧
    (s.doneFlag = true → t.doneFlag = false → ∃ rest, s.inputs = .reset :: rest) ∧
    (t.err ≠ s.err → ∃ rest, s.inputs = .reset :: rest ∨ ∃ w, s.inputs = .writeReg .CMD w :: rest)

/-- R302: the errors a command can end with are those of its row. -/
def Obligations.CommandErrorsAsListed : Prop :=
  ∀ (i : Instr) (s t : State), exec i s = .next t → t.errCode.toNat = 0 ∨ t.errCode.toNat ∈ errorRow i

/-- R46, R47, R51: a command writes only the registers R46 names for it and only the memory extent its rule names; the
extent is computed from the operands, `bufExtent` bytes from OFF on and `smpExtent` cells from DST on. -/
def Obligations.CommandsWriteOnlyWhatTheyName : Prop :=
  ∀ (i : Instr) (s t : State), exec i s = .next t →
    (t.params = s.params ∧ t.cmd = s.cmd ∧ t.off = s.off ∧ t.src = s.src ∧ t.dst = s.dst ∧ t.cnt = s.cnt ∧
      t.bufLen = s.bufLen ∧ t.blkAlign = s.blkAlign ∧ t.ch = s.ch ∧ t.rate = s.rate ∧ t.bps = s.bps ∧
      t.payLen = s.payLen ∧ t.resets = s.resets ∧ t.inputs = s.inputs) ∧
    ((i = .idx ∨ (∃ d k, i = .hdr d k) ∨ (∃ a b, i = .cvt a b)) → t.nextOff = s.nextOff) ∧
    ((∀ n, i ≠ .rdv n) → t.valLo = s.valLo ∧ t.valHi = s.valHi) ∧
    ((i = .idx ∨ (∃ d k, i = .hdr d k) ∨ (∃ n, i = .rdv n) ∨ (∃ n, i = .wrv n)) → t.rcnt = s.rcnt) ∧
    ((i ≠ .ade ∧ i ≠ .add) → t.pred = s.pred ∧ t.sidx = s.sidx) ∧
    ((∀ d k, i ≠ .hdr d k) → t.hdr = s.hdr) ∧
    (i ≠ .idx → t.idx = s.idx ∧ ∀ j, t.descRecord j = s.descRecord j) ∧
    (∀ a, (a < s.off.toNat ∨ s.off.toNat + bufExtent i s ≤ a) → t.bufByte a = s.bufByte a) ∧
    (∀ j, (j < s.dst.toNat ∨ s.dst.toNat + smpExtent i s ≤ j) → t.smpCell j = s.smpCell j)

/-- R54, R308, R312: a command that ends in error writes no result register; unless the error is one of the element loop
(Overflow, Underflow or TableFull) it changes no memory, and WRV and HDR change none on any error. -/
def Obligations.FailedCommandKeepsResults : Prop :=
  ∀ (i : Instr) (s t : State), exec i s = .next t → t.errCode ≠ 0 →
    (t.nextOff = s.nextOff ∧ t.valLo = s.valLo ∧ t.valHi = s.valHi ∧ t.rcnt = s.rcnt ∧ t.hdr = s.hdr ∧ t.idx = s.idx) ∧
    ((t.errCode ∉ [5, 6, 19] ∨ (∃ n, i = .wrv n) ∨ (∃ d k, i = .hdr d k)) →
      t.buf = s.buf ∧ t.smp = s.smp ∧ t.desc = s.desc)

/-! ### Unit VAL -/

/-- R305: the four VAL commands raise InvalidType on a type outside the closed set, before anything else is looked at. -/
def Obligations.InvalidTypeRaisedFirst : Prop :=
  ∀ (t : NumericType) (s : State), ¬ ValidType t →
    exec (.rdv t) s = .next (s.failed 3 t.bits) ∧ exec (.wrv t) s = .next (s.failed 3 t.bits) ∧
    exec (.rda t) s = .next (s.failed 3 t.bits) ∧ exec (.wra t) s = .next (s.failed 3 t.bits)

/-- R110 with R106, R109, R111, R112, R114: RDV of a valid type. -/
def Obligations.RdvReadsValue : Prop :=
  ∀ (t : NumericType) (s : State), ValidType t →
    (s.len < s.off.toNat + nbytes t → exec (.rdv t) s = .next (s.failed 17 s.off.toNat)) ∧
    (s.off.toNat + nbytes t ≤ s.len →
      ∃ u, exec (.rdv t) s = .next u ∧ ReadAs t s s.off.toNat u.val ∧ u.nextOff.toNat = s.off.toNat + nbytes t ∧
        u = State.succeeded { s with valLo := u.valLo, valHi := u.valHi, nextOff := u.nextOff })

/-- R115 with R103, R109, R111, R113, R116: WRV of a valid type; exactly the value's bytes of BUF change. -/
def Obligations.WrvWritesValue : Prop :=
  ∀ (t : NumericType) (s : State), ValidType t →
    (s.len < s.off.toNat + nbytes t → exec (.wrv t) s = .next (s.failed 17 s.off.toNat)) ∧
    (s.off.toNat + nbytes t ≤ s.len →
      (t.isFloat = false → typeMax t < s.val.toInt → exec (.wrv t) s = .next (s.failed 5 s.off.toNat)) ∧
      (t.isFloat = false → s.val.toInt < typeMin t → exec (.wrv t) s = .next (s.failed 6 s.off.toNat)) ∧
      (Writable t s.val →
        ∃ u, exec (.wrv t) s = .next u ∧ WrittenAs t s.val (u.bytesAt s.off.toNat (nbytes t) t.bigEndian) ∧
          (∀ a, (a < s.off.toNat ∨ s.off.toNat + nbytes t ≤ a) → u.bufByte a = s.bufByte a) ∧
          u.nextOff.toNat = s.off.toNat + nbytes t ∧ u = State.succeeded { s with buf := u.buf, nextOff := u.nextOff }))

/-- R120: RDA reads CNT values, `nbytes` apart, into consecutive cells; the bounds are checked BUF first. -/
def Obligations.RdaReadsArray : Prop :=
  ∀ (t : NumericType) (s : State), ValidType t →
    (s.len < s.off.toNat + s.cnt.toNat * nbytes t → exec (.rda t) s = .next (s.failed 17 s.off.toNat)) ∧
    (s.off.toNat + s.cnt.toNat * nbytes t ≤ s.len →
      (s.params.smpSize < s.dst.toNat + s.cnt.toNat → exec (.rda t) s = .next (s.failed 17 s.dst.toNat)) ∧
      (s.dst.toNat + s.cnt.toNat ≤ s.params.smpSize →
        ∃ u, exec (.rda t) s = .next u ∧
          (∀ i, i < s.cnt.toNat → ReadAs t s (s.off.toNat + i * nbytes t) (u.smpCell (s.dst.toNat + i))) ∧
          (∀ j, (j < s.dst.toNat ∨ s.dst.toNat + s.cnt.toNat ≤ j) → u.smpCell j = s.smpCell j) ∧
          u.nextOff.toNat = s.off.toNat + s.cnt.toNat * nbytes t ∧ u.rcnt = s.cnt ∧
          u = State.succeeded { s with smp := u.smp, nextOff := u.nextOff, rcnt := u.rcnt }))

/-- R125: WRA writes CNT cells as consecutive values; the bounds are checked BUF first. -/
def Obligations.WraWritesArray : Prop :=
  ∀ (t : NumericType) (s : State), ValidType t →
    (s.len < s.off.toNat + s.cnt.toNat * nbytes t → exec (.wra t) s = .next (s.failed 17 s.off.toNat)) ∧
    (s.off.toNat + s.cnt.toNat * nbytes t ≤ s.len →
      (s.params.smpSize < s.src.toNat + s.cnt.toNat → exec (.wra t) s = .next (s.failed 17 s.src.toNat)) ∧
      (s.src.toNat + s.cnt.toNat ≤ s.params.smpSize →
        (∀ i, i < s.cnt.toNat → Writable t (s.smpCell (s.src.toNat + i))) →
        ∃ u, exec (.wra t) s = .next u ∧
          (∀ i, i < s.cnt.toNat → WrittenAs t (s.smpCell (s.src.toNat + i))
            (u.bytesAt (s.off.toNat + i * nbytes t) (nbytes t) t.bigEndian)) ∧
          (∀ a, (a < s.off.toNat ∨ s.off.toNat + s.cnt.toNat * nbytes t ≤ a) → u.bufByte a = s.bufByte a) ∧
          u.nextOff.toNat = s.off.toNat + s.cnt.toNat * nbytes t ∧ u.rcnt.toNat = s.cnt.toNat * nbytes t ∧
          u = State.succeeded { s with buf := u.buf, nextOff := u.nextOff, rcnt := u.rcnt }))

/-- R125, R126: the first cell outside the type's range ends WRA; the info is its element index, the destination extent is
unspecified and all else is unchanged. -/
def Obligations.WraRangeError : Prop :=
  ∀ (t : NumericType) (s : State) (i : Nat), ValidType t →
    s.off.toNat + s.cnt.toNat * nbytes t ≤ s.len → s.src.toNat + s.cnt.toNat ≤ s.params.smpSize → i < s.cnt.toNat →
    (∀ j, j < i → Writable t (s.smpCell (s.src.toNat + j))) → ¬ Writable t (s.smpCell (s.src.toNat + i)) →
    ∃ u, exec (.wra t) s = .next u ∧
      (∀ a, (a < s.off.toNat ∨ s.off.toNat + s.cnt.toNat * nbytes t ≤ a) → u.bufByte a = s.bufByte a) ∧
      u = State.failed { s with buf := u.buf } (if typeMax t < s.smpInt (s.src.toNat + i) then 5 else 6) i

/-- R107: both directions of the integer round trip; the unused bits of the partial byte come back cleared. -/
def Obligations.IntegerPackUnpackRoundTrip : Prop :=
  ∀ t : NumericType, ValidType t → t.isFloat = false →
    (∀ v : Int, typeMin t ≤ v → v ≤ typeMax t → unpackInt t (packInt t v) = v) ∧
    (∀ b : List Byte, b.length = nbytes t → (packInt t (unpackInt t b)).length = nbytes t ∧
      ∀ k, k < nbytes t → ((packInt t (unpackInt t b)).getD k 0).toNat =
        (b.getD k 0).toNat % 2 ^ (if (if t.bigEndian then k = 0 else k + 1 = nbytes t) then remBits t else 8))

/-- R107 at the level of commands: RDV reads back what WRV wrote, for every integer type, order and offset. -/
def Obligations.WrvThenRdvRestoresInteger : Prop :=
  ∀ (t : NumericType) (s : State), ValidType t → t.isFloat = false → s.off.toNat + nbytes t ≤ s.len →
    typeMin t ≤ s.val.toInt → s.val.toInt ≤ typeMax t →
    ∃ u w, exec (.wrv t) s = .next u ∧ u.err = false ∧ exec (.rdv t) u = .next w ∧ w.err = false ∧ w.val = s.val

/-- R109, R111, R112, R113: a float read and written back gives the same bytes, every f64 pattern included; for f16 and
f32 every pattern but a NaN, whose draw is free (R114, U3). -/
def Obligations.RdvThenWrvRestoresFloat : Prop :=
  ∀ (t : NumericType) (s : State), ValidType t → t.isFloat = true → s.off.toNat + nbytes t ≤ s.len →
    (t.bits = 64 ∨ (narrowFormat t).value (s.bytesAt s.off.toNat (nbytes t) t.bigEndian) ≠ .nan) →
    ∃ u w, exec (.rdv t) s = .next u ∧ u.err = false ∧ exec (.wrv t) u = .next w ∧ w.err = false ∧ ∀ a, w.bufByte a = s.bufByte a

/-- R15, R111, R113: the one rounding of the model is round to nearest, ties to even, in all three formats: the pattern's
magnitude is nearest to the number, of two equally near the even one, and it is infinity exactly from half a unit above
the largest finite number on. -/
def Obligations.EncodeRoundsToNearestEven : Prop :=
  ∀ f ∈ [binary16, binary32, binary64], ∀ num den : Nat, 0 < den →
    let x : ℚ := (num : ℚ) / den
    let p := f.encode num den
    p ≤ f.infinity ∧
    (p = f.infinity ↔ (2 : ℚ) ^ f.bias * (2 - 1 / 2 ^ (f.fracBits + 1)) ≤ x) ∧
    (p < f.infinity → ∀ q, q < f.infinity →
      |f.magnitude p - x| ≤ |f.magnitude q - x| ∧ (|f.magnitude p - x| = |f.magnitude q - x| → q = p ∨ p % 2 = 0))

/-! ### Unit IDX -/

/-- R141, R143, R152: a container whose chunks DESC has room for is indexed; no container of LEN bytes has more than
(LEN - 12) / 8 chunks. -/
def Obligations.IdxIndexesContainer : Prop :=
  ∀ (k : ContainerKind) (s : State), s.IsContainer k → (s.len - 12) / 8 ≤ s.params.nDesc →
    ∃ u, exec .idx s = .next u ∧ u.idx.kind = k.code ∧ u.idx.size.toNat = s.bytesAt 4 4 (k == .rifx) ∧
      u.idx.format = 0x45564157 ∧ u.idx.nDesc.toNat ≤ (s.len - 12) / 8 ∧
      (∀ j, u.idx.nDesc.toNat ≤ j → u.descRecord j = s.descRecord j) ∧
      u = State.succeeded { s with desc := u.desc, idx := u.idx }

/-- R159: the errors of the 12-byte header, in address order. -/
def Obligations.IdxHeaderErrors : Prop :=
  ∀ s : State,
    (s.len < 4 → exec .idx s = .next (s.failed 17 0)) ∧
    (4 ≤ s.len → s.leadingKind = none → exec .idx s = .next (s.failed 1 0)) ∧
    (4 ≤ s.len → s.leadingKind ≠ none → s.len < 8 → exec .idx s = .next (s.failed 17 4)) ∧
    (8 ≤ s.len → s.leadingKind ≠ none → s.len < 12 → exec .idx s = .next (s.failed 17 8)) ∧
    (12 ≤ s.len → s.leadingKind ≠ none → s.tagAt 8 ≠ 0x45564157 → exec .idx s = .next (s.failed 1 8))

/-- R144, R145, R150: every record describes a chunk header that lies in BUF, as it stands there. -/
def Obligations.IdxRecordsMatchHeaders : Prop :=
  ∀ (s u : State), exec .idx s = .next u → u.err = false → ∀ i, i < u.idx.nDesc.toNat →
    let r := u.descRecord i
    ∃ h, 12 ≤ h ∧ h + 8 ≤ s.len ∧ r.start.toNat = h + 8 ∧ r.id.toNat = s.tagAt h ∧
      r.size.toNat = s.bytesAt (h + 4) 4 (u.idx.kind == 1) ∧ r.dataEnd = h + 8 + r.size.toNat ∧
      (r.isList = true ↔ s.tagAt h = 0x5453494C) ∧
      (r.fmtValid = true → r.isList = true ∧ h + 12 ≤ s.len ∧ r.listFmt.toNat = s.tagAt (h + 8)) ∧
      (r.fmtValid = false → r.listFmt = 0) ∧
      r.depth ≤ 255 ∧ r.flags.toNat = r.isList.toNat + 2 * r.fmtValid.toNat + 2 ^ 8 * r.depth

/-- R147, R151, R155: records are in pre-order. A parent is an earlier LIST record whose range holds the child's header,
and depth counts the LISTs around a record, saturated at 255. -/
def Obligations.IdxParentBeforeChild : Prop :=
  ∀ (s u : State), exec .idx s = .next u → u.err = false →
    (∀ i j, i < j → j < u.idx.nDesc.toNat → (u.descRecord i).start.toNat + 8 ≤ (u.descRecord j).start.toNat) ∧
    (∀ i, i < u.idx.nDesc.toNat →
      let r := u.descRecord i
      (r.IsTop ∧ r.depth = 0) ∨
      (r.parent.toNat < i ∧
        let p := u.descRecord r.parent.toNat
        p.isList = true ∧ p.fmtValid = true ∧ p.start.toNat + 12 ≤ r.start.toNat ∧ r.start.toNat ≤ p.dataEnd ∧
          r.depth = min (p.depth + 1) 255))

/-- R143, R145, R146: the first top-level header stands at 12, a LIST's first child after its format tag, and every next
sibling after the chunk's data and its pad byte. -/
def Obligations.IdxNextSiblingAfterPadding : Prop :=
  ∀ (s u : State), exec .idx s = .next u → u.err = false →
    let n := u.idx.nDesc.toNat
    (0 < n → (u.descRecord 0).start.toNat = 20 ∧ (u.descRecord 0).IsTop) ∧
    (∀ p, p + 1 < n → (u.descRecord (p + 1)).parent.toNat = p →
      (u.descRecord (p + 1)).start.toNat = (u.descRecord p).start.toNat + 12) ∧
    (∀ p c, p + 1 < c → c < n → (u.descRecord c).parent.toNat = p → (u.descRecord (p + 1)).parent.toNat = p) ∧
    (∀ i j, u.NextSibling n i j → (u.descRecord j).start.toNat = (u.descRecord i).nextOffset + 8)

/-- R141, R147, R148, R149, R154: at every level the walk stops only where fewer than 8 bytes remain before the level's
bound; a LIST has its format tag, and then its children, exactly when the tag lies before the bound. -/
def Obligations.IdxWalksToEveryBound : Prop :=
  ∀ (s u : State), exec .idx s = .next u → u.err = false →
    let n := u.idx.nDesc.toNat
    (n = 0 → s.len < 20) ∧
    (∀ i, i < n → (u.descRecord i).start.toNat ≤ u.levelBound (i + 1) i) ∧
    (∀ i, i < n → (∀ j, ¬ u.NextSibling n i j) → u.levelBound (i + 1) i < (u.descRecord i).nextOffset + 8) ∧
    (∀ p, p < n → (u.descRecord p).isList = true →
      let bound := min (u.descRecord p).dataEnd (u.levelBound (p + 1) p)
      ((u.descRecord p).fmtValid = true ↔ (u.descRecord p).start.toNat + 4 ≤ bound) ∧
      ((u.descRecord p).fmtValid = true → (∀ c, c < n → (u.descRecord c).parent.toNat ≠ p) →
        bound < (u.descRecord p).start.toNat + 12))

/-- R57, R152: compared with the same machine with a DESC large enough for any container, IDX gives the same records while
they fit, and otherwise TableFull with the offset of the first header that has no record. -/
def Obligations.IdxTableFullAtFirstUnstoredChunk : Prop :=
  ∀ (k : ContainerKind) (s : State), s.IsContainer k →
    ∃ b, exec .idx { s with params := { s.params with nDesc := s.len } } = .next b ∧ b.err = false ∧
      (b.idx.nDesc.toNat ≤ s.params.nDesc →
        ∃ u, exec .idx s = .next u ∧ u.idx = b.idx ∧
          (∀ i, i < b.idx.nDesc.toNat → u.descRecord i = b.descRecord i) ∧
          u = State.succeeded { s with desc := u.desc, idx := u.idx }) ∧
      (s.params.nDesc < b.idx.nDesc.toNat →
        ∃ u, exec .idx s = .next u ∧
          u = State.failed { s with desc := u.desc } 19 ((b.descRecord s.params.nDesc).start.toNat - 8))

/-- R158: two machines with the same LEN, the same bytes below it and the same N_DESC index alike, whatever else they
hold. -/
def Obligations.IdxDependsOnBufferAlone : Prop :=
  ∀ s t : State, s.len = t.len → (∀ a, a < s.len → s.bufByte a = t.bufByte a) → s.params.nDesc = t.params.nDesc →
    ∃ u v, exec .idx s = .next u ∧ exec .idx t = .next v ∧ u.errCode = v.errCode ∧ u.errInfo = v.errInfo ∧
      (u.err = false → u.idx = v.idx ∧ ∀ i, i < u.idx.nDesc.toNat → u.descRecord i = v.descRecord i) ∧
      (∀ a, u.bufByte a = s.bufByte a)

/-! ### Unit HDR -/

/-- R172, R175, R176, R180, R181: the plain shape for the standard codes with at most two channels, the extensible shape
for the other integer and float codes or more channels. -/
def Obligations.HdrPcmFields : Prop :=
  ∀ (depth : Nat) (k : ContainerKind) (s : State),
    isIntCode depth = true ∨ depth = 64 ∨ depth = 0xA0 →
    s.ch.toNat * s.bps.toNat * s.rate.toNat < 2 ^ 32 → s.ch.toNat * s.bps.toNat < 2 ^ 16 →
    let b := if depth = 0xA0 then 32 else depth
    let byteRate := BitVec.ofNat 32 (s.ch.toNat * s.bps.toNat * s.rate.toNat)
    let bAlign := BitVec.ofNat 16 (s.ch.toNat * s.bps.toNat)
    (depth ∈ [8, 16, 24, 32, 0xA0, 64] → s.ch.toNat ≤ 2 → 36 + s.payLen.toNat + s.payLen.toNat % 2 < 2 ^ 32 →
      exec (.hdr depth k) s = .next (State.succeeded { s with
        hdr := { riffSize := 36 + s.payLen + s.payLen % 2, fmtSize := 16, aFmt := if b = 64 ∨ depth = 0xA0 then 3 else 1
                 nCh := s.ch, rate := s.rate, byteRate := byteRate, bAlign := bAlign, bits := BitVec.ofNat 16 b
                 cbSize := 0, vBits := 0, chMask := 0, subFmt0 := 0, subFmt1 := 0, subFmt2 := 0, subFmt3 := 0
                 fact := 0, factLen := 0, kind := k.code } })) ∧
    (depth ∉ [8, 16, 24, 32, 0xA0, 64] ∨ 2 < s.ch.toNat → 60 + s.payLen.toNat + s.payLen.toNat % 2 < 2 ^ 32 →
      exec (.hdr depth k) s = .next (State.succeeded { s with
        hdr := { riffSize := 60 + s.payLen + s.payLen % 2, fmtSize := 40, aFmt := 65534
                 nCh := s.ch, rate := s.rate, byteRate := byteRate, bAlign := bAlign
                 bits := BitVec.ofNat 16 (8 * ((b + 7) / 8)), cbSize := 22, vBits := BitVec.ofNat 16 b
                 chMask := if s.ch = 1 then 4 else if s.ch = 2 then 3 else if s.ch = 4 then 0x33
                   else if s.ch = 6 then 0x3F else if s.ch = 8 then 0x63F else 0
                 subFmt0 := 0x00000001, subFmt1 := 0x00100000, subFmt2 := 0xAA000080, subFmt3 := 0x719B3800
                 fact := 0, factLen := 0, kind := k.code } }))

/-- R173, R174: the two shapes with a `fact` chunk. -/
def Obligations.HdrCompressedFields : Prop :=
  ∀ (k : ContainerKind) (s : State),
    (2 * s.payLen.toNat < 2 ^ 32 →
      exec (.hdr 4 k) s = .next (State.succeeded { s with
        hdr := { riffSize := 52 + s.payLen + s.payLen % 2, fmtSize := 20, aFmt := 17, nCh := s.ch, rate := s.rate
                 byteRate := 4055, bAlign := 256, bits := 4, cbSize := 2, vBits := 505, chMask := 0
                 subFmt0 := 0, subFmt1 := 0, subFmt2 := 0, subFmt3 := 0
                 fact := 1, factLen := 2 * s.payLen, kind := k.code } })) ∧
    (∀ depth, depth = 0x81 ∨ depth = 0x82 →
      s.ch.toNat * s.bps.toNat * s.rate.toNat < 2 ^ 32 → s.ch.toNat * s.bps.toNat < 2 ^ 16 →
      52 + s.payLen.toNat + s.payLen.toNat % 2 < 2 ^ 32 →
      exec (.hdr depth k) s = .next (State.succeeded { s with
        hdr := { riffSize := 52 + s.payLen + s.payLen % 2, fmtSize := 20, aFmt := if depth = 0x81 then 6 else 7
                 nCh := s.ch, rate := s.rate
                 byteRate := BitVec.ofNat 32 (s.ch.toNat * s.bps.toNat * s.rate.toNat)
                 bAlign := BitVec.ofNat 16 (s.ch.toNat * s.bps.toNat), bits := 8, cbSize := 2, vBits := 8, chMask := 0
                 subFmt0 := 0, subFmt1 := 0, subFmt2 := 0, subFmt3 := 0
                 fact := 1, factLen := s.payLen, kind := k.code } }))

/-- R177: the overall size counts the format tag, each chunk with its header, the payload and its pad byte, and is even. -/
def Obligations.HdrSizeCountsChunks : Prop :=
  ∀ (depth : Nat) (k : ContainerKind) (s u : State), exec (.hdr depth k) s = .next u → u.err = false →
    u.hdr.riffSize.toNat = 4 + (8 + u.hdr.fmtSize.toNat) + (if u.hdr.fact = 1 then 8 + 4 else 0) + 8 +
      (s.payLen.toNat + s.payLen.toNat % 2) ∧ u.hdr.riffSize.toNat % 2 = 0

/-- R178, R306: HDR's errors. The width check goes in the order byte rate, block align, overall size, sample length; the
info is the number of the register that would overflow. -/
def Obligations.HdrErrors : Prop :=
  ∀ (depth : Nat) (k : ContainerKind) (s : State),
    (depth ≠ 4 ∧ ¬ (8 ≤ depth ∧ depth ≤ 53) ∧ depth ∉ [64, 0x81, 0x82, 0xA0] →
      exec (.hdr depth k) s = .next (s.failed 4 depth)) ∧
    ((8 ≤ depth ∧ depth ≤ 53) ∨ depth ∈ [64, 0x81, 0x82, 0xA0] →
      let bytesPerSecond := s.ch.toNat * s.bps.toNat * s.rate.toNat
      let base := if depth ∈ [0x81, 0x82] then 52 else if depth ∈ [8, 16, 24, 32, 0xA0, 64] ∧ s.ch.toNat ≤ 2 then 36 else 60
      (2 ^ 32 ≤ bytesPerSecond → exec (.hdr depth k) s = .next (s.failed 5 25)) ∧
      (bytesPerSecond < 2 ^ 32 → 2 ^ 16 ≤ s.ch.toNat * s.bps.toNat → exec (.hdr depth k) s = .next (s.failed 5 26)) ∧
      (bytesPerSecond < 2 ^ 32 → s.ch.toNat * s.bps.toNat < 2 ^ 16 →
        2 ^ 32 ≤ base + s.payLen.toNat + s.payLen.toNat % 2 → exec (.hdr depth k) s = .next (s.failed 5 20))) ∧
    (2 ^ 32 ≤ 52 + s.payLen.toNat + s.payLen.toNat % 2 → exec (.hdr 4 k) s = .next (s.failed 5 20)) ∧
    (52 + s.payLen.toNat + s.payLen.toNat % 2 < 2 ^ 32 → 2 ^ 32 ≤ 2 * s.payLen.toNat →
      exec (.hdr 4 k) s = .next (s.failed 5 36))

/-! ### Unit CVT -/

/-- R201, R306, R54: CVT checks its codes, FROM first, then the source, then the destination range; then it converts each
cell, in place or to a place that no later source cell shares. -/
def Obligations.CvtConvertsCells : Prop :=
  ∀ (a b : Nat) (s : State),
    (validForCvt a = false → exec (.cvt a b) s = .next (s.failed 4 a)) ∧
    (validForCvt a = true → validForCvt b = false → exec (.cvt a b) s = .next (s.failed 4 b)) ∧
    (validForCvt a = true → validForCvt b = true →
      (s.params.smpSize < s.src.toNat + s.cnt.toNat → exec (.cvt a b) s = .next (s.failed 17 s.src.toNat)) ∧
      (s.src.toNat + s.cnt.toNat ≤ s.params.smpSize →
        (s.params.smpSize < s.dst.toNat + s.cnt.toNat → exec (.cvt a b) s = .next (s.failed 17 s.dst.toNat)) ∧
        (s.dst.toNat + s.cnt.toNat ≤ s.params.smpSize →
          s.dst.toNat ≤ s.src.toNat ∨ s.src.toNat + s.cnt.toNat ≤ s.dst.toNat →
          ∀ c : Nat → Cell,
            (∀ i, i < s.cnt.toNat →
              cvtCell a b (Config.freeCvtCell s.serial i) i (s.smpCell (s.src.toNat + i)) = .ok (c i)) →
            ∃ u, exec (.cvt a b) s = .next u ∧ (∀ i, i < s.cnt.toNat → u.smpCell (s.dst.toNat + i) = c i) ∧
              (∀ j, (j < s.dst.toNat ∨ s.dst.toNat + s.cnt.toNat ≤ j) → u.smpCell j = s.smpCell j) ∧
              u.rcnt = s.cnt ∧ u = State.succeeded { s with smp := u.smp, rcnt := u.rcnt })))

/-- R216, R339: where the ranges overlap, element `i` converts what its source cell holds when its turn comes: the result
of an earlier element where that has been written there, else what the cell held at the start. -/
def Obligations.CvtOverlapFollowsOrder : Prop :=
  ∀ (a b : Nat) (s u : State), exec (.cvt a b) s = .next u → u.err = false → ∀ i, i < s.cnt.toNat →
    let k := s.src.toNat + i
    cvtCell a b (Config.freeCvtCell s.serial i) i
      (if s.dst.toNat ≤ k ∧ k < s.dst.toNat + i then u.smpCell k else s.smpCell k) = .ok (u.smpCell (s.dst.toNat + i))

/-- R200, R203, R205, R206, R207, R209, R215: one element on the three paths with an integer side, as the formulas of the
spec give it; `r` is the truncated integer before the output offset. -/
def Obligations.CvtScalingFormulas : Prop :=
  ∀ (a b i : Nat) (draw cell : Cell),
    let sample := intToF64 (if a = 8 then cell.toInt - 128 else cell.toInt)
    let clamped := clampUnit (f64 cell)
    (isIntCode a = true → isIntCode b = true →
      ∃ r, (fmul (fdiv sample (cvtBound a sample)) (cvtBound b sample)).trunc = some r ∧
        CvtAnswers (cvtCell a b draw i cell) b i r) ∧
    (isIntCode a = true → isFloatCode b = true → cvtCell a b draw i cell = .ok (pat64 draw
      (if sample.isPos = true ∨ sample.isNeg = true then fdiv sample (cvtBound a sample) else FVal.zero))) ∧
    (isFloatCode a = true → isIntCode b = true → f64 cell ≠ .nan →
      ∃ r, (fmul clamped (cvtBound b clamped)).trunc = some r ∧ CvtAnswers (cvtCell a b draw i cell) b i r)

/-- R205, R212: a sample in range and not above zero scales by an exact power of two, truncated toward zero. -/
def Obligations.CvtNonPositiveScalesExactly : Prop :=
  ∀ (a b i k : Nat) (draw cell : Cell), isIntCode a = true → isIntCode b = true → k ≤ 2 ^ (a - 1) →
    cell.toInt = (if a = 8 then 128 else 0) - (k : Int) →
    cvtCell a b draw i cell =
      .ok (BitVec.ofInt 64 ((if b = 8 then 128 else 0) - ((k * 2 ^ (b - 1) / 2 ^ (a - 1) : Nat) : Int)))

/-- R204, R208: F64 to F64 copies every pattern of the interval [-1, 1], zero of either sign included, and clamps the rest;
F32 as a target gives the nearest binary32 number. -/
def Obligations.CvtFloatClampsAndCopies : Prop :=
  ∀ (a i : Nat) (draw cell : Cell), isFloatCode a = true → f64 cell ≠ .nan →
    (cell.toNat % 2 ^ 63 ≤ 0x3FF0000000000000 → cvtCell a 64 draw i cell = .ok cell ∧
      ∃ c, cvtCell a 0xA0 draw i cell = .ok c ∧ SameNumber (f64 c) (rne32 (f64 cell))) ∧
    (0x3FF0000000000000 < cell.toNat % 2 ^ 63 → ∀ b, b = 64 ∨ b = 0xA0 →
      cvtCell a b draw i cell = .ok (if cell.getLsbD 63 then 0xBFF0000000000000 else 0x3FF0000000000000))

/-- R204, R207, R213: a conversion from a float code to any code completes once its ranges lie in SMP, NaN sources
included; it changes only the destination cells (R47), and every integer a number gives lies in the range of the target
code. -/
def Obligations.CvtFloatSourceNeverFails : Prop :=
  ∀ (a b : Nat) (s : State), isFloatCode a = true → validForCvt b = true →
    s.src.toNat + s.cnt.toNat ≤ s.params.smpSize → s.dst.toNat + s.cnt.toNat ≤ s.params.smpSize →
    ∃ u, exec (.cvt a b) s = .next u ∧ u = State.succeeded { s with smp := u.smp, rcnt := s.cnt } ∧
      (∀ j, (j < s.dst.toNat ∨ s.dst.toNat + s.cnt.toNat ≤ j) → u.smpCell j = s.smpCell j) ∧
      (isIntCode b = true → s.dst.toNat ≤ s.src.toNat → ∀ i, i < s.cnt.toNat →
        f64 (s.smpCell (s.src.toNat + i)) ≠ .nan →
        let r := u.smpInt (s.dst.toNat + i) - (if b = 8 then 128 else 0)
        r ≤ 2 ^ (b - 1) - 1 ∧ -2 ^ (b - 1) ≤ r)

/-- R215, R216: the first element whose integer does not fit a cell ends CVT; the info is its index, the destination extent
is unspecified and all else is unchanged. -/
def Obligations.CvtCellOverflow : Prop :=
  ∀ (a b i : Nat) (s : State) (e : Error), validForCvt a = true → validForCvt b = true →
    s.src.toNat + s.cnt.toNat ≤ s.params.smpSize → s.dst.toNat + s.cnt.toNat ≤ s.params.smpSize →
    s.dst.toNat ≤ s.src.toNat ∨ s.src.toNat + s.cnt.toNat ≤ s.dst.toNat → i < s.cnt.toNat →
    (∀ j, j < i → ∃ c, cvtCell a b (Config.freeCvtCell s.serial j) j (s.smpCell (s.src.toNat + j)) = .ok c) →
    cvtCell a b (Config.freeCvtCell s.serial i) i (s.smpCell (s.src.toNat + i)) = .error e →
    (e = overflow i ∨ e = underflow i) ∧
    ∃ u, exec (.cvt a b) s = .next u ∧
      (∀ j, (j < s.dst.toNat ∨ s.dst.toNat + s.cnt.toNat ≤ j) → u.smpCell j = s.smpCell j) ∧
      u = State.failed { s with smp := u.smp } (if e = overflow i then 5 else 6) i

/-! ### Unit ADP -/

/-- R235, R236, R237: for any state and any sample the decoder, given the encoder's code, reaches the encoder's state. -/
def Obligations.AdpcmDecoderTracksEncoder : Prop :=
  ∀ (a : AdpcmState) (x : Int), (adpcmEnc a x).1 < 16 ∧ adpcmDec a (adpcmEnc a x).1 = (adpcmEnc a x).2

/-- R40, R241: no ADE or ADD depends on the PRED and SIDX an earlier command left. That this holds of PRED and SIDX
themselves after an error too, where U6 leaves them unspecified and a machine may keep the old values, is the model's
choice: its draws do not depend on the old values (log 7). -/
def Obligations.AdpcmPassStartsFresh : Prop :=
  ∀ (s : State) (p : BitVec 17) (q : BitVec 7),
    exec .ade { s with pred := p, sidx := q } = exec .ade s ∧ exec .add { s with pred := p, sidx := q } = exec .add s

/-- R240, R54, R238, R246, R247: ADE writes one 256-byte block for each 505 samples or part of them; a block starts with its
first sample and a zero byte 3, the first block with index 0. PRED and SIDX after an error are unspecified (R308, U6). -/
def Obligations.AdeEncodesBlocks : Prop :=
  ∀ s : State,
    let n := (s.cnt.toNat + 504) / 505
    (s.len < s.off.toNat + 256 * n → ∃ u, exec .ade s = .next u ∧
      u = State.failed { s with pred := u.pred, sidx := u.sidx } 17 s.off.toNat) ∧
    (s.off.toNat + 256 * n ≤ s.len → s.params.smpSize < s.src.toNat + s.cnt.toNat → ∃ u, exec .ade s = .next u ∧
      u = State.failed { s with pred := u.pred, sidx := u.sidx } 17 s.src.toNat) ∧
    (s.off.toNat + 256 * n ≤ s.len → s.src.toNat + s.cnt.toNat ≤ s.params.smpSize →
      (∀ i, i < s.cnt.toNat → IsSample16 (s.smpInt (s.src.toNat + i))) →
      ∃ u, exec .ade s = .next u ∧
        (∀ b, b < n →
          (u.bytesAt (s.off.toNat + 256 * b) 2 false : Int) = s.smpInt (s.src.toNat + 505 * b) % 2 ^ 16 ∧
          u.bufByte (s.off.toNat + 256 * b + 3) = 0 ∧ (b = 0 → u.bufByte (s.off.toNat + 2) = 0)) ∧
        (∀ a, (a < s.off.toNat ∨ s.off.toNat + 256 * n ≤ a) → u.bufByte a = s.bufByte a) ∧
        u.nextOff.toNat = s.off.toNat + 256 * n ∧ u.rcnt.toNat = 256 * n ∧
        (s.cnt = 0 → u.pred = 0 ∧ u.sidx = 0) ∧
        u = State.succeeded { s with buf := u.buf, nextOff := u.nextOff, rcnt := u.rcnt, pred := u.pred, sidx := u.sidx })

/-- R240, R242, R243, R245: each code of a block is `enc` of its sample from the state the block's earlier samples lead to,
or 0 where there is no sample; the next block's header records the index the block ended with, and PRED and SIDX end as
the state after the last sample. -/
def Obligations.AdeCodesFollowEnc : Prop :=
  ∀ (s u : State) (b : Nat), exec .ade s = .next u → u.err = false → 505 * b < s.cnt.toNat →
    let base := s.off.toNat + 256 * b
    let x := fun k => s.smpInt (s.src.toNat + 505 * b + k)
    let state := encoderState (u.bufByte (base + 2)).toNat x
    (∀ j, j < 504 → u.codeAt (base + 4) j =
      if 505 * b + j + 1 < s.cnt.toNat then (adpcmEnc (state j) (x (j + 1))).1 else 0) ∧
    (505 * (b + 1) < s.cnt.toNat → (u.bufByte (base + 256 + 2)).toNat = (state 504).index) ∧
    (s.cnt.toNat ≤ 505 * (b + 1) → u.pred.toInt = (state (s.cnt.toNat - 505 * b - 1)).pred ∧
      u.sidx.toNat = (state (s.cnt.toNat - 505 * b - 1)).index)

/-- R250, R251, R54: ADD's argument check, bounds and completion. The premise R10 puts on the parameters keeps the sample
count in RCNT's 32 bits. -/
def Obligations.AddDecodesBlocks : Prop :=
  ∀ s : State, s.params.wf →
    let ba := if s.blkAlign = 0 then 256 else s.blkAlign.toNat
    let t := s.cnt.toNat % ba
    let n := s.cnt.toNat / ba * (1 + 2 * (ba - 4)) + (if 4 ≤ t then 1 + 2 * (t - 4) else 0)
    (ba < 4 → ∃ u, exec .add s = .next u ∧ u = State.failed { s with pred := u.pred, sidx := u.sidx } 18 ba) ∧
    (4 ≤ ba → s.len < s.off.toNat + s.cnt.toNat → ∃ u, exec .add s = .next u ∧
      u = State.failed { s with pred := u.pred, sidx := u.sidx } 17 s.off.toNat) ∧
    (4 ≤ ba → s.off.toNat + s.cnt.toNat ≤ s.len → s.params.smpSize < s.dst.toNat + n → ∃ u, exec .add s = .next u ∧
      u = State.failed { s with pred := u.pred, sidx := u.sidx } 17 s.dst.toNat) ∧
    (4 ≤ ba → s.off.toNat + s.cnt.toNat ≤ s.len → s.dst.toNat + n ≤ s.params.smpSize →
      ∃ u, exec .add s = .next u ∧
        (∀ j, (j < s.dst.toNat ∨ s.dst.toNat + n ≤ j) → u.smpCell j = s.smpCell j) ∧
        (∀ j, j < n → IsSample16 (u.smpInt (s.dst.toNat + j))) ∧
        u.nextOff.toNat = s.off.toNat + s.cnt.toNat ∧ u.rcnt.toNat = n ∧
        (s.cnt.toNat < 4 → u.pred = 0 ∧ u.sidx = 0) ∧
        u = State.succeeded { s with smp := u.smp, nextOff := u.nextOff, rcnt := u.rcnt, pred := u.pred, sidx := u.sidx })

/-- R243, R251, R252, R253: a block's first sample is its header's; each further one is `dec` of the next code, low nibble
first, from the state the earlier codes lead to. The last block that has a header leaves PRED and SIDX. -/
def Obligations.AddSamplesFollowDec : Prop :=
  ∀ (s u : State) (b : Nat), exec .add s = .next u → u.err = false →
    let ba := if s.blkAlign = 0 then 256 else s.blkAlign.toNat
    let base := s.off.toNat + b * ba
    let size := min ba (s.cnt.toNat - b * ba)
    let first := s.bytesAt base 2 false
    let seed : AdpcmState :=
      { pred := if first < 2 ^ 15 then (first : Int) else (first : Int) - 2 ^ 16
        index := min (s.bufByte (base + 2)).toNat 88 }
    4 ≤ size →
    (∀ j, j ≤ 2 * (size - 4) →
      u.smpInt (s.dst.toNat + b * (1 + 2 * (ba - 4)) + j) = (s.decoderState (base + 4) seed j).pred) ∧
    (s.cnt.toNat < (b + 1) * ba + 4 →
      u.pred.toInt = (s.decoderState (base + 4) seed (2 * (size - 4))).pred ∧
      u.sidx.toNat = (s.decoderState (base + 4) seed (2 * (size - 4))).index)

/-- R255: decoding what ADE wrote gives back, sample for sample, the values PRED took in the encoder; the first sample of
every block is exact, and ADD returns 505 samples for each block. -/
def Obligations.AdeThenAddReturnsPredictions : Prop :=
  ∀ (s u t : State), exec .ade s = .next u → u.err = false →
    t = { u with cnt := u.rcnt, blkAlign := t.blkAlign, dst := t.dst } → (t.blkAlign = 0 ∨ t.blkAlign = 256) →
    t.dst.toNat + 505 * ((s.cnt.toNat + 504) / 505) ≤ s.params.smpSize → s.params.wf →
    ∃ v, exec .add t = .next v ∧ v.err = false ∧ v.rcnt.toNat = 505 * ((s.cnt.toNat + 504) / 505) ∧
      ∀ b k, k < 505 → 505 * b + k < s.cnt.toNat →
        v.smpInt (t.dst.toNat + 505 * b + k) =
          (encoderState (u.bufByte (s.off.toNat + 256 * b + 2)).toNat
            (fun m => s.smpInt (s.src.toNat + 505 * b + m)) k).pred

/-! ### Unit CMP and the encoders' range check -/

/-- R244, R272, R290, R312: the first sample outside 16 bits ends ADE, ALE and MUE; the info is its index, the destination
extent is unspecified, PRED and SIDX are unspecified after ADE, and all else is unchanged. -/
def Obligations.EncoderRangeErrors : Prop :=
  ∀ (i : Instr) (s : State) (k : Nat), i = .ade ∨ i = .ale ∨ i = .mue →
    s.off.toNat + bufExtent i s ≤ s.len → s.src.toNat + s.cnt.toNat ≤ s.params.smpSize → k < s.cnt.toNat →
    (∀ j, j < k → IsSample16 (s.smpInt (s.src.toNat + j))) → ¬ IsSample16 (s.smpInt (s.src.toNat + k)) →
    ∃ u, exec i s = .next u ∧
      (∀ a, (a < s.off.toNat ∨ s.off.toNat + bufExtent i s ≤ a) → u.bufByte a = s.bufByte a) ∧
      (i ≠ .ade → u.pred = s.pred ∧ u.sidx = s.sidx) ∧
      u = State.failed { s with buf := u.buf, pred := u.pred, sidx := u.sidx }
        (if 32767 < s.smpInt (s.src.toNat + k) then 5 else 6) k

/-- R270, R273, R284, R54: ALE and MUE write one byte for each sample. -/
def Obligations.CompandersEncode : Prop :=
  ∀ (i : Instr) (enc : Int → Nat) (s : State), (i = .ale ∧ enc = alawEnc) ∨ (i = .mue ∧ enc = mulawEnc) →
    (s.len < s.off.toNat + s.cnt.toNat → exec i s = .next (s.failed 17 s.off.toNat)) ∧
    (s.off.toNat + s.cnt.toNat ≤ s.len → s.params.smpSize < s.src.toNat + s.cnt.toNat →
      exec i s = .next (s.failed 17 s.src.toNat)) ∧
    (s.off.toNat + s.cnt.toNat ≤ s.len → s.src.toNat + s.cnt.toNat ≤ s.params.smpSize →
      (∀ k, k < s.cnt.toNat → IsSample16 (s.smpInt (s.src.toNat + k))) →
      ∃ u, exec i s = .next u ∧
        (∀ k, k < s.cnt.toNat → (u.bufByte (s.off.toNat + k)).toNat = enc (s.smpInt (s.src.toNat + k))) ∧
        (∀ a, (a < s.off.toNat ∨ s.off.toNat + s.cnt.toNat ≤ a) → u.bufByte a = s.bufByte a) ∧
        u.nextOff.toNat = s.off.toNat + s.cnt.toNat ∧ u.rcnt = s.cnt ∧
        u = State.succeeded { s with buf := u.buf, nextOff := u.nextOff, rcnt := u.rcnt })

/-- R270, R276, R287, R54: ALD and MUD give one sample for each byte; every byte decodes. -/
def Obligations.CompandersDecode : Prop :=
  ∀ (i : Instr) (dec : Nat → Int) (s : State), (i = .ald ∧ dec = alawDec) ∨ (i = .mud ∧ dec = mulawDec) →
    (s.len < s.off.toNat + s.cnt.toNat → exec i s = .next (s.failed 17 s.off.toNat)) ∧
    (s.off.toNat + s.cnt.toNat ≤ s.len → s.params.smpSize < s.dst.toNat + s.cnt.toNat →
      exec i s = .next (s.failed 17 s.dst.toNat)) ∧
    (s.off.toNat + s.cnt.toNat ≤ s.len → s.dst.toNat + s.cnt.toNat ≤ s.params.smpSize →
      ∃ u, exec i s = .next u ∧
        (∀ k, k < s.cnt.toNat → u.smpInt (s.dst.toNat + k) = dec (s.bufByte (s.off.toNat + k)).toNat) ∧
        (∀ j, (j < s.dst.toNat ∨ s.dst.toNat + s.cnt.toNat ≤ j) → u.smpCell j = s.smpCell j) ∧
        u.nextOff.toNat = s.off.toNat + s.cnt.toNat ∧ u.rcnt = s.cnt ∧
        u = State.succeeded { s with smp := u.smp, nextOff := u.nextOff, rcnt := u.rcnt })

/-- R277, R282, R287, R288: each byte's decoded value, in the law's segments (bits 6:4 are the segment, bits 3:0 the step);
and encoding it gives the byte back, but for 0x7F in μ-law, which decodes to 0. -/
def Obligations.CompandedByteValues : Prop :=
  ∀ y : Nat, y < 256 →
    (let a := y ^^^ 0x55
     let e := a / 16 % 8
     let m := if e = 0 then 16 * (a % 16) + 8 else (2 * (a % 16) + 33) * 2 ^ (e + 2)
     alawDec y = (if 128 ≤ a then (m : Int) else -(m : Int)) ∧ alawEnc (alawDec y) = y) ∧
    (let a := 255 - y
     let m := (2 * (a % 16) + 33) * 2 ^ (a / 16 % 8 + 2) - 132
     mulawDec y = (if 128 ≤ a then -(m : Int) else (m : Int)) ∧ mulawEnc (mulawDec y) = (if y = 0x7F then 0xFF else y))

/-- R277, R288, R289: the quantization error of each law over all 16-bit samples, and A-law's equal ends. -/
def Obligations.CompandingErrorBounds : Prop :=
  ∀ x : Int, IsSample16 x →
    alawEnc x < 256 ∧ mulawEnc x < 256 ∧ |alawDec (alawEnc x) - x| ≤ 512 ∧
    (-32635 ≤ x → x ≤ 32635 → |mulawDec (mulawEnc x) - x| ≤ 512) ∧ |mulawDec (mulawEnc x) - x| ≤ 644 ∧
    alawEnc (-32768) = alawEnc (-32767)

/-! ### Invariants -/

/-- The machine after reset meets the four invariants below. -/
def Obligations.ResetMeetsInvariants : Prop :=
  State.reset.MemoriesCanonical ∧ State.reset.AdpcmInRange ∧
    (State.reset.Idle ∧ State.reset.ErrCodeKnown ∧ State.reset.StatusAgrees) ∧
    (State.reset.HeaderPrefix ∧ State.reset.KindsLegal)

/-- R41, R42, R43, R50: no step leaves a memory out of its canonical form or with a cell outside its address space. -/
def Obligations.StepKeepsMemoriesCanonical : Prop :=
  ∀ s t : State, s.MemoriesCanonical → step s = .next t → t.MemoriesCanonical

/-- R39: -32768 ≤ PRED ≤ 32767 and 0 ≤ SIDX ≤ 88 at every command boundary, after errors too (U6). -/
def Obligations.StepKeepsAdpcmRange : Prop :=
  ∀ s t : State, s.AdpcmInRange → step s = .next t → t.AdpcmInRange

/-- R25, R26, R27, R301, R304: BUSY reads 0, ERRCODE holds only codes WVC raises, and STATUS, ERRCODE and ERRINFO agree. -/
def Obligations.StepKeepsStatusAgreement : Prop :=
  ∀ s t : State, s.Idle ∧ s.ErrCodeKnown ∧ s.StatusAgrees → step s = .next t →
    t.Idle ∧ t.ErrCodeKnown ∧ t.StatusAgrees

/-- R38, R78: the header registers hold a strict prefix of the extension fields, and the kind codes stay legal. -/
def Obligations.StepKeepsHeaderPrefix : Prop :=
  ∀ s t : State, s.HeaderPrefix ∧ s.KindsLegal → step s = .next t → t.HeaderPrefix ∧ t.KindsLegal

end
end

