-- ==== Sys2Proof/Laws/Adp.lean ====
section
/-! SUPPORT. What the ADPCM functions can do: the state stays in range, and the output has the length the commands
report. -/

namespace Sys2Proof.Machine

/-- The ranges of R233. -/
def AdpcmState.InRange (a : AdpcmState) : Prop := -32768 ≤ a.pred ∧ a.pred ≤ 32767 ∧ a.index ≤ 88

theorem AdpcmState.fresh_inRange : AdpcmState.fresh.InRange := by
  simp [AdpcmState.InRange, AdpcmState.fresh]

/-- `clamp` lands between its bounds (R13). -/
theorem clampInt_bounds (v : Int) {lo hi : Int} (h : lo ≤ hi) : lo ≤ clampInt v lo hi ∧ clampInt v lo hi ≤ hi := by
  unfold clampInt; split
  · omega
  · split <;> omega

/-- Every move of the state ends in range. -/
theorem AdpcmState.move_inRange (a : AdpcmState) (down : Bool) (diff : Nat) (delta : Int) :
    (a.move down diff delta).InRange := by
  have h1 := clampInt_bounds (if down then a.pred - diff else a.pred + diff) (lo := -32768) (hi := 32767) (by omega)
  have h2 := clampInt_bounds (a.index + delta) (lo := 0) (hi := 88) (by omega)
  refine ⟨h1.1, h1.2, ?_⟩
  show (clampInt (a.index + delta) 0 88).toNat ≤ 88
  omega

theorem adpcmEnc_inRange (a : AdpcmState) (s : Int) : (adpcmEnc a s).2.InRange := AdpcmState.move_inRange ..

theorem adpcmDec_inRange (a : AdpcmState) (n : Nat) : (adpcmDec a n).InRange := AdpcmState.move_inRange ..

/-- A code is a nibble. -/
theorem adpcmEnc_lt (a : AdpcmState) (s : Int) : (adpcmEnc a s).1 < 16 := by
  simp only [adpcmEnc]
  split <;> split <;> split <;> split <;> omega

@[simp] theorem encodeData_length (n : Nat) (xs : List Int) (a : AdpcmState) : (encodeData n xs a).1.length = n := by
  induction n generalizing xs a with
  | zero => rfl
  | succ n ih =>
    match xs with
    | [] => simp [encodeData, ih]
    | [x] => simp [encodeData, ih]
    | x :: y :: xs => simp [encodeData, ih]

theorem encodeData_inRange (n : Nat) (xs : List Int) {a : AdpcmState} (h : a.InRange) :
    (encodeData n xs a).2.InRange := by
  induction n generalizing xs a with
  | zero => exact h
  | succ n ih =>
    match xs with
    | [] => exact ih [] h
    | [x] => exact ih [] (adpcmEnc_inRange a x)
    | x :: y :: xs => exact ih xs (adpcmEnc_inRange _ y)

/-- A block with a first sample has 256 bytes (R238). -/
theorem encodeBlock_length (a : AdpcmState) {xs : List Int} (h : xs ≠ []) : (encodeBlock a xs).1.length = 256 := by
  match xs with
  | [] => exact absurd rfl h
  | x :: xs => simp [encodeBlock]

/-- A pass gives whole blocks of 256 bytes (R247). -/
theorem encodeBlocks_length (xs : List Int) (a : AdpcmState) :
    (encodeBlocks ((xs.length + 504) / 505) xs a).1.length = 256 * ((xs.length + 504) / 505) := by
  generalize hn : (xs.length + 504) / 505 = n
  induction n generalizing xs a with
  | zero => rfl
  | succ n ih =>
    have hx : xs.take 505 ≠ [] := by
      intro h0
      rcases List.take_eq_nil_iff.mp h0 with h | h
      · omega
      · subst h; simp at hn
    have := ih (xs.drop 505) (encodeBlock a (xs.take 505)).2 (by simp; omega)
    simp only [encodeBlocks, List.length_append, encodeBlock_length a hx, this]
    omega

theorem encodeBlock_inRange {a : AdpcmState} (h : a.InRange) {xs : List Int}
    (hx : ∀ x ∈ xs, -32768 ≤ x ∧ x ≤ 32767) : (encodeBlock a xs).2.InRange := by
  match xs with
  | [] => exact h
  | x :: xs =>
    have := hx x (by simp)
    exact encodeData_inRange 252 xs ⟨this.1, this.2, h.2.2⟩

theorem encodeBlocks_inRange (n : Nat) {xs : List Int} {a : AdpcmState} (h : a.InRange)
    (hx : ∀ x ∈ xs, -32768 ≤ x ∧ x ≤ 32767) : (encodeBlocks n xs a).2.InRange := by
  induction n generalizing xs a with
  | zero => exact h
  | succ n ih =>
    exact ih (encodeBlock_inRange h fun x hm => hx x (List.mem_of_mem_take hm)) fun x hm =>
      hx x (List.mem_of_mem_drop hm)

@[simp] theorem decodeData_length (ys : List Byte) (a : AdpcmState) : (decodeData ys a).1.length = 2 * ys.length := by
  induction ys generalizing a with
  | nil => rfl
  | cons y ys ih => simp [decodeData, ih]; omega

theorem decodeData_inRange (ys : List Byte) {a : AdpcmState} (h : a.InRange) : (decodeData ys a).2.InRange := by
  induction ys generalizing a with
  | nil => exact h
  | cons y ys ih => exact ih (adpcmDec_inRange _ _)

/-- How many samples a block of `n` bytes gives (R250, R253). -/
theorem decodeBlock_length (bytes : List Byte) (a : AdpcmState) :
    (decodeBlock bytes a).1.length = if 4 ≤ bytes.length then 1 + 2 * (bytes.length - 4) else 0 := by
  match bytes with
  | [] => rfl
  | [_] => rfl
  | [_, _] => rfl
  | [_, _, _] => rfl
  | h0 :: h1 :: h2 :: h3 :: data => simp [decodeBlock]; omega

theorem decodeBlock_inRange (bytes : List Byte) {a : AdpcmState} (h : a.InRange) :
    (decodeBlock bytes a).2.InRange := by
  match bytes with
  | [] => exact h
  | [_] => exact h
  | [_, _] => exact h
  | [_, _, _] => exact h
  | h0 :: h1 :: h2 :: h3 :: data =>
    refine decodeData_inRange data ⟨?_, ?_, Nat.min_le_right ..⟩
    · have := BitVec.le_toInt (h1 ++ h0)
      simpa using this
    · have := BitVec.toInt_lt (x := h1 ++ h0)
      simp at this ⊢; omega

theorem decodeBlocks_inRange (ba n : Nat) (bytes : List Byte) {a : AdpcmState} (h : a.InRange) :
    (decodeBlocks ba n bytes a).2.InRange := by
  induction n generalizing bytes a with
  | zero => exact h
  | succ n ih => exact ih _ (decodeBlock_inRange _ h)

/-- How many samples a pass gives (R251). -/
theorem decodeBlocks_length {ba : Nat} (hba : 4 ≤ ba) (bytes : List Byte) (a : AdpcmState) :
    (decodeBlocks ba ((bytes.length + ba - 1) / ba) bytes a).1.length =
      bytes.length / ba * (1 + 2 * (ba - 4)) +
        (if 4 ≤ bytes.length % ba then 1 + 2 * (bytes.length % ba - 4) else 0) := by
  generalize hn : (bytes.length + ba - 1) / ba = n
  induction n generalizing bytes a with
  | zero =>
    have h0 : bytes.length = 0 := by
      have := (Nat.div_eq_zero_iff).mp hn
      omega
    simp [decodeBlocks, h0]
  | succ n ih =>
    have hpos : 1 ≤ bytes.length := by
      by_contra h
      have : (bytes.length + ba - 1) / ba = 0 := Nat.div_eq_of_lt (by omega)
      omega
    have hlen : ((bytes.drop ba).length + ba - 1) / ba = n := by
      simp only [List.length_drop]
      by_cases hle : ba ≤ bytes.length
      · have : bytes.length + ba - 1 = (bytes.length - ba + ba - 1) + ba := by omega
        rw [this, Nat.add_div_right _ (by omega)] at hn
        omega
      · have h1 : (bytes.length + ba - 1) / ba = 1 := by
          rw [Nat.div_eq_iff (by omega)]; omega
        have h2 : (bytes.length - ba + ba - 1) / ba = 0 := Nat.div_eq_of_lt (by omega)
        omega
    have := ih (bytes.drop ba) (decodeBlock (bytes.take ba) a).2 hlen
    simp only [decodeBlocks, List.length_append, decodeBlock_length, this, List.length_take, List.length_drop]
    by_cases hle : ba ≤ bytes.length
    · have hd : bytes.length / ba = (bytes.length - ba) / ba + 1 := by
        rw [Nat.div_eq_sub_div (by omega) hle]
      have hm : bytes.length % ba = (bytes.length - ba) % ba := Nat.mod_eq_sub_mod hle
      rw [hd, hm, Nat.min_eq_left hle, if_pos hba, Nat.add_mul, Nat.one_mul]
      omega
    · have h0 : bytes.length - ba = 0 := by omega
      have hlt : bytes.length < ba := by omega
      rw [h0, Nat.min_eq_right (by omega), Nat.div_eq_of_lt hlt, Nat.mod_eq_of_lt hlt]
      simp

end Sys2Proof.Machine
end

