-- ==== Sys2Proof/Laws/Idx.lean ====
section
/-! SUPPORT. What the chunk walk can do: it depends on no particular fuel once the fuel exceeds the bytes left, and it
never allocates more records than DESC has. -/

namespace Sys2Proof.Machine

/-- More fuel than bytes left gives the walk of R141, whatever the fuel. -/
theorem walk_fuel (s : State) (be : Bool) (f g cursor bound : Nat) (parent : Option Nat) (depth n : Nat)
    (hf : bound < cursor + f) (hg : bound < cursor + g) :
    walk s be f cursor bound parent depth n = walk s be g cursor bound parent depth n := by
  induction f generalizing g cursor bound parent depth n with
  | zero =>
    cases g with
    | zero => rfl
    | succ g => rw [walk, walk, if_pos (by omega)]
  | succ f ih =>
    cases g with
    | zero => rw [walk, walk, if_pos (by omega)]
    | succ g =>
      have hnext : ∀ start size, cursor + 8 ≤ start → cursor + 8 ≤ nextHeader start size := by
        intro start size h; unfold nextHeader; omega
      simp only [walk]
      by_cases hb : bound < cursor + 8
      · rw [if_pos hb, if_pos hb]
      · rw [if_neg hb, if_neg hb]
        have h1 := hnext (cursor + 8) (s.u32 be (cursor + 4)) (by omega)
        have hc : min (cursor + 8 + s.u32 be (cursor + 4)) bound ≤ bound := Nat.min_le_right ..
        rw [ih g (cursor + 8 + 4) _ _ _ _ (by omega) (by omega)]
        have hrest : ∀ m, walk s be f (nextHeader (cursor + 8) (s.u32 be (cursor + 4))) bound parent depth m =
            walk s be g (nextHeader (cursor + 8) (s.u32 be (cursor + 4))) bound parent depth m := fun m =>
          ih g _ _ _ _ _ (by omega) (by omega)
        simp only [hrest]

/-- The walk allocates at most N_DESC records (R152). -/
theorem walk_length (s : State) (be : Bool) (f cursor bound : Nat) (parent : Option Nat) (depth n : Nat)
    {rs : List DescRecord} (h : walk s be f cursor bound parent depth n = .ok rs) (hn : n ≤ s.params.nDesc) :
    n + rs.length ≤ s.params.nDesc := by
  induction f generalizing cursor bound parent depth n rs with
  | zero => cases h; simpa using hn
  | succ f ih =>
    simp only [walk] at h
    split at h
    · cases h; simpa using hn
    · split at h
      · cases h
      · split at h
        · split at h
          · cases h
          · next children hc =>
            split at h
            · cases h
            · next rest hr =>
              cases h
              have h1 := ih _ _ _ _ _ hc (by omega)
              have h2 := ih _ _ _ _ _ hr h1
              simp only [List.length_cons, List.length_append]
              omega
        · split at h
          · cases h
          · next rest hr =>
            cases h
            have h1 := ih _ _ _ _ _ hr (by omega)
            simp only [List.length_cons]
            omega

/-- The records of a whole container fit DESC. -/
theorem walkAll_length {s : State} {be : Bool} {rs : List DescRecord} (h : s.walkAll be = .ok rs) :
    rs.length ≤ s.params.nDesc := by
  have := walk_length s be _ _ _ _ _ _ h (Nat.zero_le _)
  omega

/-- A walk that ends in error found the table full (R152). -/
theorem walk_error (s : State) (be : Bool) (f cursor bound : Nat) (parent : Option Nat) (depth n : Nat) {e : Error}
    (h : walk s be f cursor bound parent depth n = .error e) :
    ∃ c, e = tableFull c ∧ cursor ≤ c ∧ c + 8 ≤ bound := by
  induction f generalizing cursor bound parent depth n e with
  | zero => cases h
  | succ f ih =>
    simp only [walk] at h
    split at h
    · cases h
    · next hb =>
      split at h
      · cases h; exact ⟨cursor, rfl, by omega, by omega⟩
      · have hstep : ∀ m : Nat,
            walk s be f (nextHeader (cursor + 8) (s.u32 be (cursor + 4))) bound parent depth m = .error e →
              ∃ c, e = tableFull c ∧ cursor ≤ c ∧ c + 8 ≤ bound := fun m hm => by
          obtain ⟨c, he, h1, h2⟩ := ih _ _ _ _ _ hm
          exact ⟨c, he, by unfold nextHeader at h1; omega, h2⟩
        split at h
        · split at h
          · next hc =>
            cases h
            obtain ⟨c, he, h1, h2⟩ := ih _ _ _ _ _ hc
            exact ⟨c, he, by omega, by omega⟩
          · split at h
            · next hr => cases h; exact hstep _ hr
            · cases h
        · split at h
          · next hr => cases h; exact hstep _ hr
          · cases h

/-- What the header reads can answer (R159): the three errors of R302 that IDX shares with no walk. -/
theorem containerHeader_error {s : State} {e : Error} (h : s.containerHeader = .error e) :
    e = outOfBounds 0 ∨ e = unsupportedContainer 0 ∨ e = outOfBounds 4 ∨ e = outOfBounds 8 ∨
      e = unsupportedContainer 8 := by
  unfold State.containerHeader State.memRead at h
  split at h
  · next h1 => split at h1 <;> cases h1; cases h; simp [outOfBounds]
  · split at h
    · cases h; simp
    · split at h
      · next h1 => split at h1 <;> cases h1; cases h; simp [outOfBounds]
      · split at h
        · next h1 => split at h1 <;> cases h1; cases h; simp [outOfBounds]
        · split at h
          · cases h
          · cases h; simp

end Sys2Proof.Machine
end

