-- ==== Sys2Proof/Laws/Operands.lean ====
section
/-! SUPPORT. What the range checks, the element loop and the value codec's byte lists can do. -/

namespace Sys2Proof.Machine

/-! ### The element loop -/

section
variable {α : Type} {f : Nat → Except Error α}

/-- A loop that ends well has run every element. -/
theorem collect_ok {n i : Nat} {xs : List α} (h : collect f n i = .ok xs) :
    xs.length = n ∧ ∀ k (hk : k < xs.length), f (i + k) = .ok xs[k] := by
  induction n generalizing i xs with
  | zero => simp only [collect, Except.ok.injEq] at h; subst h; simp
  | succ n ih =>
    rw [collect] at h
    split at h
    · cases h
    · next x hx =>
      split at h
      · cases h
      · next ys hys =>
        simp only [Except.ok.injEq] at h
        subst h
        obtain ⟨hl, he⟩ := ih hys
        refine ⟨by simp [hl], fun k hk => ?_⟩
        cases k with
        | zero => simpa using hx
        | succ k =>
          have := he k (by simpa using hk)
          simpa [Nat.add_assoc, Nat.add_comm 1 k] using this

/-- A loop over elements that are all well ends well. -/
theorem collect_complete {n i : Nat} (h : ∀ k < n, ∃ x, f (i + k) = .ok x) : ∃ xs, collect f n i = .ok xs := by
  induction n generalizing i with
  | zero => exact ⟨[], rfl⟩
  | succ n ih =>
    obtain ⟨x, hx⟩ := h 0 (by omega)
    obtain ⟨xs, hxs⟩ := ih (i := i + 1) fun k hk => by
      have := h (k + 1) (by omega)
      rwa [show i + (k + 1) = i + 1 + k by omega] at this
    rw [Nat.add_zero] at hx
    exact ⟨x :: xs, by simp [collect, hx, hxs]⟩

/-- A loop ends in the error of its first failing element. -/
theorem collect_error {n i : Nat} {e : Error} (h : collect f n i = .error e) :
    ∃ k < n, f (i + k) = .error e ∧ ∀ j < k, ∃ x, f (i + j) = .ok x := by
  induction n generalizing i with
  | zero => cases h
  | succ n ih =>
    rw [collect] at h
    split at h
    · next e' he =>
      cases h
      exact ⟨0, by omega, by simpa using he, by simp⟩
    · next x hx =>
      split at h
      · next e' he =>
        cases h
        obtain ⟨k, hk, hf, hj⟩ := ih he
        refine ⟨k + 1, by omega, by rwa [show i + (k + 1) = i + 1 + k by omega], fun j hjk => ?_⟩
        cases j with
        | zero => exact ⟨x, by simpa using hx⟩
        | succ j =>
          have := hj j (by omega)
          rwa [show i + 1 + j = i + (j + 1) by omega] at this
      · cases h

end

/-! ### Range checks -/

/-- `checkRange` passes a value in range, unchanged. -/
theorem checkRange_ok {t : NumericType} {v w : Int} {i : Nat} :
    checkRange t v i = .ok w ↔ w = v ∧ typeMin t ≤ v ∧ v ≤ typeMax t := by
  unfold checkRange
  split
  · simp; omega
  · split
    · simp; omega
    · simp only [Except.ok.injEq]; constructor <;> intro h <;> omega

/-- `checkRange` raises Overflow above the maximum, Underflow below the minimum (R116). -/
theorem checkRange_error {t : NumericType} {v : Int} {i : Nat} {e : Error} (h : checkRange t v i = .error e) :
    (typeMax t < v ∧ e = overflow i) ∨ (v ≤ typeMax t ∧ v < typeMin t ∧ e = underflow i) := by
  unfold checkRange at h
  split at h
  · next h1 => cases h; exact .inl ⟨h1, rfl⟩
  · next h1 =>
    split at h
    · next h2 => cases h; exact .inr ⟨by omega, h2, rfl⟩
    · cases h

/-- `checkSample16` passes a 16-bit sample, unchanged. -/
theorem checkSample16_ok {v w : Int} {i : Nat} :
    checkSample16 v i = .ok w ↔ w = v ∧ -32768 ≤ v ∧ v ≤ 32767 := by
  unfold checkSample16
  split
  · simp; omega
  · split
    · simp; omega
    · simp only [Except.ok.injEq]; constructor <;> intro h <;> omega

/-- `checkSample16` raises Overflow above 32767, Underflow below -32768 (R244, R272). -/
theorem checkSample16_error {v : Int} {i : Nat} {e : Error} (h : checkSample16 v i = .error e) :
    (32767 < v ∧ e = overflow i) ∨ (v < -32768 ∧ e = underflow i) := by
  unfold checkSample16 at h
  split at h
  · next h1 => cases h; exact .inl ⟨h1, rfl⟩
  · split at h
    · next h2 => cases h; exact .inr ⟨h2, rfl⟩
    · cases h

/-- What `samples16` gives: one 16-bit sample for each of the CNT cells from SRC on. -/
theorem samples16_ok {s : State} {xs : List Int} (h : s.samples16 = .ok xs) :
    xs.length = s.cnt.toNat ∧ ∀ k (hk : k < xs.length),
      xs[k] = s.smpInt (s.src.toNat + k) ∧ -32768 ≤ xs[k] ∧ xs[k] ≤ 32767 := by
  obtain ⟨hl, he⟩ := collect_ok h
  refine ⟨hl, fun k hk => ?_⟩
  have := checkSample16_ok.mp (he k hk)
  simp only [Nat.zero_add] at this
  omega

/-! ### Byte lists -/

@[simp] theorem leBytes_length (n u : Nat) : (leBytes n u).length = n := by simp [leBytes]

@[simp] theorem inOrder_length (t : NumericType) (l : List Byte) : (inOrder t l).length = l.length := by
  unfold inOrder; split <;> simp

/-- Between the two orders and back. -/
@[simp] theorem inOrder_inOrder (t : NumericType) (l : List Byte) : inOrder t (inOrder t l) = l := by
  unfold inOrder; split <;> simp

@[simp] theorem packInt_length (t : NumericType) (v : Int) : (packInt t v).length = nbytes t := by simp [packInt]

@[simp] theorem packPattern_length (t : NumericType) (p : Nat) : (packPattern t p).length = nbytes t := by
  simp [packPattern]

@[simp] theorem packFloat_length (t : NumericType) (raw : BitVec 32) (v : Cell) :
    (packFloat t raw v).length = nbytes t := by
  unfold packFloat; split
  · simp
  · split <;> simp

/-- What `writeValue` gives has the type's width. -/
theorem writeValue_length {t : NumericType} {raw : BitVec 32} {v : Cell} {i : Nat} {l : List Byte}
    (h : writeValue t raw v i = .ok l) : l.length = nbytes t := by
  unfold writeValue at h
  split at h
  · cases h; simp
  · split at h
    · cases h
    · cases h; simp

/-- `leNat` of `n` bytes is below 256^n. -/
theorem leNat_lt (l : List Byte) : leNat l < 256 ^ l.length := by
  induction l with
  | nil => simp [leNat]
  | cons b l ih =>
    have := b.isLt
    simp only [leNat, List.length_cons, Nat.pow_succ]
    omega

/-- The low byte first, then the rest. -/
theorem leBytes_succ (n u : Nat) : leBytes (n + 1) u = BitVec.ofNat 8 u :: leBytes n (u / 256) := by
  simp only [leBytes, List.range_succ_eq_map, List.map_cons, List.map_map]
  congr 1
  apply List.map_congr_left
  intro k _
  simp only [Function.comp_apply, Nat.shiftRight_eq_div_pow]
  rw [Nat.div_div_eq_div_mul, show 8 * Nat.succ k = 8 + 8 * k by omega, Nat.pow_add]

/-- The number rebuilt from its `n` low bytes. -/
theorem leNat_leBytes (n u : Nat) : leNat (leBytes n u) = u % 256 ^ n := by
  induction n generalizing u with
  | zero => simp [leBytes, leNat, Nat.mod_one]
  | succ n ih =>
    rw [leBytes_succ, leNat, ih, BitVec.toNat_ofNat, show 256 ^ (n + 1) = 256 * 256 ^ n from Nat.pow_succ', Nat.mod_mul]

end Sys2Proof.Machine
end

