-- ==== Sys2Proof/Laws/Memory.lean ====
section
/-! SUPPORT. The laws of a memory: a read after a write to the same address gives what was written, a write leaves every
other address alone, and every write keeps the canonical form and the capacity. -/

namespace Sys2Proof.Machine

section
variable {α : Type}

/-- A read after a write of one address. -/
theorem Memory.lookup_store (m : Memory α) (a b : Nat) (v : α) :
    Memory.lookup (Memory.store m a v) b = if b = a then some v else Memory.lookup m b := by
  induction m with
  | nil => simp [Memory.store, Memory.lookup, eq_comm]
  | cons p m ih =>
    obtain ⟨k, u⟩ := p
    simp only [Memory.store]
    split
    · simp [Memory.lookup, eq_comm]
    · split
      · next h => subst h; by_cases hb : a = b <;> simp [Memory.lookup, hb, eq_comm]
      · next h1 h2 =>
        simp only [Memory.lookup, ih]
        by_cases hk : k = b
        · have : b ≠ a := by omega
          simp [hk, this]
        · simp [hk]

/-- A read after a write of consecutive addresses. -/
theorem Memory.lookup_storeList (m : Memory α) (a b : Nat) (vs : List α) :
    Memory.lookup (Memory.storeList m a vs) b =
      if a ≤ b ∧ b < a + vs.length then vs[b - a]? else Memory.lookup m b := by
  induction vs generalizing m a with
  | nil =>
    have : ¬ (a ≤ b ∧ b < a + ([] : List α).length) := by simp
    rw [if_neg this]; rfl
  | cons v vs ih =>
    rw [Memory.storeList, ih, Memory.lookup_store]
    simp only [List.length_cons]
    by_cases hb : b = a
    · subst hb
      rw [if_neg (by omega), if_pos rfl, if_pos (by omega)]
      simp
    · by_cases hin : a ≤ b ∧ b < a + (vs.length + 1)
      · rw [if_pos (by omega), if_pos hin]
        have : b - a = (b - (a + 1)) + 1 := by omega
        rw [this]; rfl
      · rw [if_neg (by omega), if_neg hin, if_neg hb]

/-- A write outside an address leaves it alone. -/
theorem Memory.lookup_storeList_outside (m : Memory α) (a b : Nat) (vs : List α) (h : b < a ∨ a + vs.length ≤ b) :
    Memory.lookup (Memory.storeList m a vs) b = Memory.lookup m b := by
  rw [Memory.lookup_storeList, if_neg (by omega)]

/-- What a write stored at the `k`-th address. -/
theorem Memory.lookup_storeList_inside (m : Memory α) (a k : Nat) (vs : List α) (h : k < vs.length) :
    Memory.lookup (Memory.storeList m a vs) (a + k) = some vs[k] := by
  rw [Memory.lookup_storeList, if_pos (by omega)]
  simp [h]

/-- The addresses a write of one address can list. -/
theorem Memory.mem_store {m : Memory α} {a : Nat} {v : α} {p : Nat × α} (h : p ∈ Memory.store m a v) :
    p = (a, v) ∨ p ∈ m := by
  induction m with
  | nil => simpa [Memory.store] using h
  | cons q m ih =>
    obtain ⟨k, u⟩ := q
    simp only [Memory.store] at h
    split at h
    · simpa using h
    · split at h
      · rcases List.mem_cons.mp h with h | h
        · exact .inl h
        · exact .inr (List.mem_cons_of_mem _ h)
      · rcases List.mem_cons.mp h with h | h
        · exact .inr (by simp [h])
        · exact (ih h).imp id (List.mem_cons_of_mem _)

/-- Writing one address keeps the canonical form. -/
theorem Memory.wf_store {m : Memory α} (h : Memory.wf m) (a : Nat) (v : α) : Memory.wf (Memory.store m a v) := by
  induction m with
  | nil => simp [Memory.store]
  | cons p m ih =>
    obtain ⟨k, u⟩ := p
    have ⟨hk, hm⟩ := List.pairwise_cons.mp h
    simp only [Memory.store]
    split
    · next hlt =>
      refine List.pairwise_cons.mpr ⟨fun q hq => ?_, h⟩
      rcases List.mem_cons.mp hq with rfl | hq
      · exact hlt
      · exact Nat.lt_trans hlt (hk q hq)
    · split
      · next heq =>
        subst heq
        exact List.pairwise_cons.mpr ⟨hk, hm⟩
      · refine List.pairwise_cons.mpr ⟨fun q hq => ?_, ih hm⟩
        rcases Memory.mem_store hq with rfl | hq
        · show k < a; omega
        · exact hk q hq

/-- Writing consecutive addresses keeps the canonical form. -/
theorem Memory.wf_storeList {m : Memory α} (h : Memory.wf m) (a : Nat) (vs : List α) :
    Memory.wf (Memory.storeList m a vs) := by
  induction vs generalizing m a with
  | nil => exact h
  | cons v vs ih => exact ih (Memory.wf_store h a v) (a + 1)

/-- Writing one address below the capacity keeps every listed address below it. -/
theorem Memory.below_store {m : Memory α} {size : Nat} (h : Memory.below m size) {a : Nat} (ha : a < size) (v : α) :
    Memory.below (Memory.store m a v) size := by
  intro p hp
  rcases Memory.mem_store hp with rfl | hp
  · exact ha
  · exact h p hp

/-- Writing consecutive addresses below the capacity keeps every listed address below it. -/
theorem Memory.below_storeList {m : Memory α} {size : Nat} (h : Memory.below m size) (a : Nat) (vs : List α)
    (ha : a + vs.length ≤ size) : Memory.below (Memory.storeList m a vs) size := by
  induction vs generalizing m a with
  | nil => exact h
  | cons v vs ih =>
    simp only [List.length_cons] at ha
    exact ih (Memory.below_store h (by omega) v) (a + 1) (by omega)

end

end Sys2Proof.Machine
end

