-- ==== Sys2Proof/Laws/State.lean ====
section
/-! SUPPORT. What each named update of the state leaves in each field: one lemma per field per update, so that no later
proof unfolds an update. -/

namespace Sys2Proof.Machine

section
variable (s : State)

/-! ### `State.raised` -/

@[simp] theorem State.raised_params (e : Error) : (s.raised e).params = s.params := rfl
@[simp] theorem State.raised_cmd (e : Error) : (s.raised e).cmd = s.cmd := rfl
@[simp] theorem State.raised_status (e : Error) : (s.raised e).status = statusRaised := rfl
@[simp] theorem State.raised_errCode (e : Error) : (s.raised e).errCode = e.kind.code := rfl
@[simp] theorem State.raised_errInfo (e : Error) : (s.raised e).errInfo = BitVec.ofNat 32 e.info := rfl
@[simp] theorem State.raised_off (e : Error) : (s.raised e).off = s.off := rfl
@[simp] theorem State.raised_nextOff (e : Error) : (s.raised e).nextOff = s.nextOff := rfl
@[simp] theorem State.raised_valLo (e : Error) : (s.raised e).valLo = s.valLo := rfl
@[simp] theorem State.raised_valHi (e : Error) : (s.raised e).valHi = s.valHi := rfl
@[simp] theorem State.raised_src (e : Error) : (s.raised e).src = s.src := rfl
@[simp] theorem State.raised_dst (e : Error) : (s.raised e).dst = s.dst := rfl
@[simp] theorem State.raised_cnt (e : Error) : (s.raised e).cnt = s.cnt := rfl
@[simp] theorem State.raised_rcnt (e : Error) : (s.raised e).rcnt = s.rcnt := rfl
@[simp] theorem State.raised_bufLen (e : Error) : (s.raised e).bufLen = s.bufLen := rfl
@[simp] theorem State.raised_blkAlign (e : Error) : (s.raised e).blkAlign = s.blkAlign := rfl
@[simp] theorem State.raised_ch (e : Error) : (s.raised e).ch = s.ch := rfl
@[simp] theorem State.raised_rate (e : Error) : (s.raised e).rate = s.rate := rfl
@[simp] theorem State.raised_bps (e : Error) : (s.raised e).bps = s.bps := rfl
@[simp] theorem State.raised_payLen (e : Error) : (s.raised e).payLen = s.payLen := rfl
@[simp] theorem State.raised_pred (e : Error) : (s.raised e).pred = s.pred := rfl
@[simp] theorem State.raised_sidx (e : Error) : (s.raised e).sidx = s.sidx := rfl
@[simp] theorem State.raised_hdr (e : Error) : (s.raised e).hdr = s.hdr := rfl
@[simp] theorem State.raised_idx (e : Error) : (s.raised e).idx = s.idx := rfl
@[simp] theorem State.raised_buf (e : Error) : (s.raised e).buf = s.buf := rfl
@[simp] theorem State.raised_smp (e : Error) : (s.raised e).smp = s.smp := rfl
@[simp] theorem State.raised_desc (e : Error) : (s.raised e).desc = s.desc := rfl
@[simp] theorem State.raised_resets (e : Error) : (s.raised e).resets = s.resets := rfl
@[simp] theorem State.raised_serial (e : Error) : (s.raised e).serial = s.serial + 1 := rfl
@[simp] theorem State.raised_inputs (e : Error) : (s.raised e).inputs = s.inputs := rfl

/-! ### `State.completed` -/

@[simp] theorem State.completed_params : (s.completed).params = s.params := rfl
@[simp] theorem State.completed_cmd : (s.completed).cmd = s.cmd := rfl
@[simp] theorem State.completed_status : (s.completed).status = statusDone s.status := rfl
@[simp] theorem State.completed_errCode : (s.completed).errCode = 0 := rfl
@[simp] theorem State.completed_errInfo : (s.completed).errInfo = 0 := rfl
@[simp] theorem State.completed_off : (s.completed).off = s.off := rfl
@[simp] theorem State.completed_nextOff : (s.completed).nextOff = s.nextOff := rfl
@[simp] theorem State.completed_valLo : (s.completed).valLo = s.valLo := rfl
@[simp] theorem State.completed_valHi : (s.completed).valHi = s.valHi := rfl
@[simp] theorem State.completed_src : (s.completed).src = s.src := rfl
@[simp] theorem State.completed_dst : (s.completed).dst = s.dst := rfl
@[simp] theorem State.completed_cnt : (s.completed).cnt = s.cnt := rfl
@[simp] theorem State.completed_rcnt : (s.completed).rcnt = s.rcnt := rfl
@[simp] theorem State.completed_bufLen : (s.completed).bufLen = s.bufLen := rfl
@[simp] theorem State.completed_blkAlign : (s.completed).blkAlign = s.blkAlign := rfl
@[simp] theorem State.completed_ch : (s.completed).ch = s.ch := rfl
@[simp] theorem State.completed_rate : (s.completed).rate = s.rate := rfl
@[simp] theorem State.completed_bps : (s.completed).bps = s.bps := rfl
@[simp] theorem State.completed_payLen : (s.completed).payLen = s.payLen := rfl
@[simp] theorem State.completed_pred : (s.completed).pred = s.pred := rfl
@[simp] theorem State.completed_sidx : (s.completed).sidx = s.sidx := rfl
@[simp] theorem State.completed_hdr : (s.completed).hdr = s.hdr := rfl
@[simp] theorem State.completed_idx : (s.completed).idx = s.idx := rfl
@[simp] theorem State.completed_buf : (s.completed).buf = s.buf := rfl
@[simp] theorem State.completed_smp : (s.completed).smp = s.smp := rfl
@[simp] theorem State.completed_desc : (s.completed).desc = s.desc := rfl
@[simp] theorem State.completed_resets : (s.completed).resets = s.resets := rfl
@[simp] theorem State.completed_serial : (s.completed).serial = s.serial + 1 := rfl
@[simp] theorem State.completed_inputs : (s.completed).inputs = s.inputs := rfl

/-! ### `State.setVal` -/

@[simp] theorem State.setVal_params (v : BitVec 64) : (s.setVal v).params = s.params := rfl
@[simp] theorem State.setVal_cmd (v : BitVec 64) : (s.setVal v).cmd = s.cmd := rfl
@[simp] theorem State.setVal_status (v : BitVec 64) : (s.setVal v).status = s.status := rfl
@[simp] theorem State.setVal_errCode (v : BitVec 64) : (s.setVal v).errCode = s.errCode := rfl
@[simp] theorem State.setVal_errInfo (v : BitVec 64) : (s.setVal v).errInfo = s.errInfo := rfl
@[simp] theorem State.setVal_off (v : BitVec 64) : (s.setVal v).off = s.off := rfl
@[simp] theorem State.setVal_nextOff (v : BitVec 64) : (s.setVal v).nextOff = s.nextOff := rfl
@[simp] theorem State.setVal_valLo (v : BitVec 64) : (s.setVal v).valLo = v.extractLsb' 0 32 := rfl
@[simp] theorem State.setVal_valHi (v : BitVec 64) : (s.setVal v).valHi = v.extractLsb' 32 32 := rfl
@[simp] theorem State.setVal_src (v : BitVec 64) : (s.setVal v).src = s.src := rfl
@[simp] theorem State.setVal_dst (v : BitVec 64) : (s.setVal v).dst = s.dst := rfl
@[simp] theorem State.setVal_cnt (v : BitVec 64) : (s.setVal v).cnt = s.cnt := rfl
@[simp] theorem State.setVal_rcnt (v : BitVec 64) : (s.setVal v).rcnt = s.rcnt := rfl
@[simp] theorem State.setVal_bufLen (v : BitVec 64) : (s.setVal v).bufLen = s.bufLen := rfl
@[simp] theorem State.setVal_blkAlign (v : BitVec 64) : (s.setVal v).blkAlign = s.blkAlign := rfl
@[simp] theorem State.setVal_ch (v : BitVec 64) : (s.setVal v).ch = s.ch := rfl
@[simp] theorem State.setVal_rate (v : BitVec 64) : (s.setVal v).rate = s.rate := rfl
@[simp] theorem State.setVal_bps (v : BitVec 64) : (s.setVal v).bps = s.bps := rfl
@[simp] theorem State.setVal_payLen (v : BitVec 64) : (s.setVal v).payLen = s.payLen := rfl
@[simp] theorem State.setVal_pred (v : BitVec 64) : (s.setVal v).pred = s.pred := rfl
@[simp] theorem State.setVal_sidx (v : BitVec 64) : (s.setVal v).sidx = s.sidx := rfl
@[simp] theorem State.setVal_hdr (v : BitVec 64) : (s.setVal v).hdr = s.hdr := rfl
@[simp] theorem State.setVal_idx (v : BitVec 64) : (s.setVal v).idx = s.idx := rfl
@[simp] theorem State.setVal_buf (v : BitVec 64) : (s.setVal v).buf = s.buf := rfl
@[simp] theorem State.setVal_smp (v : BitVec 64) : (s.setVal v).smp = s.smp := rfl
@[simp] theorem State.setVal_desc (v : BitVec 64) : (s.setVal v).desc = s.desc := rfl
@[simp] theorem State.setVal_resets (v : BitVec 64) : (s.setVal v).resets = s.resets := rfl
@[simp] theorem State.setVal_serial (v : BitVec 64) : (s.setVal v).serial = s.serial := rfl
@[simp] theorem State.setVal_inputs (v : BitVec 64) : (s.setVal v).inputs = s.inputs := rfl

/-! ### `State.setNext` -/

@[simp] theorem State.setNext_params (n : Nat) : (s.setNext n).params = s.params := rfl
@[simp] theorem State.setNext_cmd (n : Nat) : (s.setNext n).cmd = s.cmd := rfl
@[simp] theorem State.setNext_status (n : Nat) : (s.setNext n).status = s.status := rfl
@[simp] theorem State.setNext_errCode (n : Nat) : (s.setNext n).errCode = s.errCode := rfl
@[simp] theorem State.setNext_errInfo (n : Nat) : (s.setNext n).errInfo = s.errInfo := rfl
@[simp] theorem State.setNext_off (n : Nat) : (s.setNext n).off = s.off := rfl
@[simp] theorem State.setNext_nextOff (n : Nat) : (s.setNext n).nextOff = BitVec.ofNat 32 n := rfl
@[simp] theorem State.setNext_valLo (n : Nat) : (s.setNext n).valLo = s.valLo := rfl
@[simp] theorem State.setNext_valHi (n : Nat) : (s.setNext n).valHi = s.valHi := rfl
@[simp] theorem State.setNext_src (n : Nat) : (s.setNext n).src = s.src := rfl
@[simp] theorem State.setNext_dst (n : Nat) : (s.setNext n).dst = s.dst := rfl
@[simp] theorem State.setNext_cnt (n : Nat) : (s.setNext n).cnt = s.cnt := rfl
@[simp] theorem State.setNext_rcnt (n : Nat) : (s.setNext n).rcnt = s.rcnt := rfl
@[simp] theorem State.setNext_bufLen (n : Nat) : (s.setNext n).bufLen = s.bufLen := rfl
@[simp] theorem State.setNext_blkAlign (n : Nat) : (s.setNext n).blkAlign = s.blkAlign := rfl
@[simp] theorem State.setNext_ch (n : Nat) : (s.setNext n).ch = s.ch := rfl
@[simp] theorem State.setNext_rate (n : Nat) : (s.setNext n).rate = s.rate := rfl
@[simp] theorem State.setNext_bps (n : Nat) : (s.setNext n).bps = s.bps := rfl
@[simp] theorem State.setNext_payLen (n : Nat) : (s.setNext n).payLen = s.payLen := rfl
@[simp] theorem State.setNext_pred (n : Nat) : (s.setNext n).pred = s.pred := rfl
@[simp] theorem State.setNext_sidx (n : Nat) : (s.setNext n).sidx = s.sidx := rfl
@[simp] theorem State.setNext_hdr (n : Nat) : (s.setNext n).hdr = s.hdr := rfl
@[simp] theorem State.setNext_idx (n : Nat) : (s.setNext n).idx = s.idx := rfl
@[simp] theorem State.setNext_buf (n : Nat) : (s.setNext n).buf = s.buf := rfl
@[simp] theorem State.setNext_smp (n : Nat) : (s.setNext n).smp = s.smp := rfl
@[simp] theorem State.setNext_desc (n : Nat) : (s.setNext n).desc = s.desc := rfl
@[simp] theorem State.setNext_resets (n : Nat) : (s.setNext n).resets = s.resets := rfl
@[simp] theorem State.setNext_serial (n : Nat) : (s.setNext n).serial = s.serial := rfl
@[simp] theorem State.setNext_inputs (n : Nat) : (s.setNext n).inputs = s.inputs := rfl

/-! ### `State.setRcnt` -/

@[simp] theorem State.setRcnt_params (n : Nat) : (s.setRcnt n).params = s.params := rfl
@[simp] theorem State.setRcnt_cmd (n : Nat) : (s.setRcnt n).cmd = s.cmd := rfl
@[simp] theorem State.setRcnt_status (n : Nat) : (s.setRcnt n).status = s.status := rfl
@[simp] theorem State.setRcnt_errCode (n : Nat) : (s.setRcnt n).errCode = s.errCode := rfl
@[simp] theorem State.setRcnt_errInfo (n : Nat) : (s.setRcnt n).errInfo = s.errInfo := rfl
@[simp] theorem State.setRcnt_off (n : Nat) : (s.setRcnt n).off = s.off := rfl
@[simp] theorem State.setRcnt_nextOff (n : Nat) : (s.setRcnt n).nextOff = s.nextOff := rfl
@[simp] theorem State.setRcnt_valLo (n : Nat) : (s.setRcnt n).valLo = s.valLo := rfl
@[simp] theorem State.setRcnt_valHi (n : Nat) : (s.setRcnt n).valHi = s.valHi := rfl
@[simp] theorem State.setRcnt_src (n : Nat) : (s.setRcnt n).src = s.src := rfl
@[simp] theorem State.setRcnt_dst (n : Nat) : (s.setRcnt n).dst = s.dst := rfl
@[simp] theorem State.setRcnt_cnt (n : Nat) : (s.setRcnt n).cnt = s.cnt := rfl
@[simp] theorem State.setRcnt_rcnt (n : Nat) : (s.setRcnt n).rcnt = BitVec.ofNat 32 n := rfl
@[simp] theorem State.setRcnt_bufLen (n : Nat) : (s.setRcnt n).bufLen = s.bufLen := rfl
@[simp] theorem State.setRcnt_blkAlign (n : Nat) : (s.setRcnt n).blkAlign = s.blkAlign := rfl
@[simp] theorem State.setRcnt_ch (n : Nat) : (s.setRcnt n).ch = s.ch := rfl
@[simp] theorem State.setRcnt_rate (n : Nat) : (s.setRcnt n).rate = s.rate := rfl
@[simp] theorem State.setRcnt_bps (n : Nat) : (s.setRcnt n).bps = s.bps := rfl
@[simp] theorem State.setRcnt_payLen (n : Nat) : (s.setRcnt n).payLen = s.payLen := rfl
@[simp] theorem State.setRcnt_pred (n : Nat) : (s.setRcnt n).pred = s.pred := rfl
@[simp] theorem State.setRcnt_sidx (n : Nat) : (s.setRcnt n).sidx = s.sidx := rfl
@[simp] theorem State.setRcnt_hdr (n : Nat) : (s.setRcnt n).hdr = s.hdr := rfl
@[simp] theorem State.setRcnt_idx (n : Nat) : (s.setRcnt n).idx = s.idx := rfl
@[simp] theorem State.setRcnt_buf (n : Nat) : (s.setRcnt n).buf = s.buf := rfl
@[simp] theorem State.setRcnt_smp (n : Nat) : (s.setRcnt n).smp = s.smp := rfl
@[simp] theorem State.setRcnt_desc (n : Nat) : (s.setRcnt n).desc = s.desc := rfl
@[simp] theorem State.setRcnt_resets (n : Nat) : (s.setRcnt n).resets = s.resets := rfl
@[simp] theorem State.setRcnt_serial (n : Nat) : (s.setRcnt n).serial = s.serial := rfl
@[simp] theorem State.setRcnt_inputs (n : Nat) : (s.setRcnt n).inputs = s.inputs := rfl

/-! ### `State.setAdpcm` -/

@[simp] theorem State.setAdpcm_params (a : AdpcmState) : (s.setAdpcm a).params = s.params := rfl
@[simp] theorem State.setAdpcm_cmd (a : AdpcmState) : (s.setAdpcm a).cmd = s.cmd := rfl
@[simp] theorem State.setAdpcm_status (a : AdpcmState) : (s.setAdpcm a).status = s.status := rfl
@[simp] theorem State.setAdpcm_errCode (a : AdpcmState) : (s.setAdpcm a).errCode = s.errCode := rfl
@[simp] theorem State.setAdpcm_errInfo (a : AdpcmState) : (s.setAdpcm a).errInfo = s.errInfo := rfl
@[simp] theorem State.setAdpcm_off (a : AdpcmState) : (s.setAdpcm a).off = s.off := rfl
@[simp] theorem State.setAdpcm_nextOff (a : AdpcmState) : (s.setAdpcm a).nextOff = s.nextOff := rfl
@[simp] theorem State.setAdpcm_valLo (a : AdpcmState) : (s.setAdpcm a).valLo = s.valLo := rfl
@[simp] theorem State.setAdpcm_valHi (a : AdpcmState) : (s.setAdpcm a).valHi = s.valHi := rfl
@[simp] theorem State.setAdpcm_src (a : AdpcmState) : (s.setAdpcm a).src = s.src := rfl
@[simp] theorem State.setAdpcm_dst (a : AdpcmState) : (s.setAdpcm a).dst = s.dst := rfl
@[simp] theorem State.setAdpcm_cnt (a : AdpcmState) : (s.setAdpcm a).cnt = s.cnt := rfl
@[simp] theorem State.setAdpcm_rcnt (a : AdpcmState) : (s.setAdpcm a).rcnt = s.rcnt := rfl
@[simp] theorem State.setAdpcm_bufLen (a : AdpcmState) : (s.setAdpcm a).bufLen = s.bufLen := rfl
@[simp] theorem State.setAdpcm_blkAlign (a : AdpcmState) : (s.setAdpcm a).blkAlign = s.blkAlign := rfl
@[simp] theorem State.setAdpcm_ch (a : AdpcmState) : (s.setAdpcm a).ch = s.ch := rfl
@[simp] theorem State.setAdpcm_rate (a : AdpcmState) : (s.setAdpcm a).rate = s.rate := rfl
@[simp] theorem State.setAdpcm_bps (a : AdpcmState) : (s.setAdpcm a).bps = s.bps := rfl
@[simp] theorem State.setAdpcm_payLen (a : AdpcmState) : (s.setAdpcm a).payLen = s.payLen := rfl
@[simp] theorem State.setAdpcm_pred (a : AdpcmState) : (s.setAdpcm a).pred = BitVec.ofInt 17 a.pred := rfl
@[simp] theorem State.setAdpcm_sidx (a : AdpcmState) : (s.setAdpcm a).sidx = BitVec.ofNat 7 a.index := rfl
@[simp] theorem State.setAdpcm_hdr (a : AdpcmState) : (s.setAdpcm a).hdr = s.hdr := rfl
@[simp] theorem State.setAdpcm_idx (a : AdpcmState) : (s.setAdpcm a).idx = s.idx := rfl
@[simp] theorem State.setAdpcm_buf (a : AdpcmState) : (s.setAdpcm a).buf = s.buf := rfl
@[simp] theorem State.setAdpcm_smp (a : AdpcmState) : (s.setAdpcm a).smp = s.smp := rfl
@[simp] theorem State.setAdpcm_desc (a : AdpcmState) : (s.setAdpcm a).desc = s.desc := rfl
@[simp] theorem State.setAdpcm_resets (a : AdpcmState) : (s.setAdpcm a).resets = s.resets := rfl
@[simp] theorem State.setAdpcm_serial (a : AdpcmState) : (s.setAdpcm a).serial = s.serial := rfl
@[simp] theorem State.setAdpcm_inputs (a : AdpcmState) : (s.setAdpcm a).inputs = s.inputs := rfl

/-! ### `State.storeBytes` -/

@[simp] theorem State.storeBytes_params (a : Nat) (l : List Byte) : (s.storeBytes a l).params = s.params := rfl
@[simp] theorem State.storeBytes_cmd (a : Nat) (l : List Byte) : (s.storeBytes a l).cmd = s.cmd := rfl
@[simp] theorem State.storeBytes_status (a : Nat) (l : List Byte) : (s.storeBytes a l).status = s.status := rfl
@[simp] theorem State.storeBytes_errCode (a : Nat) (l : List Byte) : (s.storeBytes a l).errCode = s.errCode := rfl
@[simp] theorem State.storeBytes_errInfo (a : Nat) (l : List Byte) : (s.storeBytes a l).errInfo = s.errInfo := rfl
@[simp] theorem State.storeBytes_off (a : Nat) (l : List Byte) : (s.storeBytes a l).off = s.off := rfl
@[simp] theorem State.storeBytes_nextOff (a : Nat) (l : List Byte) : (s.storeBytes a l).nextOff = s.nextOff := rfl
@[simp] theorem State.storeBytes_valLo (a : Nat) (l : List Byte) : (s.storeBytes a l).valLo = s.valLo := rfl
@[simp] theorem State.storeBytes_valHi (a : Nat) (l : List Byte) : (s.storeBytes a l).valHi = s.valHi := rfl
@[simp] theorem State.storeBytes_src (a : Nat) (l : List Byte) : (s.storeBytes a l).src = s.src := rfl
@[simp] theorem State.storeBytes_dst (a : Nat) (l : List Byte) : (s.storeBytes a l).dst = s.dst := rfl
@[simp] theorem State.storeBytes_cnt (a : Nat) (l : List Byte) : (s.storeBytes a l).cnt = s.cnt := rfl
@[simp] theorem State.storeBytes_rcnt (a : Nat) (l : List Byte) : (s.storeBytes a l).rcnt = s.rcnt := rfl
@[simp] theorem State.storeBytes_bufLen (a : Nat) (l : List Byte) : (s.storeBytes a l).bufLen = s.bufLen := rfl
@[simp] theorem State.storeBytes_blkAlign (a : Nat) (l : List Byte) : (s.storeBytes a l).blkAlign = s.blkAlign := rfl
@[simp] theorem State.storeBytes_ch (a : Nat) (l : List Byte) : (s.storeBytes a l).ch = s.ch := rfl
@[simp] theorem State.storeBytes_rate (a : Nat) (l : List Byte) : (s.storeBytes a l).rate = s.rate := rfl
@[simp] theorem State.storeBytes_bps (a : Nat) (l : List Byte) : (s.storeBytes a l).bps = s.bps := rfl
@[simp] theorem State.storeBytes_payLen (a : Nat) (l : List Byte) : (s.storeBytes a l).payLen = s.payLen := rfl
@[simp] theorem State.storeBytes_pred (a : Nat) (l : List Byte) : (s.storeBytes a l).pred = s.pred := rfl
@[simp] theorem State.storeBytes_sidx (a : Nat) (l : List Byte) : (s.storeBytes a l).sidx = s.sidx := rfl
@[simp] theorem State.storeBytes_hdr (a : Nat) (l : List Byte) : (s.storeBytes a l).hdr = s.hdr := rfl
@[simp] theorem State.storeBytes_idx (a : Nat) (l : List Byte) : (s.storeBytes a l).idx = s.idx := rfl
@[simp] theorem State.storeBytes_buf (a : Nat) (l : List Byte) : (s.storeBytes a l).buf = Memory.storeList s.buf a l := rfl
@[simp] theorem State.storeBytes_smp (a : Nat) (l : List Byte) : (s.storeBytes a l).smp = s.smp := rfl
@[simp] theorem State.storeBytes_desc (a : Nat) (l : List Byte) : (s.storeBytes a l).desc = s.desc := rfl
@[simp] theorem State.storeBytes_resets (a : Nat) (l : List Byte) : (s.storeBytes a l).resets = s.resets := rfl
@[simp] theorem State.storeBytes_serial (a : Nat) (l : List Byte) : (s.storeBytes a l).serial = s.serial := rfl
@[simp] theorem State.storeBytes_inputs (a : Nat) (l : List Byte) : (s.storeBytes a l).inputs = s.inputs := rfl

/-! ### `State.storeCells` -/

@[simp] theorem State.storeCells_params (i : Nat) (l : List Cell) : (s.storeCells i l).params = s.params := rfl
@[simp] theorem State.storeCells_cmd (i : Nat) (l : List Cell) : (s.storeCells i l).cmd = s.cmd := rfl
@[simp] theorem State.storeCells_status (i : Nat) (l : List Cell) : (s.storeCells i l).status = s.status := rfl
@[simp] theorem State.storeCells_errCode (i : Nat) (l : List Cell) : (s.storeCells i l).errCode = s.errCode := rfl
@[simp] theorem State.storeCells_errInfo (i : Nat) (l : List Cell) : (s.storeCells i l).errInfo = s.errInfo := rfl
@[simp] theorem State.storeCells_off (i : Nat) (l : List Cell) : (s.storeCells i l).off = s.off := rfl
@[simp] theorem State.storeCells_nextOff (i : Nat) (l : List Cell) : (s.storeCells i l).nextOff = s.nextOff := rfl
@[simp] theorem State.storeCells_valLo (i : Nat) (l : List Cell) : (s.storeCells i l).valLo = s.valLo := rfl
@[simp] theorem State.storeCells_valHi (i : Nat) (l : List Cell) : (s.storeCells i l).valHi = s.valHi := rfl
@[simp] theorem State.storeCells_src (i : Nat) (l : List Cell) : (s.storeCells i l).src = s.src := rfl
@[simp] theorem State.storeCells_dst (i : Nat) (l : List Cell) : (s.storeCells i l).dst = s.dst := rfl
@[simp] theorem State.storeCells_cnt (i : Nat) (l : List Cell) : (s.storeCells i l).cnt = s.cnt := rfl
@[simp] theorem State.storeCells_rcnt (i : Nat) (l : List Cell) : (s.storeCells i l).rcnt = s.rcnt := rfl
@[simp] theorem State.storeCells_bufLen (i : Nat) (l : List Cell) : (s.storeCells i l).bufLen = s.bufLen := rfl
@[simp] theorem State.storeCells_blkAlign (i : Nat) (l : List Cell) : (s.storeCells i l).blkAlign = s.blkAlign := rfl
@[simp] theorem State.storeCells_ch (i : Nat) (l : List Cell) : (s.storeCells i l).ch = s.ch := rfl
@[simp] theorem State.storeCells_rate (i : Nat) (l : List Cell) : (s.storeCells i l).rate = s.rate := rfl
@[simp] theorem State.storeCells_bps (i : Nat) (l : List Cell) : (s.storeCells i l).bps = s.bps := rfl
@[simp] theorem State.storeCells_payLen (i : Nat) (l : List Cell) : (s.storeCells i l).payLen = s.payLen := rfl
@[simp] theorem State.storeCells_pred (i : Nat) (l : List Cell) : (s.storeCells i l).pred = s.pred := rfl
@[simp] theorem State.storeCells_sidx (i : Nat) (l : List Cell) : (s.storeCells i l).sidx = s.sidx := rfl
@[simp] theorem State.storeCells_hdr (i : Nat) (l : List Cell) : (s.storeCells i l).hdr = s.hdr := rfl
@[simp] theorem State.storeCells_idx (i : Nat) (l : List Cell) : (s.storeCells i l).idx = s.idx := rfl
@[simp] theorem State.storeCells_buf (i : Nat) (l : List Cell) : (s.storeCells i l).buf = s.buf := rfl
@[simp] theorem State.storeCells_smp (i : Nat) (l : List Cell) : (s.storeCells i l).smp = Memory.storeList s.smp i l := rfl
@[simp] theorem State.storeCells_desc (i : Nat) (l : List Cell) : (s.storeCells i l).desc = s.desc := rfl
@[simp] theorem State.storeCells_resets (i : Nat) (l : List Cell) : (s.storeCells i l).resets = s.resets := rfl
@[simp] theorem State.storeCells_serial (i : Nat) (l : List Cell) : (s.storeCells i l).serial = s.serial := rfl
@[simp] theorem State.storeCells_inputs (i : Nat) (l : List Cell) : (s.storeCells i l).inputs = s.inputs := rfl

/-! ### `State.storeRecords` -/

@[simp] theorem State.storeRecords_params (l : List DescRecord) : (s.storeRecords l).params = s.params := rfl
@[simp] theorem State.storeRecords_cmd (l : List DescRecord) : (s.storeRecords l).cmd = s.cmd := rfl
@[simp] theorem State.storeRecords_status (l : List DescRecord) : (s.storeRecords l).status = s.status := rfl
@[simp] theorem State.storeRecords_errCode (l : List DescRecord) : (s.storeRecords l).errCode = s.errCode := rfl
@[simp] theorem State.storeRecords_errInfo (l : List DescRecord) : (s.storeRecords l).errInfo = s.errInfo := rfl
@[simp] theorem State.storeRecords_off (l : List DescRecord) : (s.storeRecords l).off = s.off := rfl
@[simp] theorem State.storeRecords_nextOff (l : List DescRecord) : (s.storeRecords l).nextOff = s.nextOff := rfl
@[simp] theorem State.storeRecords_valLo (l : List DescRecord) : (s.storeRecords l).valLo = s.valLo := rfl
@[simp] theorem State.storeRecords_valHi (l : List DescRecord) : (s.storeRecords l).valHi = s.valHi := rfl
@[simp] theorem State.storeRecords_src (l : List DescRecord) : (s.storeRecords l).src = s.src := rfl
@[simp] theorem State.storeRecords_dst (l : List DescRecord) : (s.storeRecords l).dst = s.dst := rfl
@[simp] theorem State.storeRecords_cnt (l : List DescRecord) : (s.storeRecords l).cnt = s.cnt := rfl
@[simp] theorem State.storeRecords_rcnt (l : List DescRecord) : (s.storeRecords l).rcnt = s.rcnt := rfl
@[simp] theorem State.storeRecords_bufLen (l : List DescRecord) : (s.storeRecords l).bufLen = s.bufLen := rfl
@[simp] theorem State.storeRecords_blkAlign (l : List DescRecord) : (s.storeRecords l).blkAlign = s.blkAlign := rfl
@[simp] theorem State.storeRecords_ch (l : List DescRecord) : (s.storeRecords l).ch = s.ch := rfl
@[simp] theorem State.storeRecords_rate (l : List DescRecord) : (s.storeRecords l).rate = s.rate := rfl
@[simp] theorem State.storeRecords_bps (l : List DescRecord) : (s.storeRecords l).bps = s.bps := rfl
@[simp] theorem State.storeRecords_payLen (l : List DescRecord) : (s.storeRecords l).payLen = s.payLen := rfl
@[simp] theorem State.storeRecords_pred (l : List DescRecord) : (s.storeRecords l).pred = s.pred := rfl
@[simp] theorem State.storeRecords_sidx (l : List DescRecord) : (s.storeRecords l).sidx = s.sidx := rfl
@[simp] theorem State.storeRecords_hdr (l : List DescRecord) : (s.storeRecords l).hdr = s.hdr := rfl
@[simp] theorem State.storeRecords_idx (l : List DescRecord) : (s.storeRecords l).idx = s.idx := rfl
@[simp] theorem State.storeRecords_buf (l : List DescRecord) : (s.storeRecords l).buf = s.buf := rfl
@[simp] theorem State.storeRecords_smp (l : List DescRecord) : (s.storeRecords l).smp = s.smp := rfl
@[simp] theorem State.storeRecords_desc (l : List DescRecord) : (s.storeRecords l).desc = Memory.storeList s.desc 0 l := rfl
@[simp] theorem State.storeRecords_resets (l : List DescRecord) : (s.storeRecords l).resets = s.resets := rfl
@[simp] theorem State.storeRecords_serial (l : List DescRecord) : (s.storeRecords l).serial = s.serial := rfl
@[simp] theorem State.storeRecords_inputs (l : List DescRecord) : (s.storeRecords l).inputs = s.inputs := rfl

/-! ### `State.freeBytes` -/

@[simp] theorem State.freeBytes_params (a n : Nat) : (s.freeBytes a n).params = s.params := rfl
@[simp] theorem State.freeBytes_cmd (a n : Nat) : (s.freeBytes a n).cmd = s.cmd := rfl
@[simp] theorem State.freeBytes_status (a n : Nat) : (s.freeBytes a n).status = s.status := rfl
@[simp] theorem State.freeBytes_errCode (a n : Nat) : (s.freeBytes a n).errCode = s.errCode := rfl
@[simp] theorem State.freeBytes_errInfo (a n : Nat) : (s.freeBytes a n).errInfo = s.errInfo := rfl
@[simp] theorem State.freeBytes_off (a n : Nat) : (s.freeBytes a n).off = s.off := rfl
@[simp] theorem State.freeBytes_nextOff (a n : Nat) : (s.freeBytes a n).nextOff = s.nextOff := rfl
@[simp] theorem State.freeBytes_valLo (a n : Nat) : (s.freeBytes a n).valLo = s.valLo := rfl
@[simp] theorem State.freeBytes_valHi (a n : Nat) : (s.freeBytes a n).valHi = s.valHi := rfl
@[simp] theorem State.freeBytes_src (a n : Nat) : (s.freeBytes a n).src = s.src := rfl
@[simp] theorem State.freeBytes_dst (a n : Nat) : (s.freeBytes a n).dst = s.dst := rfl
@[simp] theorem State.freeBytes_cnt (a n : Nat) : (s.freeBytes a n).cnt = s.cnt := rfl
@[simp] theorem State.freeBytes_rcnt (a n : Nat) : (s.freeBytes a n).rcnt = s.rcnt := rfl
@[simp] theorem State.freeBytes_bufLen (a n : Nat) : (s.freeBytes a n).bufLen = s.bufLen := rfl
@[simp] theorem State.freeBytes_blkAlign (a n : Nat) : (s.freeBytes a n).blkAlign = s.blkAlign := rfl
@[simp] theorem State.freeBytes_ch (a n : Nat) : (s.freeBytes a n).ch = s.ch := rfl
@[simp] theorem State.freeBytes_rate (a n : Nat) : (s.freeBytes a n).rate = s.rate := rfl
@[simp] theorem State.freeBytes_bps (a n : Nat) : (s.freeBytes a n).bps = s.bps := rfl
@[simp] theorem State.freeBytes_payLen (a n : Nat) : (s.freeBytes a n).payLen = s.payLen := rfl
@[simp] theorem State.freeBytes_pred (a n : Nat) : (s.freeBytes a n).pred = s.pred := rfl
@[simp] theorem State.freeBytes_sidx (a n : Nat) : (s.freeBytes a n).sidx = s.sidx := rfl
@[simp] theorem State.freeBytes_hdr (a n : Nat) : (s.freeBytes a n).hdr = s.hdr := rfl
@[simp] theorem State.freeBytes_idx (a n : Nat) : (s.freeBytes a n).idx = s.idx := rfl
@[simp] theorem State.freeBytes_buf (a n : Nat) : (s.freeBytes a n).buf = Memory.storeList s.buf a ((List.range n).map (Config.freeByte s.serial)) := rfl
@[simp] theorem State.freeBytes_smp (a n : Nat) : (s.freeBytes a n).smp = s.smp := rfl
@[simp] theorem State.freeBytes_desc (a n : Nat) : (s.freeBytes a n).desc = s.desc := rfl
@[simp] theorem State.freeBytes_resets (a n : Nat) : (s.freeBytes a n).resets = s.resets := rfl
@[simp] theorem State.freeBytes_serial (a n : Nat) : (s.freeBytes a n).serial = s.serial := rfl
@[simp] theorem State.freeBytes_inputs (a n : Nat) : (s.freeBytes a n).inputs = s.inputs := rfl

/-! ### `State.freeCells` -/

@[simp] theorem State.freeCells_params (i n : Nat) : (s.freeCells i n).params = s.params := rfl
@[simp] theorem State.freeCells_cmd (i n : Nat) : (s.freeCells i n).cmd = s.cmd := rfl
@[simp] theorem State.freeCells_status (i n : Nat) : (s.freeCells i n).status = s.status := rfl
@[simp] theorem State.freeCells_errCode (i n : Nat) : (s.freeCells i n).errCode = s.errCode := rfl
@[simp] theorem State.freeCells_errInfo (i n : Nat) : (s.freeCells i n).errInfo = s.errInfo := rfl
@[simp] theorem State.freeCells_off (i n : Nat) : (s.freeCells i n).off = s.off := rfl
@[simp] theorem State.freeCells_nextOff (i n : Nat) : (s.freeCells i n).nextOff = s.nextOff := rfl
@[simp] theorem State.freeCells_valLo (i n : Nat) : (s.freeCells i n).valLo = s.valLo := rfl
@[simp] theorem State.freeCells_valHi (i n : Nat) : (s.freeCells i n).valHi = s.valHi := rfl
@[simp] theorem State.freeCells_src (i n : Nat) : (s.freeCells i n).src = s.src := rfl
@[simp] theorem State.freeCells_dst (i n : Nat) : (s.freeCells i n).dst = s.dst := rfl
@[simp] theorem State.freeCells_cnt (i n : Nat) : (s.freeCells i n).cnt = s.cnt := rfl
@[simp] theorem State.freeCells_rcnt (i n : Nat) : (s.freeCells i n).rcnt = s.rcnt := rfl
@[simp] theorem State.freeCells_bufLen (i n : Nat) : (s.freeCells i n).bufLen = s.bufLen := rfl
@[simp] theorem State.freeCells_blkAlign (i n : Nat) : (s.freeCells i n).blkAlign = s.blkAlign := rfl
@[simp] theorem State.freeCells_ch (i n : Nat) : (s.freeCells i n).ch = s.ch := rfl
@[simp] theorem State.freeCells_rate (i n : Nat) : (s.freeCells i n).rate = s.rate := rfl
@[simp] theorem State.freeCells_bps (i n : Nat) : (s.freeCells i n).bps = s.bps := rfl
@[simp] theorem State.freeCells_payLen (i n : Nat) : (s.freeCells i n).payLen = s.payLen := rfl
@[simp] theorem State.freeCells_pred (i n : Nat) : (s.freeCells i n).pred = s.pred := rfl
@[simp] theorem State.freeCells_sidx (i n : Nat) : (s.freeCells i n).sidx = s.sidx := rfl
@[simp] theorem State.freeCells_hdr (i n : Nat) : (s.freeCells i n).hdr = s.hdr := rfl
@[simp] theorem State.freeCells_idx (i n : Nat) : (s.freeCells i n).idx = s.idx := rfl
@[simp] theorem State.freeCells_buf (i n : Nat) : (s.freeCells i n).buf = s.buf := rfl
@[simp] theorem State.freeCells_smp (i n : Nat) : (s.freeCells i n).smp = Memory.storeList s.smp i ((List.range n).map (Config.freeCell s.serial)) := rfl
@[simp] theorem State.freeCells_desc (i n : Nat) : (s.freeCells i n).desc = s.desc := rfl
@[simp] theorem State.freeCells_resets (i n : Nat) : (s.freeCells i n).resets = s.resets := rfl
@[simp] theorem State.freeCells_serial (i n : Nat) : (s.freeCells i n).serial = s.serial := rfl
@[simp] theorem State.freeCells_inputs (i n : Nat) : (s.freeCells i n).inputs = s.inputs := rfl

/-! ### `State.freeRecords` -/

@[simp] theorem State.freeRecords_params : (s.freeRecords).params = s.params := rfl
@[simp] theorem State.freeRecords_cmd : (s.freeRecords).cmd = s.cmd := rfl
@[simp] theorem State.freeRecords_status : (s.freeRecords).status = s.status := rfl
@[simp] theorem State.freeRecords_errCode : (s.freeRecords).errCode = s.errCode := rfl
@[simp] theorem State.freeRecords_errInfo : (s.freeRecords).errInfo = s.errInfo := rfl
@[simp] theorem State.freeRecords_off : (s.freeRecords).off = s.off := rfl
@[simp] theorem State.freeRecords_nextOff : (s.freeRecords).nextOff = s.nextOff := rfl
@[simp] theorem State.freeRecords_valLo : (s.freeRecords).valLo = s.valLo := rfl
@[simp] theorem State.freeRecords_valHi : (s.freeRecords).valHi = s.valHi := rfl
@[simp] theorem State.freeRecords_src : (s.freeRecords).src = s.src := rfl
@[simp] theorem State.freeRecords_dst : (s.freeRecords).dst = s.dst := rfl
@[simp] theorem State.freeRecords_cnt : (s.freeRecords).cnt = s.cnt := rfl
@[simp] theorem State.freeRecords_rcnt : (s.freeRecords).rcnt = s.rcnt := rfl
@[simp] theorem State.freeRecords_bufLen : (s.freeRecords).bufLen = s.bufLen := rfl
@[simp] theorem State.freeRecords_blkAlign : (s.freeRecords).blkAlign = s.blkAlign := rfl
@[simp] theorem State.freeRecords_ch : (s.freeRecords).ch = s.ch := rfl
@[simp] theorem State.freeRecords_rate : (s.freeRecords).rate = s.rate := rfl
@[simp] theorem State.freeRecords_bps : (s.freeRecords).bps = s.bps := rfl
@[simp] theorem State.freeRecords_payLen : (s.freeRecords).payLen = s.payLen := rfl
@[simp] theorem State.freeRecords_pred : (s.freeRecords).pred = s.pred := rfl
@[simp] theorem State.freeRecords_sidx : (s.freeRecords).sidx = s.sidx := rfl
@[simp] theorem State.freeRecords_hdr : (s.freeRecords).hdr = s.hdr := rfl
@[simp] theorem State.freeRecords_idx : (s.freeRecords).idx = s.idx := rfl
@[simp] theorem State.freeRecords_buf : (s.freeRecords).buf = s.buf := rfl
@[simp] theorem State.freeRecords_smp : (s.freeRecords).smp = s.smp := rfl
@[simp] theorem State.freeRecords_resets : (s.freeRecords).resets = s.resets := rfl
@[simp] theorem State.freeRecords_serial : (s.freeRecords).serial = s.serial := rfl
@[simp] theorem State.freeRecords_inputs : (s.freeRecords).inputs = s.inputs := rfl

/-! ### `State.freeAdpcm` -/

@[simp] theorem State.freeAdpcm_params : (s.freeAdpcm).params = s.params := rfl
@[simp] theorem State.freeAdpcm_cmd : (s.freeAdpcm).cmd = s.cmd := rfl
@[simp] theorem State.freeAdpcm_status : (s.freeAdpcm).status = s.status := rfl
@[simp] theorem State.freeAdpcm_errCode : (s.freeAdpcm).errCode = s.errCode := rfl
@[simp] theorem State.freeAdpcm_errInfo : (s.freeAdpcm).errInfo = s.errInfo := rfl
@[simp] theorem State.freeAdpcm_off : (s.freeAdpcm).off = s.off := rfl
@[simp] theorem State.freeAdpcm_nextOff : (s.freeAdpcm).nextOff = s.nextOff := rfl
@[simp] theorem State.freeAdpcm_valLo : (s.freeAdpcm).valLo = s.valLo := rfl
@[simp] theorem State.freeAdpcm_valHi : (s.freeAdpcm).valHi = s.valHi := rfl
@[simp] theorem State.freeAdpcm_src : (s.freeAdpcm).src = s.src := rfl
@[simp] theorem State.freeAdpcm_dst : (s.freeAdpcm).dst = s.dst := rfl
@[simp] theorem State.freeAdpcm_cnt : (s.freeAdpcm).cnt = s.cnt := rfl
@[simp] theorem State.freeAdpcm_rcnt : (s.freeAdpcm).rcnt = s.rcnt := rfl
@[simp] theorem State.freeAdpcm_bufLen : (s.freeAdpcm).bufLen = s.bufLen := rfl
@[simp] theorem State.freeAdpcm_blkAlign : (s.freeAdpcm).blkAlign = s.blkAlign := rfl
@[simp] theorem State.freeAdpcm_ch : (s.freeAdpcm).ch = s.ch := rfl
@[simp] theorem State.freeAdpcm_rate : (s.freeAdpcm).rate = s.rate := rfl
@[simp] theorem State.freeAdpcm_bps : (s.freeAdpcm).bps = s.bps := rfl
@[simp] theorem State.freeAdpcm_payLen : (s.freeAdpcm).payLen = s.payLen := rfl
@[simp] theorem State.freeAdpcm_pred : (s.freeAdpcm).pred = (Config.freePred s.serial).signExtend 17 := rfl
@[simp] theorem State.freeAdpcm_sidx : (s.freeAdpcm).sidx = BitVec.ofNat 7 (Config.freeSidx s.serial % 89) := rfl
@[simp] theorem State.freeAdpcm_hdr : (s.freeAdpcm).hdr = s.hdr := rfl
@[simp] theorem State.freeAdpcm_idx : (s.freeAdpcm).idx = s.idx := rfl
@[simp] theorem State.freeAdpcm_buf : (s.freeAdpcm).buf = s.buf := rfl
@[simp] theorem State.freeAdpcm_smp : (s.freeAdpcm).smp = s.smp := rfl
@[simp] theorem State.freeAdpcm_desc : (s.freeAdpcm).desc = s.desc := rfl
@[simp] theorem State.freeAdpcm_resets : (s.freeAdpcm).resets = s.resets := rfl
@[simp] theorem State.freeAdpcm_serial : (s.freeAdpcm).serial = s.serial := rfl
@[simp] theorem State.freeAdpcm_inputs : (s.freeAdpcm).inputs = s.inputs := rfl

end

end Sys2Proof.Machine
end

