-- ==== Sys2Proof/Laws/Ops.lean ====
section
/-! SUPPORT. What each shared operation can do: the reads of the three memories after each write, the two ways a command
ends, the flags after them, and the element loop. -/

namespace Sys2Proof.Machine

section
variable (s : State)

/-! ### How a command ends -/

/-- `raise` always answers the raised state. -/
theorem raise_eq_next {e : Error} {s t : State} : raise e s = .next t ↔ t = s.raised e := by
  simp [raise, eq_comm]

/-- `done` always answers the completed state. -/
theorem done_eq_next {s t : State} : done s = .next t ↔ t = s.completed := by
  simp [done, eq_comm]

/-- STATUS after an error reads 0xE. -/
theorem statusRaised_eq : statusRaised = 0xE#4 := by decide

/-- STATUS after a success reads 0xA where ERRSEEN was set, else 0x2. -/
theorem statusDone_eq (old : BitVec 4) : statusDone old = if old.getLsbD 3 then 0xA#4 else 0x2#4 := by
  revert old; decide

/-- The four bits of a STATUS word. -/
theorem statusWord_bits (a b c d : Bool) :
    (statusWord a b c d).getLsbD 3 = a ∧ (statusWord a b c d).getLsbD 2 = b ∧ (statusWord a b c d).getLsbD 1 = c ∧
      (statusWord a b c d).getLsbD 0 = d := by
  revert a b c d; decide

@[simp] theorem State.raised_busy (e : Error) : (s.raised e).busy = false := (statusWord_bits _ _ _ _).2.2.2
@[simp] theorem State.raised_doneFlag (e : Error) : (s.raised e).doneFlag = true := (statusWord_bits _ _ _ _).2.2.1
@[simp] theorem State.raised_err (e : Error) : (s.raised e).err = true := (statusWord_bits _ _ _ _).2.1
@[simp] theorem State.raised_errSeen (e : Error) : (s.raised e).errSeen = true := (statusWord_bits _ _ _ _).1
@[simp] theorem State.completed_busy : s.completed.busy = false := (statusWord_bits _ _ _ _).2.2.2
@[simp] theorem State.completed_doneFlag : s.completed.doneFlag = true := (statusWord_bits _ _ _ _).2.2.1
@[simp] theorem State.completed_err : s.completed.err = false := (statusWord_bits _ _ _ _).2.1
@[simp] theorem State.completed_errSeen : s.completed.errSeen = s.errSeen := (statusWord_bits _ _ _ _).1

/-! ### Reads after writes -/

/-- LEN is at most BUF_SIZE. -/
theorem State.len_le_bufSize : s.len ≤ s.params.bufSize := Nat.min_le_right ..

/-- LEN fits 32 bits. -/
theorem State.len_lt : s.len < 2 ^ 32 := Nat.lt_of_le_of_lt (Nat.min_le_left ..) s.bufLen.isLt

@[simp] theorem State.bufBytes_length (a n : Nat) : (s.bufBytes a n).length = n := by simp [State.bufBytes]

/-- The `k`-th byte MemRead returns (R52). -/
theorem State.bufBytes_getElem (a n k : Nat) (h : k < (s.bufBytes a n).length) :
    (s.bufBytes a n)[k] = s.bufByte (a + k) := by simp [State.bufBytes]

/-- A byte of BUF depends on BUF and the number of resets alone. -/
theorem State.bufByte_congr {s t : State} (hb : t.buf = s.buf) (hr : t.resets = s.resets) (a : Nat) :
    t.bufByte a = s.bufByte a := by simp [State.bufByte, hb, hr]

/-- A cell of SMP depends on SMP and the number of resets alone. -/
theorem State.smpCell_congr {s t : State} (hb : t.smp = s.smp) (hr : t.resets = s.resets) (i : Nat) :
    t.smpCell i = s.smpCell i := by simp [State.smpCell, hb, hr]

/-- A record of DESC depends on DESC and the number of resets alone. -/
theorem State.descRecord_congr {s t : State} (hb : t.desc = s.desc) (hr : t.resets = s.resets) (i : Nat) :
    t.descRecord i = s.descRecord i := by simp [State.descRecord, hb, hr]

/-- A byte of BUF after `storeBytes`. -/
theorem State.storeBytes_bufByte (a : Nat) (l : List Byte) (b : Nat) :
    (s.storeBytes a l).bufByte b = if h : a ≤ b ∧ b < a + l.length then l[b - a] else s.bufByte b := by
  have : Memory.lookup (s.storeBytes a l).buf b = _ := Memory.lookup_storeList s.buf a b l
  simp only [State.bufByte, this, State.storeBytes_resets]
  split
  · next h => simp [show b - a < l.length by omega]
  · rfl

/-- A cell of SMP after `storeCells`. -/
theorem State.storeCells_smpCell (i : Nat) (l : List Cell) (j : Nat) :
    (s.storeCells i l).smpCell j = if h : i ≤ j ∧ j < i + l.length then l[j - i] else s.smpCell j := by
  have : Memory.lookup (s.storeCells i l).smp j = _ := Memory.lookup_storeList s.smp i j l
  simp only [State.smpCell, this, State.storeCells_resets]
  split
  · next h => simp [show j - i < l.length by omega]
  · rfl

/-- A record of DESC after `storeRecords`. -/
theorem State.storeRecords_descRecord (l : List DescRecord) (j : Nat) :
    (s.storeRecords l).descRecord j = if h : j < l.length then l[j] else s.descRecord j := by
  have : Memory.lookup (s.storeRecords l).desc j = _ := Memory.lookup_storeList s.desc 0 j l
  simp only [State.descRecord, this, State.storeRecords_resets]
  by_cases h : j < l.length
  · simp [h]
  · simp [h]

/-- Outside its extent an error of an element loop leaves BUF alone (R312). -/
theorem State.freeBytes_bufByte_outside (a n b : Nat) (h : b < a ∨ a + n ≤ b) :
    (s.freeBytes a n).bufByte b = s.bufByte b := by
  rw [State.freeBytes, State.storeBytes_bufByte, dif_neg]
  simp; omega

/-- Outside its extent an error of an element loop leaves SMP alone (R312). -/
theorem State.freeCells_smpCell_outside (i n j : Nat) (h : j < i ∨ i + n ≤ j) :
    (s.freeCells i n).smpCell j = s.smpCell j := by
  rw [State.freeCells, State.storeCells_smpCell, dif_neg]
  simp; omega

/-- VAL reads what `setVal` wrote. -/
@[simp] theorem State.setVal_val (v : BitVec 64) : (s.setVal v).val = v := by
  show v.extractLsb' 32 32 ++ v.extractLsb' 0 32 = v
  apply BitVec.eq_of_getLsbD_eq
  intro i hi
  rw [BitVec.getLsbD_append]
  split
  · next h => simp [h]
  · next h => simp [show i - 32 < 32 by omega, show 32 + (i - 32) = i by omega]

/-- PRED and SIDX drawn after an error stay in their ranges (U6). -/
theorem State.freeAdpcm_inRange :
    -32768 ≤ s.freeAdpcm.pred.toInt ∧ s.freeAdpcm.pred.toInt ≤ 32767 ∧ s.freeAdpcm.sidx.toNat ≤ 88 := by
  have h1 := BitVec.toInt_signExtend_of_le (x := Config.freePred s.serial) (v := 17) (by omega)
  have h2 := BitVec.le_toInt (Config.freePred s.serial)
  have h3 := BitVec.toInt_lt (x := Config.freePred s.serial)
  refine ⟨by rw [State.freeAdpcm_pred, h1]; simpa using h2, by rw [State.freeAdpcm_pred, h1]; simp at h3; omega, ?_⟩
  rw [State.freeAdpcm_sidx, BitVec.toNat_ofNat]
  omega

end

/-! ### The queue of the host -/

/-- The host port's queue is all `fetch` changes. -/
theorem fetch_eq_some {s t : State} {a : HostAction} :
    fetch s = some (a, t) ↔ ∃ rest, s.inputs = a :: rest ∧ t = { s with inputs := rest } := by
  unfold fetch
  split
  · next h => simp [h]
  · next b rest h =>
    rw [h]
    constructor
    · intro he
      simp only [Option.some.injEq, Prod.mk.injEq] at he
      obtain ⟨rfl, rfl⟩ := he
      exact ⟨rest, rfl, rfl⟩
    · rintro ⟨rest', he, rfl⟩
      simp only [List.cons.injEq] at he
      obtain ⟨rfl, rfl⟩ := he
      rfl

end Sys2Proof.Machine
end

