-- ==== Sys2Proof/Laws/Exec.lean ====
section
/-! SUPPORT. Every way each command can end, said once: one inversion lemma per command, in terms of `State.raised`,
`State.completed` and the named updates, which later proofs cite instead of unfolding the command. -/

namespace Sys2Proof.Machine

/-- RDV (R110). -/
theorem execRdv_cases {t : NumericType} {s u : State} (h : execRdv t s = .next u) :
    (typeValid t = false ∧ u = s.raised (invalidType t.bits)) ∨
    (typeValid t = true ∧ s.bufOutside (nbytes t) ∧ u = s.raised (outOfBounds s.off.toNat)) ∨
    (typeValid t = true ∧ ¬ s.bufOutside (nbytes t) ∧
      u = ((s.setVal (readValue t (Config.freeNan64 s.serial 0) (s.bufBytes s.off.toNat (nbytes t)))).setNext
        (s.off.toNat + nbytes t)).completed) := by
  unfold execRdv at h
  split at h
  · next hv => exact .inl ⟨by simpa using hv, raise_eq_next.mp h⟩
  · next hv =>
    have hv : typeValid t = true := by simpa using hv
    split at h
    · next ho => exact .inr (.inl ⟨hv, ho, raise_eq_next.mp h⟩)
    · next ho => exact .inr (.inr ⟨hv, ho, done_eq_next.mp h⟩)

/-- WRV (R115). -/
theorem execWrv_cases {t : NumericType} {s u : State} (h : execWrv t s = .next u) :
    (typeValid t = false ∧ u = s.raised (invalidType t.bits)) ∨
    (typeValid t = true ∧ s.bufOutside (nbytes t) ∧ u = s.raised (outOfBounds s.off.toNat)) ∨
    (typeValid t = true ∧ ¬ s.bufOutside (nbytes t) ∧
      ((∃ e, writeValue t (Config.freeNan32 s.serial 0) s.val s.off.toNat = .error e ∧ u = s.raised e) ∨
        (∃ l, writeValue t (Config.freeNan32 s.serial 0) s.val s.off.toNat = .ok l ∧
          u = ((s.storeBytes s.off.toNat l).setNext (s.off.toNat + nbytes t)).completed))) := by
  unfold execWrv at h
  split at h
  · next hv => exact .inl ⟨by simpa using hv, raise_eq_next.mp h⟩
  · next hv =>
    have hv : typeValid t = true := by simpa using hv
    split at h
    · next ho => exact .inr (.inl ⟨hv, ho, raise_eq_next.mp h⟩)
    · next ho =>
      refine .inr (.inr ⟨hv, ho, ?_⟩)
      split at h
      · next e he => exact .inl ⟨e, he, raise_eq_next.mp h⟩
      · next l hl => exact .inr ⟨l, hl, done_eq_next.mp h⟩

/-- RDA (R120). -/
theorem execRda_cases {t : NumericType} {s u : State} (h : execRda t s = .next u) :
    (typeValid t = false ∧ u = s.raised (invalidType t.bits)) ∨
    (typeValid t = true ∧ s.bufOutside (s.cnt.toNat * nbytes t) ∧ u = s.raised (outOfBounds s.off.toNat)) ∨
    (typeValid t = true ∧ ¬ s.bufOutside (s.cnt.toNat * nbytes t) ∧ s.dstOutside s.cnt.toNat ∧
      u = s.raised (outOfBounds s.dst.toNat)) ∨
    (typeValid t = true ∧ ¬ s.bufOutside (s.cnt.toNat * nbytes t) ∧ ¬ s.dstOutside s.cnt.toNat ∧
      u = (((s.storeCells s.dst.toNat ((List.range s.cnt.toNat).map (rdaCell t s))).setNext
        (s.off.toNat + s.cnt.toNat * nbytes t)).setRcnt s.cnt.toNat).completed) := by
  unfold execRda at h
  split at h
  · next hv => exact .inl ⟨by simpa using hv, raise_eq_next.mp h⟩
  · next hv =>
    have hv : typeValid t = true := by simpa using hv
    split at h
    · next ho => exact .inr (.inl ⟨hv, ho, raise_eq_next.mp h⟩)
    · next ho =>
      split at h
      · next hd => exact .inr (.inr (.inl ⟨hv, ho, hd, raise_eq_next.mp h⟩))
      · next hd => exact .inr (.inr (.inr ⟨hv, ho, hd, done_eq_next.mp h⟩))

/-- WRA (R125). -/
theorem execWra_cases {t : NumericType} {s u : State} (h : execWra t s = .next u) :
    (typeValid t = false ∧ u = s.raised (invalidType t.bits)) ∨
    (typeValid t = true ∧ s.bufOutside (s.cnt.toNat * nbytes t) ∧ u = s.raised (outOfBounds s.off.toNat)) ∨
    (typeValid t = true ∧ ¬ s.bufOutside (s.cnt.toNat * nbytes t) ∧ s.srcOutside s.cnt.toNat ∧
      u = s.raised (outOfBounds s.src.toNat)) ∨
    (typeValid t = true ∧ ¬ s.bufOutside (s.cnt.toNat * nbytes t) ∧ ¬ s.srcOutside s.cnt.toNat ∧
      ((∃ e, collect (wraBytes t s) s.cnt.toNat 0 = .error e ∧
          u = (s.freeBytes s.off.toNat (s.cnt.toNat * nbytes t)).raised e) ∨
        (∃ l, collect (wraBytes t s) s.cnt.toNat 0 = .ok l ∧
          u = (((s.storeBytes s.off.toNat l.flatten).setNext (s.off.toNat + s.cnt.toNat * nbytes t)).setRcnt
            (s.cnt.toNat * nbytes t)).completed))) := by
  unfold execWra at h
  split at h
  · next hv => exact .inl ⟨by simpa using hv, raise_eq_next.mp h⟩
  · next hv =>
    have hv : typeValid t = true := by simpa using hv
    split at h
    · next ho => exact .inr (.inl ⟨hv, ho, raise_eq_next.mp h⟩)
    · next ho =>
      split at h
      · next hd => exact .inr (.inr (.inl ⟨hv, ho, hd, raise_eq_next.mp h⟩))
      · next hd =>
        refine .inr (.inr (.inr ⟨hv, ho, hd, ?_⟩))
        split at h
        · next e he => exact .inl ⟨e, he, raise_eq_next.mp h⟩
        · next l hl => exact .inr ⟨l, hl, done_eq_next.mp h⟩

/-- IDX (R141). -/
theorem execIdx_cases {s u : State} (h : execIdx s = .next u) :
    (∃ e, s.containerHeader = .error e ∧ u = s.raised e) ∨
    (∃ kind size e, s.containerHeader = .ok (kind, size) ∧ s.walkAll (isBigEndianKind kind) = .error e ∧
      u = s.freeRecords.raised e) ∨
    (∃ kind size rs, s.containerHeader = .ok (kind, size) ∧ s.walkAll (isBigEndianKind kind) = .ok rs ∧
      u = State.completed { s.storeRecords rs with
        idx := { kind := kind.code
                 size := BitVec.ofNat 32 size
                 format := tagWord tagWave
                 nDesc := BitVec.ofNat 32 rs.length } }) := by
  unfold execIdx at h
  split at h
  · next e he => exact .inl ⟨e, he, raise_eq_next.mp h⟩
  · next kind size hk =>
    split at h
    · next e he => exact .inr (.inl ⟨kind, size, e, hk, he, raise_eq_next.mp h⟩)
    · next rs hr => exact .inr (.inr ⟨kind, size, rs, hk, hr, done_eq_next.mp h⟩)

/-- HDR (R171). -/
theorem execHdr_cases {depth : Nat} {kind : ContainerKind} {s u : State} (h : execHdr depth kind s = .next u) :
    (validForHdr depth = false ∧ u = s.raised (invalidBitDepth depth)) ∨
    (validForHdr depth = true ∧
      ((∃ e, checkWidths (headerFields depth s) = .error e ∧ u = s.raised e) ∨
        (checkWidths (headerFields depth s) = .ok (headerFields depth s) ∧
          u = State.completed { s with hdr := headerRegs (headerFields depth s) kind s }))) := by
  unfold execHdr at h
  split at h
  · next hv => exact .inl ⟨by simpa using hv, raise_eq_next.mp h⟩
  · next hv =>
    refine .inr ⟨by simpa using hv, ?_⟩
    split at h
    · next e he => exact .inl ⟨e, he, raise_eq_next.mp h⟩
    · next f hf =>
      have : f = headerFields depth s := by
        unfold checkWidths at hf
        split at hf <;> [cases hf; skip]
        split at hf <;> [cases hf; skip]
        split at hf <;> [cases hf; skip]
        split at hf <;> cases hf
        rfl
      subst this
      exact .inr ⟨hf, done_eq_next.mp h⟩

/-- CVT (R201). -/
theorem execCvt_cases {a b : Nat} {s u : State} (h : execCvt a b s = .next u) :
    (validForCvt a = false ∧ u = s.raised (invalidBitDepth a)) ∨
    (validForCvt a = true ∧ validForCvt b = false ∧ u = s.raised (invalidBitDepth b)) ∨
    (validForCvt a = true ∧ validForCvt b = true ∧ s.srcOutside s.cnt.toNat ∧ u = s.raised (outOfBounds s.src.toNat)) ∨
    (validForCvt a = true ∧ validForCvt b = true ∧ ¬ s.srcOutside s.cnt.toNat ∧ s.dstOutside s.cnt.toNat ∧
      u = s.raised (outOfBounds s.dst.toNat)) ∨
    (validForCvt a = true ∧ validForCvt b = true ∧ ¬ s.srcOutside s.cnt.toNat ∧ ¬ s.dstOutside s.cnt.toNat ∧
      ((∃ e, cvtLoop a b s.cnt.toNat 0 s = .error e ∧ u = (s.freeCells s.dst.toNat s.cnt.toNat).raised e) ∨
        (∃ w, cvtLoop a b s.cnt.toNat 0 s = .ok w ∧ u = (w.setRcnt s.cnt.toNat).completed))) := by
  unfold execCvt at h
  split at h
  · next hv => exact .inl ⟨by simpa using hv, raise_eq_next.mp h⟩
  · next hv =>
    have hv : validForCvt a = true := by simpa using hv
    split at h
    · next hw => exact .inr (.inl ⟨hv, by simpa using hw, raise_eq_next.mp h⟩)
    · next hw =>
      have hw : validForCvt b = true := by simpa using hw
      split at h
      · next ho => exact .inr (.inr (.inl ⟨hv, hw, ho, raise_eq_next.mp h⟩))
      · next ho =>
        split at h
        · next hd => exact .inr (.inr (.inr (.inl ⟨hv, hw, ho, hd, raise_eq_next.mp h⟩)))
        · next hd =>
          refine .inr (.inr (.inr (.inr ⟨hv, hw, ho, hd, ?_⟩)))
          split at h
          · next e he => exact .inl ⟨e, he, raise_eq_next.mp h⟩
          · next w hl => exact .inr ⟨w, hl, done_eq_next.mp h⟩

/-- The element loop of CVT writes cells of SMP from DST on, one for each element, and nothing else. -/
theorem cvtLoop_ok {a b n i : Nat} {s u : State} (h : cvtLoop a b n i s = .ok u) :
    ∃ l : List Cell, l.length = n ∧ u = s.storeCells (s.dst.toNat + i) l := by
  induction n generalizing i s with
  | zero => cases h; exact ⟨[], rfl, rfl⟩
  | succ n ih =>
    rw [cvtLoop] at h
    split at h
    · cases h
    · next c hc =>
      obtain ⟨l, hl, rfl⟩ := ih h
      exact ⟨c :: l, by simp [hl], rfl⟩

/-- A failing element loop of CVT ends in Overflow or Underflow of one of its elements (R215). -/
theorem cvtLoop_error {a b n i : Nat} {s : State} {e : Error} (h : cvtLoop a b n i s = .error e) :
    ∃ k < n, e = overflow (i + k) ∨ e = underflow (i + k) := by
  induction n generalizing i s with
  | zero => cases h
  | succ n ih =>
    rw [cvtLoop] at h
    split at h
    · next e' he =>
      cases h
      have hout : ∀ r, cvtIntOutput b (Config.freeCvtCell s.serial i) i r = .error e →
          e = overflow i ∨ e = underflow i := by
        intro r hr
        cases r with
        | none => cases hr
        | some r =>
          simp only [cvtIntOutput] at hr
          generalize (if b = 8 then r + 128 else r) = q at hr
          split at hr
          · cases hr; exact .inl rfl
          · split at hr
            · cases hr; exact .inr rfl
            · cases hr
      refine ⟨0, by omega, ?_⟩
      simp only [cvtCell] at he
      split at he
      · exact hout _ he
      · split at he
        · cases he
        · split at he
          · exact hout _ he
          · cases he
    · obtain ⟨k, hk, he⟩ := ih h
      refine ⟨k + 1, by omega, ?_⟩
      rwa [show i + (k + 1) = i + 1 + k by omega]

/-- ADE (R240). -/
theorem execAde_cases {s u : State} (h : execAde s = .next u) :
    (s.bufOutside (256 * s.adeBlocks) ∧ u = s.freeAdpcm.raised (outOfBounds s.off.toNat)) ∨
    (¬ s.bufOutside (256 * s.adeBlocks) ∧ s.srcOutside s.cnt.toNat ∧
      u = s.freeAdpcm.raised (outOfBounds s.src.toNat)) ∨
    (¬ s.bufOutside (256 * s.adeBlocks) ∧ ¬ s.srcOutside s.cnt.toNat ∧
      ((∃ e, s.samples16 = .error e ∧
          u = (s.freeBytes s.off.toNat (256 * s.adeBlocks)).freeAdpcm.raised e) ∨
        (∃ xs, s.samples16 = .ok xs ∧
          u = ((((s.storeBytes s.off.toNat (encodeBlocks s.adeBlocks xs AdpcmState.fresh).1).setAdpcm
            (encodeBlocks s.adeBlocks xs AdpcmState.fresh).2).setNext (s.off.toNat + 256 * s.adeBlocks)).setRcnt
              (256 * s.adeBlocks)).completed))) := by
  unfold execAde at h
  split at h
  · next ho => exact .inl ⟨ho, raise_eq_next.mp h⟩
  · next ho =>
    split at h
    · next hd => exact .inr (.inl ⟨ho, hd, raise_eq_next.mp h⟩)
    · next hd =>
      refine .inr (.inr ⟨ho, hd, ?_⟩)
      split at h
      · next e he => exact .inl ⟨e, he, raise_eq_next.mp h⟩
      · next xs hx => exact .inr ⟨xs, hx, done_eq_next.mp h⟩

/-- ADD (R251). -/
theorem execAdd_cases {s u : State} (h : execAdd s = .next u) :
    (s.blockSize < 4 ∧ u = s.freeAdpcm.raised (invalidArgument s.blockSize)) ∨
    (4 ≤ s.blockSize ∧ s.bufOutside s.cnt.toNat ∧ u = s.freeAdpcm.raised (outOfBounds s.off.toNat)) ∨
    (4 ≤ s.blockSize ∧ ¬ s.bufOutside s.cnt.toNat ∧ s.dstOutside s.addSamples ∧
      u = s.freeAdpcm.raised (outOfBounds s.dst.toNat)) ∨
    (4 ≤ s.blockSize ∧ ¬ s.bufOutside s.cnt.toNat ∧ ¬ s.dstOutside s.addSamples ∧
      u = ((((s.storeCells s.dst.toNat (s.addResult.1.map (BitVec.ofInt 64))).setAdpcm s.addResult.2).setNext
        (s.off.toNat + s.cnt.toNat)).setRcnt s.addSamples).completed) := by
  unfold execAdd at h
  split at h
  · next hb => exact .inl ⟨hb, raise_eq_next.mp h⟩
  · next hb =>
    have hb : 4 ≤ s.blockSize := by omega
    split at h
    · next ho => exact .inr (.inl ⟨hb, ho, raise_eq_next.mp h⟩)
    · next ho =>
      split at h
      · next hd => exact .inr (.inr (.inl ⟨hb, ho, hd, raise_eq_next.mp h⟩))
      · next hd => exact .inr (.inr (.inr ⟨hb, ho, hd, done_eq_next.mp h⟩))

/-- ADD stores as many samples as its bound check counted (R251). -/
theorem addResult_length {s : State} (hb : 4 ≤ s.blockSize) : s.addResult.1.length = s.addSamples := by
  have := decodeBlocks_length hb (s.bufBytes s.off.toNat s.cnt.toNat) AdpcmState.fresh
  rw [State.bufBytes_length] at this
  exact this

/-- The shape of ALE and MUE (R270). -/
theorem compress_cases {enc : Int → Nat} {s u : State} (h : compress enc s = .next u) :
    (s.bufOutside s.cnt.toNat ∧ u = s.raised (outOfBounds s.off.toNat)) ∨
    (¬ s.bufOutside s.cnt.toNat ∧ s.srcOutside s.cnt.toNat ∧ u = s.raised (outOfBounds s.src.toNat)) ∨
    (¬ s.bufOutside s.cnt.toNat ∧ ¬ s.srcOutside s.cnt.toNat ∧
      ((∃ e, s.samples16 = .error e ∧ u = (s.freeBytes s.off.toNat s.cnt.toNat).raised e) ∨
        (∃ xs, s.samples16 = .ok xs ∧
          u = (((s.storeBytes s.off.toNat (xs.map fun x => BitVec.ofNat 8 (enc x))).setNext
            (s.off.toNat + s.cnt.toNat)).setRcnt s.cnt.toNat).completed))) := by
  unfold compress at h
  split at h
  · next ho => exact .inl ⟨ho, raise_eq_next.mp h⟩
  · next ho =>
    split at h
    · next hd => exact .inr (.inl ⟨ho, hd, raise_eq_next.mp h⟩)
    · next hd =>
      refine .inr (.inr ⟨ho, hd, ?_⟩)
      split at h
      · next e he => exact .inl ⟨e, he, raise_eq_next.mp h⟩
      · next xs hx => exact .inr ⟨xs, hx, done_eq_next.mp h⟩

/-- The shape of ALD and MUD (R270). -/
theorem expand_cases {dec : Nat → Int} {s u : State} (h : expand dec s = .next u) :
    (s.bufOutside s.cnt.toNat ∧ u = s.raised (outOfBounds s.off.toNat)) ∨
    (¬ s.bufOutside s.cnt.toNat ∧ s.dstOutside s.cnt.toNat ∧ u = s.raised (outOfBounds s.dst.toNat)) ∨
    (¬ s.bufOutside s.cnt.toNat ∧ ¬ s.dstOutside s.cnt.toNat ∧
      u = (((s.storeCells s.dst.toNat ((s.bufBytes s.off.toNat s.cnt.toNat).map fun y =>
        BitVec.ofInt 64 (dec y.toNat))).setNext (s.off.toNat + s.cnt.toNat)).setRcnt s.cnt.toNat).completed) := by
  unfold expand at h
  split at h
  · next ho => exact .inl ⟨ho, raise_eq_next.mp h⟩
  · next ho =>
    split at h
    · next hd => exact .inr (.inl ⟨ho, hd, raise_eq_next.mp h⟩)
    · next hd => exact .inr (.inr ⟨ho, hd, done_eq_next.mp h⟩)

end Sys2Proof.Machine
end

