-- ==== Sys2Proof/Laws/PerInstr.lean ====
section
/-! SUPPORT. Facts stated of every command as syntax, one lemma per constructor. -/

namespace Sys2Proof.Laws.EncodeOpcode

/-- Bits 7:0 of a command's word are its opcode (30_encoding.md R70), whatever its fields hold. -/
def Statement (i : Instr) : Prop := opcodeOf (encode i) = i.opcode.toNat

/-- The low eight bits of anything followed by an opcode. -/
theorem opcodeOf_append {n : Nat} (hi : BitVec n) (op : BitVec 8) (w : Word) (h : w.toNat = (hi ++ op).toNat) :
    opcodeOf w = op.toNat := by
  have := op.isLt
  simp only [opcodeOf, BitVec.extractLsb'_toNat, h, BitVec.toNat_append, Nat.shiftRight_zero]
  rw [Nat.shiftLeft_eq, Nat.mul_comm, ← Nat.two_pow_add_eq_or_of_lt this]
  omega

theorem rdv (t : NumericType) : Statement (.rdv t) := opcodeOf_append _ _ _ rfl
theorem wrv (t : NumericType) : Statement (.wrv t) := opcodeOf_append _ _ _ rfl
theorem rda (t : NumericType) : Statement (.rda t) := opcodeOf_append _ _ _ rfl
theorem wra (t : NumericType) : Statement (.wra t) := opcodeOf_append _ _ _ rfl
theorem idx : Statement .idx := opcodeOf_append _ _ _ rfl
theorem hdr (depth : Nat) (kind : ContainerKind) : Statement (.hdr depth kind) := opcodeOf_append _ _ _ rfl
theorem cvt (fromCode toCode : Nat) : Statement (.cvt fromCode toCode) := opcodeOf_append _ _ _ rfl
theorem ade : Statement .ade := opcodeOf_append _ _ _ rfl
theorem add : Statement .add := opcodeOf_append _ _ _ rfl
theorem ale : Statement .ale := opcodeOf_append _ _ _ rfl
theorem ald : Statement .ald := opcodeOf_append _ _ _ rfl
theorem mue : Statement .mue := opcodeOf_append _ _ _ rfl
theorem mud : Statement .mud := opcodeOf_append _ _ _ rfl

end Sys2Proof.Laws.EncodeOpcode
end

