-- ==== Sys2Proof/Tests/Slice0.lean ====
section
/-! SUPPORT. The model's own tests: terms that fit no word, the words of 30_encoding.md R87 written out, single steps whose
results the spec gives, and for every statement with hypotheses a state that meets them, each clause at the edge of its
range. -/

namespace Sys2Proof.Tests

-- One proof after another: many kernel evaluations side by side would each hold a thread of their own.
set_option Elab.async false

open Sys2Proof Sys2Proof.Machine

/-- The command ended, and what it left passes the check. -/
def ends (r : Result) (check : State → Bool) : Bool :=
  match r with
  | .next u => check u
  | .fault _ => false
  | .refused _ => false

/-- The machine after reset with 512 bytes of BUF valid. -/
def ready : State := { State.reset with bufLen := 512 }

/-- BUF holds the given bytes from 0 on, and no more are valid. -/
def holding (bytes : List Byte) : State :=
  { State.reset.storeBytes 0 bytes with bufLen := BitVec.ofNat 32 bytes.length }

/-- SMP holds the given cells from 0 on, CNT says how many, and 512 bytes of BUF are valid. -/
def sampled (cells : List Cell) : State :=
  { ready.storeCells 0 cells with cnt := BitVec.ofNat 32 cells.length }

/-- The host is about to act. -/
def before (a : HostAction) (s : State) : State := { s with inputs := [a] }

/-! ### Terms that fit no word (R72, R73, R76) -/

/-- A numeric type one past the seven bits of BITS. -/
def wide : NumericType := { bits := 128, signed := true, isFloat := true, bigEndian := true }

/-- A numeric type that fills the seven bits of BITS. -/
def widest : NumericType := { bits := 127, signed := true, isFloat := true, bigEndian := true }

theorem test_wellFormed_refuses_bits :
    (Instr.rdv wide).wellFormed = false ∧ (Instr.wrv wide).wellFormed = false ∧ (Instr.rda wide).wellFormed = false ∧
      (Instr.wra wide).wellFormed = false := by decide

theorem test_wellFormed_refuses_codes :
    (Instr.hdr 256 .riff).wellFormed = false ∧ (Instr.cvt 256 8).wellFormed = false ∧
      (Instr.cvt 8 256).wellFormed = false := by decide

theorem test_wellFormed_accepts :
    (Instr.rdv widest).wellFormed = true ∧ (Instr.hdr 255 .rf64).wellFormed = true ∧
      (Instr.cvt 255 255).wellFormed = true ∧ Instr.mud.wellFormed = true := by decide

/-! ### The words of R87 -/

theorem test_decode_V_integers :
    decode 0x00001001 = .ok (.rdv (unsignedType 16 false)) ∧ decode 0x00041001 = .ok (.rdv (unsignedType 16 true)) ∧
    decode 0x00002001 = .ok (.rdv (unsignedType 32 false)) ∧ decode 0x00050C01 = .ok (.rdv (signedType 12 true)) ∧
    decode 0x00000302 = .ok (.wrv (unsignedType 3 false)) ∧ decode 0x00000C02 = .ok (.wrv (unsignedType 12 false)) ∧
    decode 0x00050C02 = .ok (.wrv (signedType 12 true)) ∧ decode 0x00011003 = .ok (.rda (signedType 16 false)) ∧
    decode 0x00011004 = .ok (.wra (signedType 16 false)) ∧ decode 0x00000804 = .ok (.wra (unsignedType 8 false)) := by
  decide

theorem test_decode_V_floats :
    decode 0x00031002 = .ok (.wrv (floatType 16 false)) ∧ decode 0x00072002 = .ok (.wrv (floatType 32 true)) ∧
    decode 0x00034002 = .ok (.wrv (floatType 64 false)) := by decide

theorem test_decode_N :
    decode 0x00000010 = .ok .idx ∧ decode 0x00000040 = .ok .ade ∧ decode 0x00000041 = .ok .add ∧
    decode 0x00000050 = .ok .ale ∧ decode 0x00000051 = .ok .ald ∧ decode 0x00000052 = .ok .mue ∧
    decode 0x00000053 = .ok .mud := by decide

theorem test_decode_H :
    decode 0x00001020 = .ok (.hdr 16 .riff) ∧ decode 0x00000420 = .ok (.hdr 4 .riff) ∧
    decode 0x00011820 = .ok (.hdr 24 .rifx) ∧ decode 0x0002A020 = .ok (.hdr 0xA0 .rf64) := by decide

theorem test_decode_C :
    decode 0x00081030 = .ok (.cvt 16 8) ∧ decode 0x00A01030 = .ok (.cvt 16 0xA0) ∧
    decode 0x00104030 = .ok (.cvt 64 16) := by decide

theorem test_decode_refuses :
    decode 0x00000000 = .error (.undefinedOpcode 0) ∧ decode 0x00008001 = .error .reservedBits ∧
    decode 0x00080001 = .error .reservedBits ∧ decode 0x00000110 = .error .reservedBits ∧
    decode 0x01000030 = .error .reservedBits ∧ decode 0x00040020 = .error .reservedBits ∧
    decode 0x00030020 = .error .reservedKind := by decide

/-! ### Single steps -/

/-- R110: 34 12 big-endian is 0x3412. -/
theorem test_rdv_be : ends (exec (.rdv (unsignedType 16 true)) (holding [0x34, 0x12])) fun u =>
    u.val == 13330 && u.nextOff == 2 := by decide

/-- R106: unpack(s12le, FF FF) is -1; the bits above the value's width are ignored. -/
theorem test_rdv_partial_byte : ends (exec (.rdv (signedType 12 false)) (holding [0xFF, 0xFF])) fun u =>
    u.val.toInt == -1 := by decide

/-- R115: 0xABC as u12be is 0A BC. -/
theorem test_wrv_be : ends (exec (.wrv (unsignedType 12 true)) { ready with valLo := 0xABC }) fun u =>
    u.bufBytes 0 2 == [0x0A, 0xBC] && u.nextOff == 2 := by decide

/-- R116: 9 does not fit three bits. -/
theorem test_wrv_overflow : ends (exec (.wrv (unsignedType 3 false)) { ready with valLo := 9, off := 7 }) fun u =>
    u.errCode == 5 && u.errInfo == 7 && u.buf == [] := by decide

/-- R120: FF FF 01 00 as s16le. -/
theorem test_rda : ends (exec (.rda (signedType 16 false)) { holding [0xFF, 0xFF, 1, 0] with cnt := 2 }) fun u =>
    u.smpInt 0 == -1 && u.smpInt 1 == 1 && u.nextOff == 4 && u.rcnt == 2 := by decide +kernel

/-- R125: 1, -2 as s16le. -/
theorem test_wra : ends (exec (.wra (signedType 16 false)) (sampled [1, -2])) fun u =>
    u.bufBytes 0 4 == [1, 0, 0xFE, 0xFF] && u.rcnt == 4 := by decide +kernel

/-- R125: the info of a range error is the element index. -/
theorem test_wra_underflow : ends (exec (.wra (unsignedType 8 false)) (sampled [1, -2])) fun u =>
    u.errCode == 6 && u.errInfo == 1 && u.rcnt == 0 := by decide +kernel

/-- R157: the document's 44-byte container. -/
def minimalWave : List Byte :=
  tagRiff ++ [36, 0, 0, 0] ++ tagWave ++ [0x66, 0x6D, 0x74, 0x20, 16, 0, 0, 0] ++ List.replicate 16 0 ++
    [0x64, 0x61, 0x74, 0x61, 0, 0, 0, 0]

theorem test_idx : ends (exec .idx (holding minimalWave)) fun u =>
    u.idx == { kind := 0, size := 36, format := 0x45564157, nDesc := 2 } &&
      u.descRecord 0 == { id := 0x20746D66, size := 16, start := 20, endLo := 36, endHi := 0, listFmt := 0,
                          parent := 0xFFFFFFFF, flags := 0 } &&
      u.descRecord 1 == { id := 0x61746164, size := 0, start := 44, endLo := 44, endHi := 0, listFmt := 0,
                          parent := 0xFFFFFFFF, flags := 0 } := by decide +kernel

/-- R182: the document's plain header. -/
theorem test_hdr_plain : ends (exec (.hdr 16 .riff) { ready with ch := 1, rate := 8000, bps := 2, payLen := 100 }) fun u =>
    u.hdr.fmtSize == 16 && u.hdr.aFmt == 1 && u.hdr.byteRate == 16000 && u.hdr.bAlign == 2 && u.hdr.bits == 16 &&
      u.hdr.riffSize == 136 && u.hdr.fact == 0 := by decide

/-- R183: the document's ADPCM header. -/
theorem test_hdr_adpcm : ends (exec (.hdr 4 .riff) { ready with ch := 1, rate := 8000, payLen := 256 }) fun u =>
    u.hdr.fmtSize == 20 && u.hdr.aFmt == 17 && u.hdr.bAlign == 256 && u.hdr.byteRate == 4055 && u.hdr.fact == 1 &&
      u.hdr.factLen == 512 && u.hdr.riffSize == 308 && u.hdr.vBits == 505 := by decide

/-- R217: 16 to 8 of the ends and the middle of the range. -/
theorem test_cvt_int : ends (exec (.cvt 16 8) (sampled [32767, -32768, 0])) fun u =>
    u.smpInt 0 == 255 && u.smpInt 1 == 0 && u.smpInt 2 == 128 := by decide +kernel

/-- R217: 16384 / 32767 in binary64. -/
theorem test_cvt_float : ends (exec (.cvt 16 64) (sampled [16384])) fun u =>
    u.smpCell 0 == 0x3FE0002000400080 := by decide +kernel

/-- R248: the document's nine samples. -/
theorem test_ade : ends (exec .ade (sampled [0, 16, 32, 48, 64, 48, 32, 16, 0])) fun u =>
    u.bufBytes 0 9 == [0, 0, 0, 0, 0x57, 0x32, 0xBB, 0xBC, 0] && u.nextOff == 256 && u.rcnt == 256 &&
      u.pred == 1 && u.sidx == 9 := by decide +kernel

/-- R256: a short block whose header index is above 88. -/
theorem test_add : ends (exec .add { holding [0x34, 0x12, 0xC8, 0x55, 0x70] with cnt := 5 }) fun u =>
    u.smpInt 0 == 4660 && u.smpInt 1 == 8755 && u.smpInt 2 == 32767 && u.rcnt == 3 && u.sidx == 88 := by decide +kernel

/-- R250: a block size of 3 holds no header. -/
theorem test_add_argument : ends (exec .add { holding [0, 0, 0, 0] with cnt := 4, blkAlign := 3 }) fun u =>
    u.errCode == 18 && u.errInfo == 3 := by decide

/-- R273, R275: 1000 and the two ends. -/
theorem test_ale : ends (exec .ale (sampled [1000, -32768, 32767])) fun u =>
    u.bufBytes 0 3 == [0xFA, 0x2A, 0xAA] := by decide +kernel

/-- R276, R277: 0xFA, and the least magnitude of either sign. -/
theorem test_ald : ends (exec .ald { holding [0xFA, 0xD5, 0x55] with cnt := 3 }) fun u =>
    u.smpInt 0 == 1008 && u.smpInt 1 == 8 && u.smpInt 2 == -8 := by decide +kernel

/-- R284, R286: 1000, zero and minus one. -/
theorem test_mue : ends (exec .mue (sampled [1000, 0, -1])) fun u =>
    u.bufBytes 0 3 == [0xCE, 0xFF, 0x7F] := by decide +kernel

/-- R287, R288: 0xCE, and both codes of zero. -/
theorem test_mud : ends (exec .mud { holding [0xCE, 0xFF, 0x7F] with cnt := 3 }) fun u =>
    u.smpInt 0 == 988 && u.smpInt 1 == 0 && u.smpInt 2 == 0 := by decide +kernel

/-- R332: a fresh machine answers IDX with OutOfBounds(0); the word runs as the first action after reset. -/
theorem test_first_command : ends (step (State.reset.withFetchWord 32 0x10)) fun u =>
    u.errCode == 17 && u.errInfo == 0 && u.cmd == 0x10 && u.status == 0xE && u.inputs == [] := by decide

/-! ### States that meet the hypotheses of the statements

One theorem for each statement; where a hypothesis is that a command or a step answers a state, the theorem runs it. -/

theorem witness_DecodeEncodeRoundTrip : (Instr.cvt 255 0).wellFormed = true := by decide

theorem witness_EncodeDecodeRoundTrip : decode 0x00077F04 = .ok (.wra widest) := by decide

/-- One word for each clause of R82, the reset value of CMD among them. -/
theorem witness_IllegalWordRaisesInvalidCommand :
    ready.busy = false ∧ ∀ w ∈ [0, 0x54, 0x80000010, 0x00008001, 0x00080004, 0x01000030, 0x00040020, 0x00030020],
      IllegalWord w := by
  simp only [IllegalWord]; decide

/-- The legal words with the most bits set in their fields. -/
theorem witness_legal_words : ∀ w ∈ [0x00FFFF30, 0x00077F01, 0x0002FF20], ¬ IllegalWord w := by
  simp only [IllegalWord]; decide

theorem witness_StepRunsDecodedCommand :
    ready.busy = false ∧ (before (.writeReg .CMD 0x53) ready).inputs = .writeReg .CMD 0x53 :: [] ∧
      decode 0x53 = .ok .mud := by decide

/-- An operand register of either width, STATUS with and without the bit, and a register the host cannot write. -/
theorem witness_HostRegisterWrites :
    ready.busy = false ∧ [Reg.OFF, .CH, .STATUS, .X_NDESC].all (fun r => r != .CMD) = true ∧
      (before (.writeReg .STATUS 8) ready).inputs = .writeReg .STATUS 8 :: [] := by decide

/-- The last address of each memory and the first beyond it. -/
theorem witness_HostMemoryWrites :
    ready.busy = false ∧ 65535 < ready.params.bufSize ∧ ready.params.bufSize ≤ 65536 ∧
      65535 < ready.params.smpSize ∧ ready.params.smpSize ≤ 65536 := by decide

theorem witness_ResetClearsEveryRegister :
    (before .reset { ready with status := 0xF }).inputs = .reset :: [] := by decide

/-- A set ERRSEEN cleared by the host, DONE cleared by reset, and ERR changed by a command. -/
theorem witness_StickyStatusBits :
    ends (step (before (.writeReg .STATUS 8) { ready with status := 0xA })) (fun t => !t.errSeen && t.doneFlag) = true ∧
      ends (step (before .reset { ready with status := 0xA })) (fun t => !t.errSeen && !t.doneFlag) = true ∧
      ends (step (before (.writeReg .CMD 0) ready)) (fun t => t.err != ready.err) = true := by decide

theorem witness_CommandErrorsAsListed : ends (exec (.cvt 4 8) ready) (fun t => t.errCode == 4) = true := by decide

/-- Commands that write each memory, and each group of registers. -/
theorem witness_CommandsWriteOnlyWhatTheyName :
    ends (exec .ale (sampled [5])) (fun t => t.err == false) = true ∧
      ends (exec .idx (holding minimalWave)) (fun t => t.err == false) = true ∧
      ends (exec (.cvt 8 8) (sampled [5])) (fun t => t.err == false) = true := by decide +kernel

/-- An error of the pre-check, one of an element loop, and a range error of WRV. -/
theorem witness_FailedCommandKeepsResults :
    ends (exec .idx State.reset) (fun t => t.errCode == 17) = true ∧
      ends (exec .mue (sampled [40000])) (fun t => t.errCode == 5) = true ∧
      ends (exec (.wrv (unsignedType 3 false)) { ready with valLo := 9 }) (fun t => t.errCode == 5) = true := by
  decide +kernel

/-- Either side of each bound of the closed set of types. -/
theorem witness_InvalidTypeRaisedFirst :
    ¬ ValidType (unsignedType 0 false) ∧ ¬ ValidType (signedType 54 true) ∧ ¬ ValidType (floatType 17 false) ∧
      ValidType (unsignedType 1 false) ∧ ValidType (signedType 53 true) ∧ ValidType (floatType 64 true) := by
  simp only [ValidType]; decide

/-- A 7-byte value that ends at LEN, and one byte later. -/
theorem witness_RdvReadsValue :
    ValidType (signedType 53 true) ∧
      (let s : State := { ready with off := 505 }
       s.off.toNat + nbytes (signedType 53 true) ≤ s.len) ∧
      (let s : State := { ready with off := 506 }
       s.len < s.off.toNat + nbytes (signedType 53 true)) := by
  simp only [ValidType]; decide

/-- The greatest writable value at the last place, the values just outside the range, and the first place too far. -/
theorem witness_WrvWritesValue :
    ValidType (unsignedType 12 false) ∧
      (let s : State := { ready with off := 510, valLo := 4095 }
       s.off.toNat + nbytes (unsignedType 12 false) ≤ s.len ∧ Writable (unsignedType 12 false) s.val) ∧
      typeMax (unsignedType 12 false) < ({ ready with valLo := 4096 } : State).val.toInt ∧
      ({ ready with valLo := 0xFFFFFFFF, valHi := 0xFFFFFFFF } : State).val.toInt < typeMin (unsignedType 12 false) ∧
      ready.len < ({ ready with off := 511 } : State).off.toNat + nbytes (unsignedType 12 false) := by
  simp only [ValidType, Writable]; decide

/-- Two values that end at LEN and fill the last two cells, and each bound passed by one. -/
theorem witness_RdaReadsArray :
    ValidType (floatType 32 true) ∧
      (let s : State := { ready with off := 504, cnt := 2, dst := 65534 }
       s.off.toNat + s.cnt.toNat * nbytes (floatType 32 true) ≤ s.len ∧ s.dst.toNat + s.cnt.toNat ≤ s.params.smpSize) ∧
      (let s : State := { ready with off := 504, cnt := 2, dst := 65535 }
       s.off.toNat + s.cnt.toNat * nbytes (floatType 32 true) ≤ s.len ∧ s.params.smpSize < s.dst.toNat + s.cnt.toNat) ∧
      (let s : State := { ready with off := 505, cnt := 2 }
       s.len < s.off.toNat + s.cnt.toNat * nbytes (floatType 32 true)) := by
  simp only [ValidType]; decide

/-- Two cells at the ends of the type's range, and each bound passed by one. -/
theorem witness_WraWritesArray :
    ValidType (signedType 16 false) ∧
      (let s : State := { sampled [32767, -32768] with off := 508 }
       s.off.toNat + s.cnt.toNat * nbytes (signedType 16 false) ≤ s.len ∧ s.src.toNat + s.cnt.toNat ≤ s.params.smpSize ∧
         ∀ i, i < s.cnt.toNat → Writable (signedType 16 false) (s.smpCell (s.src.toNat + i))) ∧
      (let s : State := { sampled [32767, -32768] with off := 509 }
       s.len < s.off.toNat + s.cnt.toNat * nbytes (signedType 16 false)) ∧
      (let s : State := { sampled [32767, -32768] with off := 508, src := 65535 }
       s.off.toNat + s.cnt.toNat * nbytes (signedType 16 false) ≤ s.len ∧
         s.params.smpSize < s.src.toNat + s.cnt.toNat) := by
  simp only [ValidType, Writable]; decide +kernel

/-- The second cell one above the range, and one below it. -/
theorem witness_WraRangeError :
    ValidType (signedType 16 false) ∧
      [sampled [32767, 32768], sampled [-32768, -32769]].all (fun s =>
        decide (s.off.toNat + s.cnt.toNat * nbytes (signedType 16 false) ≤ s.len) &&
          decide (s.src.toNat + s.cnt.toNat ≤ s.params.smpSize) && decide (1 < s.cnt.toNat)) = true ∧
      ∀ s, s = sampled [32767, 32768] ∨ s = sampled [-32768, -32769] →
        (∀ j, j < 1 → Writable (signedType 16 false) (s.smpCell (s.src.toNat + j))) ∧
          ¬ Writable (signedType 16 false) (s.smpCell (s.src.toNat + 1)) := by
  refine ⟨by simp only [ValidType]; decide, by decide +kernel, ?_⟩
  rintro s (rfl | rfl) <;> simp only [Writable] <;> decide +kernel

theorem witness_IntegerPackUnpackRoundTrip :
    ValidType (signedType 1 true) ∧ (signedType 1 true).isFloat = false ∧ typeMin (signedType 1 true) = -1 ∧
      typeMax (signedType 1 true) = 0 ∧ [(0xFE : Byte)].length = nbytes (signedType 1 true) := by
  simp only [ValidType]; decide

theorem witness_WrvThenRdvRestoresInteger :
    let s : State := { ready with off := 510, valLo := 0xFFFFF800, valHi := 0xFFFFFFFF }
    ValidType (signedType 12 true) ∧ (signedType 12 true).isFloat = false ∧
      s.off.toNat + nbytes (signedType 12 true) ≤ s.len ∧ typeMin (signedType 12 true) ≤ s.val.toInt ∧
      s.val.toInt ≤ typeMax (signedType 12 true) := by
  simp only [ValidType]; decide

/-- A binary16 infinity, which is no NaN, at the last place; an f64, for which any bytes do. -/
theorem witness_RdvThenWrvRestoresFloat :
    let s := holding [0x00, 0x7C]
    ValidType (floatType 16 false) ∧ (floatType 16 false).isFloat = true ∧
      s.off.toNat + nbytes (floatType 16 false) ≤ s.len ∧
      (narrowFormat (floatType 16 false)).value (s.bytesAt s.off.toNat 2 false) ≠ .nan ∧
      nbytes (floatType 16 false) = 2 ∧ ValidType (floatType 64 false) := by
  simp only [ValidType, State.bytesAt, Finset.sum_range_succ, Finset.sum_range_zero]
  decide +kernel

/-- A finite pattern, and the least number that rounds to infinity. -/
theorem witness_EncodeRoundsToNearestEven :
    binary16 ∈ [binary16, binary32, binary64] ∧ 0 < 1 ∧ binary16.encode 65519 1 < binary16.infinity ∧
      binary16.encode 65520 1 = binary16.infinity := by decide +kernel

/-- A container with a LIST of one odd-sized child, and a chunk after it. -/
def nestedWave : List Byte :=
  tagRifx ++ [0, 0, 0, 34] ++ tagWave ++
    (tagList ++ [0, 0, 0, 14] ++ [0x49, 0x4E, 0x46, 0x4F] ++ ([0x49, 0x41, 0x52, 0x54, 0, 0, 0, 1] ++ [0x41, 0])) ++
    [0x64, 0x61, 0x74, 0x61, 0, 0, 0, 0]

/-- A container whose LIST has a format tag and no children, then one too short for its tag. -/
def shortLists : List Byte :=
  tagRf64 ++ [20, 0, 0, 0] ++ tagWave ++ (tagList ++ [4, 0, 0, 0] ++ [0x49, 0x4E, 0x46, 0x4F]) ++ (tagList ++ [3, 0, 0, 0])

/-- A container of each kind. -/
theorem witness_IdxIndexesContainer :
    ((holding minimalWave).IsContainer .riff ∧ ((holding minimalWave).len - 12) / 8 ≤ (holding minimalWave).params.nDesc) ∧
      ((holding nestedWave).IsContainer .rifx ∧ ((holding nestedWave).len - 12) / 8 ≤ (holding nestedWave).params.nDesc) ∧
      ((holding shortLists).IsContainer .rf64 ∧ ((holding shortLists).len - 12) / 8 ≤ (holding shortLists).params.nDesc) := by
  simp only [State.IsContainer, State.leadingKind, State.tagAt, State.bytesAt, Finset.sum_range_succ,
    Finset.sum_range_zero]
  decide +kernel

/-- LEN at each edge of the three header reads, with a good tag where the clause needs one. -/
theorem witness_IdxHeaderErrors :
    (holding (minimalWave.take 3)).len < 4 ∧
      (let s := holding [0x52, 0x49, 0x46, 0x47]
       4 ≤ s.len ∧ s.leadingKind = none) ∧
      (let s := holding (minimalWave.take 4)
       4 ≤ s.len ∧ s.leadingKind ≠ none ∧ s.len < 8) ∧
      (let s := holding (minimalWave.take 8)
       8 ≤ s.len ∧ s.leadingKind ≠ none ∧ s.len < 12) ∧
      (let s := holding (minimalWave.take 11 ++ [0x46])
       12 ≤ s.len ∧ s.leadingKind ≠ none ∧ s.tagAt 8 ≠ 0x45564157) := by
  simp only [State.leadingKind, State.tagAt, State.bytesAt, Finset.sum_range_succ, Finset.sum_range_zero]
  decide +kernel

theorem witness_IdxRecordsMatchHeaders : ends (exec .idx (holding nestedWave)) (fun u =>
    !u.err && decide (2 < u.idx.nDesc.toNat) && (u.descRecord 0).fmtValid && (u.descRecord 1).size == 1) = true := by
  decide +kernel

theorem witness_IdxParentBeforeChild : ends (exec .idx (holding nestedWave)) (fun u =>
    !u.err && decide (1 < u.idx.nDesc.toNat) && (u.descRecord 1).parent == 0 &&
      (u.descRecord 0).parent == 0xFFFFFFFF) = true := by decide +kernel

/-- A first record, a first child, and two siblings with a LIST's child and its pad byte between them. -/
theorem witness_IdxNextSiblingAfterPadding : ends (exec .idx (holding nestedWave)) (fun u =>
    !u.err && u.idx.nDesc == 3 && (u.descRecord 1).parent == 0 && (u.descRecord 2).parent == (u.descRecord 0).parent &&
      (u.descRecord 1).parent != (u.descRecord 0).parent) = true := by decide +kernel

/-- A last sibling, a LIST with its tag and no child, a LIST too short for one, and a container with no chunk. -/
theorem witness_IdxWalksToEveryBound :
    ends (exec .idx (holding shortLists)) (fun u => !u.err && u.idx.nDesc == 2 && (u.descRecord 0).fmtValid &&
      (u.descRecord 1).isList && !(u.descRecord 1).fmtValid && (u.descRecord 1).parent == 0xFFFFFFFF) = true ∧
    ends (exec .idx (holding (minimalWave.take 12))) (fun u => !u.err && u.idx.nDesc == 0) = true := by decide +kernel

/-- DESC with room for exactly the two chunks of a container, and for one of them. -/
theorem witness_IdxTableFullAtFirstUnstoredChunk :
    (holding minimalWave).IsContainer .riff ∧
      ends (exec .idx { holding minimalWave with params := { Params.suggested with nDesc := 44 } }) (fun b =>
        b.idx.nDesc == 2) = true ∧
      ends (exec .idx { holding minimalWave with params := { Params.suggested with nDesc := 1 } }) (fun u =>
        u.errCode == 19 && u.errInfo == 36) = true := by
  refine ⟨witness_IdxIndexesContainer.1.1, ?_⟩
  decide +kernel

/-- Two machines that differ in their registers and beyond LEN. -/
theorem witness_IdxDependsOnBufferAlone :
    (holding minimalWave).len = ({ (holding minimalWave).storeBytes 44 [1] with cnt := 9 } : State).len ∧
      (∀ a, a < 44 →
        (holding minimalWave).bufByte a = ({ (holding minimalWave).storeBytes 44 [1] with cnt := 9 } : State).bufByte a) ∧
      (holding minimalWave).len = 44 := by
  refine ⟨by decide, ?_, by decide⟩
  decide +kernel

/-- The widest products that fit, a standard code with two channels, and one with three; the greatest payload of each. -/
theorem witness_HdrPcmFields :
    isIntCode 16 = true ∧ (16 ∈ [8, 16, 24, 32, 0xA0, 64]) ∧ (20 ∉ [8, 16, 24, 32, 0xA0, 64]) ∧
      (let s : State := { ready with ch := 2, bps := 32767, rate := 65538, payLen := 0xFFFFFFDA }
       s.ch.toNat * s.bps.toNat * s.rate.toNat < 2 ^ 32 ∧ s.ch.toNat * s.bps.toNat < 2 ^ 16 ∧ s.ch.toNat ≤ 2 ∧
         36 + s.payLen.toNat + s.payLen.toNat % 2 < 2 ^ 32) ∧
      (let s : State := { ready with ch := 3, bps := 4, rate := 44100, payLen := 0xFFFFFFC2 }
       s.ch.toNat * s.bps.toNat * s.rate.toNat < 2 ^ 32 ∧ s.ch.toNat * s.bps.toNat < 2 ^ 16 ∧ 2 < s.ch.toNat ∧
         60 + s.payLen.toNat + s.payLen.toNat % 2 < 2 ^ 32) := by decide

theorem witness_HdrCompressedFields :
    2 * ({ ready with payLen := 0x7FFFFFFF } : State).payLen.toNat < 2 ^ 32 ∧
      (let s : State := { ready with ch := 1, bps := 1, rate := 8000, payLen := 0xFFFFFFCA }
       s.ch.toNat * s.bps.toNat * s.rate.toNat < 2 ^ 32 ∧ s.ch.toNat * s.bps.toNat < 2 ^ 16 ∧
         52 + s.payLen.toNat + s.payLen.toNat % 2 < 2 ^ 32) := by decide

theorem witness_HdrSizeCountsChunks :
    ends (exec (.hdr 0x82 .rifx) { ready with payLen := 7 }) (fun u => !u.err && u.hdr.fact == 1) = true ∧
      ends (exec (.hdr 20 .rf64) { ready with payLen := 7 }) (fun u => !u.err && u.hdr.fact == 0) = true := by decide

/-- An invalid code, and each width passed by one while the earlier ones hold. -/
theorem witness_HdrErrors :
    (7 ≠ 4 ∧ ¬ (8 ≤ 7 ∧ 7 ≤ 53) ∧ 7 ∉ [64, 0x81, 0x82, 0xA0]) ∧
      (let s : State := { ready with ch := 1, bps := 2, rate := 0x80000000 }
       2 ^ 32 ≤ s.ch.toNat * s.bps.toNat * s.rate.toNat) ∧
      (let s : State := { ready with ch := 2, bps := 32768, rate := 65535 }
       s.ch.toNat * s.bps.toNat * s.rate.toNat < 2 ^ 32 ∧ 2 ^ 16 ≤ s.ch.toNat * s.bps.toNat) ∧
      (let s : State := { ready with payLen := 0xFFFFFFDB }
       2 ^ 32 ≤ 36 + s.payLen.toNat + s.payLen.toNat % 2) ∧
      (let s : State := { ready with payLen := 0xFFFFFFCB }
       2 ^ 32 ≤ 52 + s.payLen.toNat + s.payLen.toNat % 2) ∧
      (let s : State := { ready with payLen := 0x80000000 }
       52 + s.payLen.toNat + s.payLen.toNat % 2 < 2 ^ 32 ∧ 2 ^ 32 ≤ 2 * s.payLen.toNat) := by decide

/-- Each code check, each bound passed by one, and a conversion in place and one to the next cells. -/
theorem witness_CvtConvertsCells :
    validForCvt 7 = false ∧ validForCvt 8 = true ∧ validForCvt 54 = false ∧ validForCvt 53 = true ∧
      (let s : State := { ready with cnt := 2, src := 65535 }
       s.params.smpSize < s.src.toNat + s.cnt.toNat) ∧
      (let s : State := { ready with cnt := 2, src := 65534, dst := 65535 }
       s.src.toNat + s.cnt.toNat ≤ s.params.smpSize ∧ s.params.smpSize < s.dst.toNat + s.cnt.toNat) ∧
      (let s := sampled [257, -257]
       s.dst.toNat ≤ s.src.toNat ∧ s.dst.toNat + s.cnt.toNat ≤ s.params.smpSize ∧
         ∀ i, i < s.cnt.toNat → cvtCell 24 16 (Config.freeCvtCell s.serial i) i (s.smpCell (s.src.toNat + i)) =
           .ok (if i = 0 then 1 else -1)) ∧
      (let s : State := { sampled [257, -257] with dst := 2 }
       s.src.toNat + s.cnt.toNat ≤ s.dst.toNat) := by decide +kernel

/-- A destination one cell above the source, so that the second element converts the result of the first. -/
theorem witness_CvtOverlapFollowsOrder :
    ends (exec (.cvt 16 24) { sampled [1, 7] with dst := 1 }) (fun u =>
      !u.err && u.smpInt 1 == 256 && u.smpInt 2 == 65537) = true := by decide +kernel

/-- A NaN-free float cell, and integers whose result is the greatest a cell holds short of Overflow, and beyond. -/
theorem witness_CvtScalingFormulas :
    isIntCode 8 = true ∧ isIntCode 53 = true ∧ isFloatCode 64 = true ∧ isFloatCode 0xA0 = true ∧
      f64 0x7FF0000000000000 ≠ .nan ∧ cvtCell 8 53 0 4 0x7FFFFFFFFFFFFFFF = .error (overflow 4) ∧
      cvtCell 8 53 0 4 0x8000000000000000 = .error (underflow 4) ∧ cvtCell 8 53 0 4 255 = .ok 0xFFFFFFFFFFFFF := by
  decide +kernel

theorem witness_CvtNonPositiveScalesExactly :
    isIntCode 8 = true ∧ isIntCode 16 = true ∧ 128 ≤ 2 ^ (8 - 1) ∧ (0 : Cell).toInt = 128 - ((128 : Nat) : Int) := by
  decide

/-- The pattern of 1.0, the first beyond it, and an infinity. -/
theorem witness_CvtFloatClampsAndCopies :
    isFloatCode 0xA0 = true ∧ f64 0xBFF0000000000000 ≠ .nan ∧ f64 0x3FF0000000000001 ≠ .nan ∧
      f64 0xFFF0000000000000 ≠ .nan ∧ (0xBFF0000000000000 : Cell).toNat % 2 ^ 63 ≤ 0x3FF0000000000000 ∧
      0x3FF0000000000000 < (0x3FF0000000000001 : Cell).toNat % 2 ^ 63 := by decide +kernel

/-- A NaN and a number, in place at the end of SMP. -/
theorem witness_CvtFloatSourceNeverFails :
    isFloatCode 64 = true ∧ validForCvt 8 = true ∧ isIntCode 8 = true ∧
      (let s : State := { (ready.storeCells 65534 [0x7FF8000000000000, 0xBFF0000000000000]) with
                          cnt := 2, src := 65534, dst := 65534 }
       s.src.toNat + s.cnt.toNat ≤ s.params.smpSize ∧ s.dst.toNat ≤ s.src.toNat ∧
         f64 (s.smpCell (s.src.toNat + 0)) = .nan ∧ f64 (s.smpCell (s.src.toNat + 1)) ≠ .nan) := by decide +kernel

/-- The second element fails, by Overflow in one state and by Underflow in another. -/
theorem witness_CvtCellOverflow :
    validForCvt 8 = true ∧ validForCvt 53 = true ∧
      (∀ j, j < 1 → ∃ c, cvtCell 8 53 (Config.freeCvtCell (sampled [255, 0x7FFFFFFFFFFFFFFF]).serial j) j
        ((sampled [255, 0x7FFFFFFFFFFFFFFF]).smpCell (0 + j)) = .ok c) ∧
      cvtCell 8 53 (Config.freeCvtCell (sampled [255, 0x7FFFFFFFFFFFFFFF]).serial 1) 1
        ((sampled [255, 0x7FFFFFFFFFFFFFFF]).smpCell (0 + 1)) = .error (overflow 1) ∧
      cvtCell 8 53 (Config.freeCvtCell (sampled [255, 0x8000000000000000]).serial 1) 1
        ((sampled [255, 0x8000000000000000]).smpCell (0 + 1)) = .error (underflow 1) := by
  refine ⟨by decide, by decide, fun j hj => ?_, by decide +kernel, by decide +kernel⟩
  obtain rfl : j = 0 := by omega
  exact ⟨0xFFFFFFFFFFFFF, by decide +kernel⟩

/-- Two samples whose one block ends at LEN, each bound passed by one, and no sample at all. -/
theorem witness_AdeEncodesBlocks :
    (let s : State := { sampled [32767, -32768] with off := 256 }
     s.off.toNat + 256 * ((s.cnt.toNat + 504) / 505) ≤ s.len ∧ s.src.toNat + s.cnt.toNat ≤ s.params.smpSize ∧
       ∀ i, i < s.cnt.toNat → IsSample16 (s.smpInt (s.src.toNat + i))) ∧
      (let s : State := { sampled [1] with off := 257 }
       s.len < s.off.toNat + 256 * ((s.cnt.toNat + 504) / 505)) ∧
      (let s : State := { sampled [1] with src := 65536 }
       s.off.toNat + 256 * ((s.cnt.toNat + 504) / 505) ≤ s.len ∧ s.params.smpSize < s.src.toNat + s.cnt.toNat) ∧
      (let s : State := { ready with off := 512, src := 65536 }
       s.cnt = 0 ∧ s.off.toNat + 256 * ((s.cnt.toNat + 504) / 505) ≤ s.len ∧
         s.src.toNat + s.cnt.toNat ≤ s.params.smpSize) := by
  simp only [IsSample16]; decide +kernel

/-- A last block that holds two samples. -/
theorem witness_AdeCodesFollowEnc :
    ends (exec .ade (sampled [77, 78])) (fun u => !u.err && u.rcnt == 256) = true ∧
      505 * 0 < (sampled [77, 78]).cnt.toNat ∧ (sampled [77, 78]).cnt.toNat ≤ 505 * (0 + 1) := by decide +kernel

/-- CNT = 506 samples: a full block that a second one follows. -/
def twoBlocks (cells : List Cell) : State := { ready.storeCells 0 cells with cnt := 506 }

/-- ADE of any 506 cells that hold 77 ends without error. -/
theorem twoBlocks_ends {cells : List Cell} (hl : cells.length = 506) (h : ∀ c ∈ cells, c = 77) :
    ∃ u, exec .ade (twoBlocks cells) = .next u ∧ u.err = false := by
  have hcell : ∀ k < 506, (twoBlocks cells).smpInt (0 + k) = 77 := fun k hk => by
    have : (twoBlocks cells).smpCell (0 + k) = (ready.storeCells 0 cells).smpCell (0 + k) :=
      State.smpCell_congr rfl rfl _
    rw [State.smpInt, this, State.storeCells_smpCell, dif_pos (by omega), h _ (List.getElem_mem _)]
    decide
  obtain ⟨xs, hxs⟩ : ∃ xs, (twoBlocks cells).samples16 = .ok xs := collect_complete fun k hk =>
    ⟨77, checkSample16_ok.mpr (by
      rw [Nat.zero_add, show (twoBlocks cells).smpInt ((twoBlocks cells).src.toNat + k) = 77 from hcell k hk]
      decide)⟩
  simp only [exec, execAde, hxs]
  have h1 : ¬ (twoBlocks cells).bufOutside (256 * (twoBlocks cells).adeBlocks) := by
    rw [State.bufOutside, show (twoBlocks cells).len = ready.len from rfl,
      show (twoBlocks cells).adeBlocks = (506 + 504) / 505 from rfl]
    exact (show ¬ ready.len < 0 + 256 * ((506 + 504) / 505) by decide)
  have h2 : ¬ (twoBlocks cells).srcOutside (twoBlocks cells).cnt.toNat := show ¬ 65536 < 0 + 506 by decide
  rw [if_neg h1, if_neg h2]
  exact ⟨_, rfl, State.completed_err _⟩

/-- A full block, whose end the next block's header records. -/
theorem witness_AdeCodesFollowEnc_nextBlock :
    (∃ u, exec .ade (twoBlocks (List.replicate 506 77)) = .next u ∧ u.err = false) ∧
      505 * (0 + 1) < (twoBlocks (List.replicate 506 77)).cnt.toNat :=
  ⟨twoBlocks_ends List.length_replicate fun _ h => List.eq_of_mem_replicate h, show 505 * (0 + 1) < 506 by decide⟩

/-- Each argument and bound at its edge: block sizes 3 and 4, a trailing block of 4 bytes, and fewer than 4 bytes. -/
theorem witness_AddDecodesBlocks :
    ready.params.wf ∧
      (let s : State := { ready with blkAlign := 3 }
       ¬ s.blkAlign = 0 ∧ s.blkAlign.toNat < 4) ∧
      (let s : State := { ready with blkAlign := 4, cnt := 8, off := 504, dst := 65534 }
       4 ≤ s.blkAlign.toNat ∧ s.off.toNat + s.cnt.toNat ≤ s.len ∧
         s.dst.toNat + s.cnt.toNat / s.blkAlign.toNat * (1 + 2 * (s.blkAlign.toNat - 4)) ≤ s.params.smpSize) ∧
      (let s : State := { ready with cnt := 8, off := 505 }
       s.len < s.off.toNat + s.cnt.toNat) ∧
      (let s : State := { ready with blkAlign := 4, cnt := 8, off := 504, dst := 65535 }
       s.params.smpSize < s.dst.toNat + s.cnt.toNat / s.blkAlign.toNat * (1 + 2 * (s.blkAlign.toNat - 4))) := by
  decide

/-- A full block of five bytes and a trailing one of four: two blocks, the last of which leaves the state. -/
theorem witness_AddSamplesFollowDec :
    let s : State := { holding [1, 0, 0, 0, 0x57, 2, 0, 5, 0] with cnt := 9, blkAlign := 5 }
    ends (exec .add s) (fun u => !u.err && u.rcnt == 4) = true ∧ 4 ≤ min 5 (s.cnt.toNat - 1 * 5) ∧
      s.cnt.toNat < (1 + 1) * 5 + 4 := by decide +kernel

theorem witness_AdeThenAddReturnsPredictions :
    ends (exec .ade (sampled [0, 16, 32])) (fun u =>
      !u.err && decide (({ u with cnt := u.rcnt, blkAlign := 256, dst := 65031 } : State).dst.toNat + 505 * ((3 + 504) / 505)
        ≤ u.params.smpSize) && decide u.params.wf) = true := by decide +kernel

/-- The second sample one above the range, and one below it, for all three encoders. -/
theorem witness_EncoderRangeErrors :
    ∀ i ∈ [Instr.ade, .ale, .mue], ∀ s ∈ [sampled [32767, 32768], sampled [-32768, -32769]],
      s.off.toNat + bufExtent i s ≤ s.len ∧ s.src.toNat + s.cnt.toNat ≤ s.params.smpSize ∧ 1 < s.cnt.toNat ∧
        (∀ j, j < 1 → IsSample16 (s.smpInt (s.src.toNat + j))) ∧ ¬ IsSample16 (s.smpInt (s.src.toNat + 1)) := by
  simp only [IsSample16]; decide +kernel

theorem witness_CompandersEncode :
    (let s : State := { sampled [32767, -32768] with off := 510 }
     s.off.toNat + s.cnt.toNat ≤ s.len ∧ s.src.toNat + s.cnt.toNat ≤ s.params.smpSize ∧
       ∀ k, k < s.cnt.toNat → IsSample16 (s.smpInt (s.src.toNat + k))) ∧
      (let s : State := { sampled [1, 2] with off := 511 }
       s.len < s.off.toNat + s.cnt.toNat) ∧
      (let s : State := { sampled [1, 2] with src := 65535 }
       s.off.toNat + s.cnt.toNat ≤ s.len ∧ s.params.smpSize < s.src.toNat + s.cnt.toNat) := by
  simp only [IsSample16]; decide +kernel

theorem witness_CompandersDecode :
    (let s : State := { ready with cnt := 2, off := 510, dst := 65534 }
     s.off.toNat + s.cnt.toNat ≤ s.len ∧ s.dst.toNat + s.cnt.toNat ≤ s.params.smpSize) ∧
      (let s : State := { ready with cnt := 2, off := 511 }
       s.len < s.off.toNat + s.cnt.toNat) ∧
      (let s : State := { ready with cnt := 2, off := 510, dst := 65535 }
       s.off.toNat + s.cnt.toNat ≤ s.len ∧ s.params.smpSize < s.dst.toNat + s.cnt.toNat) := by decide

theorem witness_CompandingErrorBounds : IsSample16 (-32768) ∧ IsSample16 32767 ∧ IsSample16 (-32635) := by
  simp only [IsSample16]; decide

/-- A machine that meets all four invariants and takes a step that changes memory, PRED and the flags. -/
theorem witness_StepKeepsInvariants :
    ends (step (before (.writeReg .CMD 0x40) (sampled [0, 16, 32]))) (fun t => t.pred == 33 && t.sidx == 12) = true ∧
      (sampled [0, 16, 32]).AdpcmInRange ∧ (sampled [0, 16, 32]).Idle ∧ (sampled [0, 16, 32]).StatusAgrees ∧
      (sampled [0, 16, 32]).ErrCodeKnown ∧ (sampled [0, 16, 32]).HeaderPrefix ∧ (sampled [0, 16, 32]).KindsLegal ∧
      (sampled [0, 16, 32]).MemoriesCanonical := by
  simp only [State.AdpcmInRange, State.Idle, State.StatusAgrees, State.ErrCodeKnown, State.HeaderPrefix,
    State.KindsLegal, State.MemoriesCanonical]
  decide +kernel

end Sys2Proof.Tests
end

section
/-! PROOF of O24 (00_scope.md R15, 40_value_codec.md R111, R113). Between two neighbouring powers of two the patterns of a
format encode consecutive multiples of one spacing, so rounding there is rounding of a quotient to a natural number. The
magnitudes grow with the patterns, so no pattern from outside that range is nearer; this includes the patterns from
infinity on, read as finite ones, and the threshold of infinity is then the midpoint of the last step. -/

namespace Sys2Proof.Machine

/-! ### Rounding a quotient -/

/-- The three branches of the rounding, by the part `t` of the quotient past its floor. -/
theorem roundNearestEven_cases (n : Nat) {d : Nat} (hd : 0 < d) :
    ∃ t : ℚ, (n : ℚ) / d = (n / d : Nat) + t ∧ 0 ≤ t ∧ t < 1 ∧
      ((t < 1 / 2 ∧ roundNearestEven n d = n / d) ∨ (1 / 2 < t ∧ roundNearestEven n d = n / d + 1) ∨
        (t = 1 / 2 ∧ roundNearestEven n d = n / d + n / d % 2)) := by
  have hdq : (0 : ℚ) < d := by exact_mod_cast hd
  have hlow : ((n % d : Nat) : ℚ) / d < 1 / 2 ↔ 2 * (n % d) < d := by
    rw [div_lt_div_iff₀ hdq two_pos, one_mul, mul_comm]
    exact_mod_cast Iff.rfl
  have hhigh : 1 / 2 < ((n % d : Nat) : ℚ) / d ↔ d < 2 * (n % d) := by
    rw [div_lt_div_iff₀ two_pos hdq, one_mul, mul_comm _ (2 : ℚ)]
    exact_mod_cast Iff.rfl
  refine ⟨(n % d : Nat) / d, ?_, by positivity, ?_, ?_⟩
  · rw [div_eq_iff hdq.ne', add_mul, div_mul_cancel₀ _ hdq.ne']
    exact_mod_cast (Nat.div_add_mod' n d).symm
  · rw [div_lt_one hdq]
    exact_mod_cast Nat.mod_lt n hd
  · unfold roundNearestEven
    rcases lt_trichotomy (((n % d : Nat) : ℚ) / d) (1 / 2) with h | h | h
    · exact .inl ⟨h, if_pos (hlow.1 h)⟩
    · refine .inr (.inr ⟨h, ?_⟩)
      rw [if_neg (mt hlow.2 h.not_lt), if_neg (mt hhigh.2 h.not_gt)]
    · refine .inr (.inl ⟨h, ?_⟩)
      rw [if_neg (mt hlow.2 h.not_gt), if_pos (hhigh.1 h)]

/-- No natural number is nearer to the quotient, and of two equally near the one given is even (R15). -/
theorem roundNearestEven_nearest (n : Nat) {d : Nat} (hd : 0 < d) (j : Nat) :
    |(roundNearestEven n d : ℚ) - n / d| ≤ |(j : ℚ) - n / d| ∧
      (|(roundNearestEven n d : ℚ) - n / d| = |(j : ℚ) - n / d| →
        j = roundNearestEven n d ∨ roundNearestEven n d % 2 = 0) := by
  obtain ⟨t, hx, ht0, ht1, hk⟩ := roundNearestEven_cases n hd
  generalize roundNearestEven n d = k at hk ⊢
  generalize n / d = q at hx hk
  rw [hx]
  -- Seen from `q + t`, every `j` up to `q` is at least `t` away and every later one at least `1 - t`.
  have hj : ((j : ℚ) ≤ q ∧ |(j : ℚ) - (q + t)| = q + t - j) ∨
      ((q : ℚ) + 1 ≤ j ∧ |(j : ℚ) - (q + t)| = j - (q + t)) := by
    rcases Nat.lt_or_ge q j with h | h
    · have hc : (q : ℚ) + 1 ≤ j := by exact_mod_cast h
      exact .inr ⟨hc, abs_of_nonneg (by linarith)⟩
    · have hc : (j : ℚ) ≤ q := by exact_mod_cast h
      exact .inl ⟨hc, by rw [abs_of_nonpos (by linarith)]; ring⟩
  have hfloor : |(q : ℚ) - (q + t)| = t := by rw [sub_add_cancel_left, abs_neg, abs_of_nonneg ht0]
  have hceil : |((q + 1 : Nat) : ℚ) - (q + t)| = 1 - t := by
    rw [Nat.cast_add_one, add_sub_add_left_eq_sub, abs_of_pos (by linarith)]
  rcases hk with ⟨ht, rfl⟩ | ⟨ht, rfl⟩ | ⟨ht, hk⟩
  · rw [hfloor]
    rcases hj with ⟨hjq, hdist⟩ | ⟨hjq, hdist⟩
    · refine ⟨by linarith, fun heq => .inl ?_⟩
      have : (j : ℚ) = k := by linarith
      exact_mod_cast this
    · exact ⟨by linarith, fun heq => absurd heq (by linarith)⟩
  · rw [hceil]
    rcases hj with ⟨hjq, hdist⟩ | ⟨hjq, hdist⟩
    · exact ⟨by linarith, fun heq => absurd heq (by linarith)⟩
    · refine ⟨by linarith, fun heq => .inl ?_⟩
      have : (j : ℚ) = (q + 1 : Nat) := by push_cast; linarith
      exact_mod_cast this
  · have htied : |(k : ℚ) - (q + t)| = 1 / 2 := by
      rcases Nat.mod_two_eq_zero_or_one q with h | h
      · rw [hk, h, add_zero, hfloor, ht]
      · rw [hk, h, hceil, ht]; norm_num
    rw [htied]
    refine ⟨?_, fun _ => .inr (by omega)⟩
    rcases hj with ⟨hjq, hdist⟩ | ⟨hjq, hdist⟩ <;> linarith

/-- A natural number at most the quotient is at most what it is rounded to. -/
theorem le_roundNearestEven {n d a : Nat} (hd : 0 < d) (h : (a : ℚ) ≤ n / d) : a ≤ roundNearestEven n d := by
  by_contra! hlt
  have hc : (roundNearestEven n d : ℚ) < a := by exact_mod_cast hlt
  have hnear := (roundNearestEven_nearest n hd a).1
  rw [abs_of_nonpos (by linarith), abs_of_nonpos (by linarith)] at hnear
  linarith

/-- A natural number at least the quotient is at least what it is rounded to. -/
theorem roundNearestEven_le {n d a : Nat} (hd : 0 < d) (h : (n : ℚ) / d ≤ a) : roundNearestEven n d ≤ a := by
  by_contra! hlt
  have hc : (a : ℚ) < roundNearestEven n d := by exact_mod_cast hlt
  have hnear := (roundNearestEven_nearest n hd a).1
  rw [abs_of_nonneg (by linarith), abs_of_nonneg (by linarith)] at hnear
  linarith

/-! ### The magnitudes of the patterns -/

/-- The distance between neighbouring magnitudes where the exponent field is `e`; that of field 1 serves field 0 too. -/
def FloatFormat.spacing (f : FloatFormat) (e : Nat) : ℚ := 2 ^ e / 2 ^ (f.bias + f.fracBits)

theorem FloatFormat.spacing_pos (f : FloatFormat) (e : Nat) : 0 < f.spacing e := by
  unfold FloatFormat.spacing; positivity

/-- `k` counts spacings of exponent field `e + 1`: at least half the full count, unless the field is the lowest, and at
most the full count, which is the first magnitude of the next field. -/
def FloatFormat.Counts (f : FloatFormat) (e k : Nat) : Prop :=
  (e = 0 ∨ 2 ^ f.fracBits ≤ k) ∧ k ≤ 2 * 2 ^ f.fracBits

/-- The magnitude by the two fields of the pattern. -/
theorem FloatFormat.magnitude_fields (f : FloatFormat) (e : Nat) {m : Nat} (h : m < 2 ^ f.fracBits) :
    f.magnitude (e * 2 ^ f.fracBits + m) =
      (if e = 0 then (m : ℚ) * 2 else (2 ^ f.fracBits + m) * 2 ^ e) / 2 ^ (f.bias + f.fracBits) := by
  have hdiv : (e * 2 ^ f.fracBits + m) / 2 ^ f.fracBits = e := by
    rw [Nat.add_comm, Nat.add_mul_div_right _ _ (Nat.two_pow_pos _), Nat.div_eq_of_lt h, Nat.zero_add]
  have hmod : (e * 2 ^ f.fracBits + m) % 2 ^ f.fracBits = m := by
    rw [Nat.add_comm, Nat.add_mul_mod_self_right, Nat.mod_eq_of_lt h]
  simp only [FloatFormat.magnitude, hdiv, hmod]

/-- A pattern encodes as many spacings as it lies past the start of its field's count. -/
theorem FloatFormat.magnitude_of_counts (f : FloatFormat) {e k : Nat} (h : f.Counts e k) :
    f.magnitude (e * 2 ^ f.fracBits + k) = k * f.spacing (e + 1) := by
  obtain ⟨hlo, hhi⟩ := h
  have hF : 0 < 2 ^ f.fracBits := Nat.two_pow_pos _
  unfold FloatFormat.spacing
  rcases Nat.lt_or_ge k (2 ^ f.fracBits) with hk | hk
  · obtain rfl : e = 0 := by omega
    rw [f.magnitude_fields 0 hk, if_pos rfl]
    ring
  rcases hhi.lt_or_eq with hk2 | rfl
  · obtain ⟨m, rfl⟩ := Nat.exists_eq_add_of_le hk
    rw [show e * 2 ^ f.fracBits + (2 ^ f.fracBits + m) = (e + 1) * 2 ^ f.fracBits + m by ring,
      f.magnitude_fields (e + 1) (by omega), if_neg e.succ_ne_zero]
    push_cast
    ring
  · rw [show e * 2 ^ f.fracBits + 2 * 2 ^ f.fracBits = (e + 2) * 2 ^ f.fracBits + 0 by ring,
      f.magnitude_fields (e + 2) hF, if_neg (e + 1).succ_ne_zero]
    push_cast
    ring

/-- Every pattern is a count of spacings, short of the first magnitude of the next field. -/
theorem FloatFormat.exists_counts (f : FloatFormat) (p : Nat) :
    ∃ e k, p = e * 2 ^ f.fracBits + k ∧ f.Counts e k ∧ f.Counts e (k + 1) := by
  have hF : 0 < 2 ^ f.fracBits := Nat.two_pow_pos _
  have hsplit : p / 2 ^ f.fracBits * 2 ^ f.fracBits + p % 2 ^ f.fracBits = p := Nat.div_add_mod' ..
  have hmod : p % 2 ^ f.fracBits < 2 ^ f.fracBits := Nat.mod_lt _ hF
  unfold FloatFormat.Counts
  cases hfield : p / 2 ^ f.fracBits with
  | zero =>
    rw [hfield] at hsplit
    exact ⟨0, p % 2 ^ f.fracBits, hsplit.symm, by omega, by omega⟩
  | succ e =>
    rw [hfield, Nat.succ_mul] at hsplit
    exact ⟨e, 2 ^ f.fracBits + p % 2 ^ f.fracBits, by omega, by omega, by omega⟩

/-- Magnitudes grow with the patterns, through every change of field and past infinity. -/
theorem FloatFormat.magnitude_strictMono (f : FloatFormat) : StrictMono f.magnitude := by
  refine strictMono_nat_of_lt_succ fun p => ?_
  obtain ⟨e, k, rfl, hk, hk1⟩ := f.exists_counts p
  rw [Nat.add_assoc, f.magnitude_of_counts hk, f.magnitude_of_counts hk1]
  exact mul_lt_mul_of_pos_right (by exact_mod_cast k.lt_succ_self) (f.spacing_pos _)

/-! ### The pattern before the clip at infinity -/

/-- The exponent field `encode` rounds in, less one. -/
def FloatFormat.field (f : FloatFormat) (num den : Nat) : Nat :=
  max 1 (Nat.log2 (num * 2 ^ (f.bias + f.fracBits) / den) - f.fracBits) - 1

/-- How many spacings of that field the number is rounded to. -/
def FloatFormat.count (f : FloatFormat) (num den : Nat) : Nat :=
  roundNearestEven (num * 2 ^ (f.bias + f.fracBits)) (den * 2 ^ (f.field num den + 1))

/-- The quotient rounded to that count: the number in units of the spacing. -/
def FloatFormat.quotient (f : FloatFormat) (num den : Nat) : ℚ :=
  (num * 2 ^ (f.bias + f.fracBits) : Nat) / (den * 2 ^ (f.field num den + 1) : Nat)

/-- The pattern `encode` gives when the format's exponents have no end. -/
def FloatFormat.unclipped (f : FloatFormat) (num den : Nat) : Nat :=
  f.field num den * 2 ^ f.fracBits + f.count num den

theorem FloatFormat.encode_eq_min (f : FloatFormat) (num den : Nat) :
    f.encode num den = min (f.unclipped num den) f.infinity := by
  have hsucc : f.field num den + 1 = max 1 (Nat.log2 (num * 2 ^ (f.bias + f.fracBits) / den) - f.fracBits) :=
    Nat.sub_add_cancel (le_max_left ..)
  unfold FloatFormat.unclipped FloatFormat.count
  rw [hsucc]
  rfl

section
variable (f : FloatFormat) (num : Nat) {den : Nat} (hden : 0 < den)
include hden

theorem FloatFormat.quotient_mul_spacing :
    f.quotient num den * f.spacing (f.field num den + 1) = num / den := by
  have hdq : (den : ℚ) ≠ 0 := by exact_mod_cast hden.ne'
  unfold FloatFormat.quotient FloatFormat.spacing
  push_cast
  field_simp

/-- The count is the quotient rounded to nearest even. -/
theorem FloatFormat.count_nearest (j : Nat) :
    |(f.count num den : ℚ) - f.quotient num den| ≤ |(j : ℚ) - f.quotient num den| ∧
      (|(f.count num den : ℚ) - f.quotient num den| = |(j : ℚ) - f.quotient num den| →
        j = f.count num den ∨ f.count num den % 2 = 0) :=
  roundNearestEven_nearest _ (Nat.mul_pos hden (Nat.two_pow_pos _)) j

/-- The field's spacing suits the number: the quotient lies where the field counts. -/
theorem FloatFormat.quotient_bounds :
    (f.field num den = 0 ∨ ((2 ^ f.fracBits : Nat) : ℚ) ≤ f.quotient num den) ∧
      f.quotient num den ≤ (2 * 2 ^ f.fracBits : Nat) := by
  unfold FloatFormat.quotient
  have hfield : f.field num den =
    max 1 (Nat.log2 (num * 2 ^ (f.bias + f.fracBits) / den) - f.fracBits) - 1 := rfl
  generalize f.field num den = e at hfield ⊢
  generalize num * 2 ^ (f.bias + f.fracBits) = scaled at hfield ⊢
  have hdpos : (0 : ℚ) < (den * 2 ^ (e + 1) : Nat) := by exact_mod_cast Nat.mul_pos hden (Nat.two_pow_pos _)
  constructor
  · refine or_iff_not_imp_left.2 fun he => ?_
    have hlog : f.fracBits + (e + 1) = Nat.log2 (scaled / den) := by omega
    have hne : scaled / den ≠ 0 := fun h0 => by simp [h0] at hlog
    have hle : 2 ^ (f.fracBits + (e + 1)) ≤ scaled / den := by rw [hlog]; exact Nat.log2_self_le hne
    rw [le_div_iff₀ hdpos]
    have := (Nat.le_div_iff_mul_le hden).1 hle
    rw [pow_add, Nat.mul_assoc, Nat.mul_comm _ den] at this
    exact_mod_cast this
  · have hlog : Nat.log2 (scaled / den) < f.fracBits + (e + 1) + 1 := by omega
    have hlt : scaled / den < 2 ^ (f.fracBits + (e + 1) + 1) :=
      Nat.lt_log2_self.trans_le (Nat.pow_le_pow_right two_pos hlog)
    rw [div_le_iff₀ hdpos]
    have := ((Nat.div_lt_iff_lt_mul hden).1 hlt).le
    rw [show 2 ^ (f.fracBits + (e + 1) + 1) * den = 2 * 2 ^ f.fracBits * (den * 2 ^ (e + 1)) by ring] at this
    exact_mod_cast this

/-- The rounded count stays within the field, the first magnitude of the next field included. -/
theorem FloatFormat.field_counts : f.Counts (f.field num den) (f.count num den) := by
  have hd : 0 < den * 2 ^ (f.field num den + 1) := Nat.mul_pos hden (Nat.two_pow_pos _)
  obtain ⟨hlo, hhi⟩ := f.quotient_bounds num hden
  exact ⟨hlo.imp_right (le_roundNearestEven hd), roundNearestEven_le hd hhi⟩

/-- Among the patterns the field counts, none is nearer to the number, and of two equally near the count is even. -/
theorem FloatFormat.unclipped_nearest_of_counts {j : Nat} (hj : f.Counts (f.field num den) j) :
    |f.magnitude (f.unclipped num den) - num / den| ≤
        |f.magnitude (f.field num den * 2 ^ f.fracBits + j) - num / den| ∧
      (|f.magnitude (f.unclipped num den) - num / den| =
          |f.magnitude (f.field num den * 2 ^ f.fracBits + j) - num / den| →
        j = f.count num den ∨ f.count num den % 2 = 0) := by
  have hpos := f.spacing_pos (f.field num den + 1)
  obtain ⟨hle, htie⟩ := f.count_nearest num hden j
  unfold FloatFormat.unclipped
  rw [f.magnitude_of_counts hj, f.magnitude_of_counts (f.field_counts num hden),
    ← f.quotient_mul_spacing num hden, ← sub_mul, ← sub_mul, abs_mul, abs_mul,
    abs_of_pos hpos, mul_le_mul_iff_left₀ hpos, mul_left_inj' hpos.ne']
  exact ⟨hle, htie⟩

/-- The number lies between the first magnitude the field counts and the last. -/
theorem FloatFormat.field_brackets :
    (f.field num den = 0 ∨ f.magnitude (f.field num den * 2 ^ f.fracBits + 2 ^ f.fracBits) ≤ num / den) ∧
      (num : ℚ) / den ≤ f.magnitude (f.field num den * 2 ^ f.fracBits + 2 * 2 ^ f.fracBits) := by
  have hpos := f.spacing_pos (f.field num den + 1)
  obtain ⟨hlo, hhi⟩ := f.quotient_bounds num hden
  rw [f.magnitude_of_counts ⟨.inr le_rfl, by omega⟩, f.magnitude_of_counts ⟨.inr (by omega), le_rfl⟩,
    ← f.quotient_mul_spacing num hden, mul_le_mul_iff_left₀ hpos, mul_le_mul_iff_left₀ hpos]
  exact ⟨hlo, hhi⟩

/-- No pattern at all is nearer to the number, and of two equally near the one given is even. -/
theorem FloatFormat.unclipped_nearest (hfrac : 2 ^ f.fracBits % 2 = 0) (q : Nat) :
    |f.magnitude (f.unclipped num den) - num / den| ≤ |f.magnitude q - num / den| ∧
      (|f.magnitude (f.unclipped num den) - num / den| = |f.magnitude q - num / den| →
        q = f.unclipped num den ∨ f.unclipped num den % 2 = 0) := by
  obtain ⟨hlo, hhi⟩ := f.field_brackets num hden
  have hin (j : Nat) (hj : f.Counts (f.field num den) j) := f.unclipped_nearest_of_counts num hden hj
  -- A pattern outside the field's count is farther than the end of the count it lies beyond.
  suffices hq : (∃ j, f.Counts (f.field num den) j ∧ q = f.field num den * 2 ^ f.fracBits + j) ∨
      |f.magnitude (f.unclipped num den) - num / den| < |f.magnitude q - num / den| by
    rcases hq with ⟨j, hj, rfl⟩ | hlt
    · refine ⟨(hin j hj).1, fun heq => ((hin j hj).2 heq).imp (fun h => ?_) fun h => ?_⟩
      · rw [h, FloatFormat.unclipped]
      · rw [FloatFormat.unclipped, Nat.add_mod, Nat.mul_mod, hfrac, h, Nat.mul_zero]
    · exact ⟨hlt.le, fun heq => absurd heq hlt.ne⟩
  rcases Nat.lt_or_ge (f.field num den * 2 ^ f.fracBits + 2 * 2 ^ f.fracBits) q with hq | hq
  · right
    have hmag := f.magnitude_strictMono hq
    refine (hin _ ⟨.inr (by omega), le_rfl⟩).1.trans_lt ?_
    rw [abs_of_nonneg (by linarith), abs_of_nonneg (by linarith)]
    linarith
  by_cases hbelow : f.field num den ≠ 0 ∧ q < f.field num den * 2 ^ f.fracBits + 2 ^ f.fracBits
  · right
    have hmag := f.magnitude_strictMono hbelow.2
    have hlo := hlo.resolve_left hbelow.1
    refine (hin _ ⟨.inr le_rfl, by omega⟩).1.trans_lt ?_
    rw [abs_of_nonpos (by linarith), abs_of_nonpos (by linarith)]
    linarith
  · left
    rcases Nat.eq_zero_or_pos (f.field num den) with h0 | h0
    · exact ⟨q, ⟨.inl h0, by rw [h0] at hq; omega⟩, by rw [h0]; omega⟩
    · exact ⟨q - f.field num den * 2 ^ f.fracBits, ⟨.inr (by omega), by omega⟩, by omega⟩

end

/-! ### The clip at infinity -/

/-- What the clip needs of a format: fractions of at least one bit and exponents of at least two, so that the pattern of
infinity is even and the last finite one is no subnormal. -/
def FloatFormat.Proper (f : FloatFormat) : Prop := 1 ≤ f.fracBits ∧ 2 ≤ f.expBits

/-- Half a unit above the largest finite magnitude (R111, R113). -/
def FloatFormat.threshold (f : FloatFormat) : ℚ := 2 ^ f.bias * (2 - 1 / 2 ^ (f.fracBits + 1))

theorem FloatFormat.proper_of_mem : ∀ f ∈ [binary16, binary32, binary64], f.Proper := by
  unfold FloatFormat.Proper
  decide

section
variable {f : FloatFormat} (hf : f.Proper)
include hf

theorem FloatFormat.Proper.two_pow_fracBits_even : 2 ^ f.fracBits % 2 = 0 := by
  obtain ⟨n, hn⟩ := Nat.exists_eq_add_of_le' hf.1
  rw [hn, pow_succ, Nat.mul_mod_left]

/-- The bias is positive and the largest exponent field is one more than twice it. -/
theorem FloatFormat.Proper.maxExp_eq : 1 ≤ f.bias ∧ f.maxExp = 2 * f.bias + 1 := by
  obtain ⟨n, hn⟩ := Nat.exists_eq_add_of_le' hf.2
  have := Nat.two_pow_pos n
  simp only [FloatFormat.bias, FloatFormat.maxExp, hn, Nat.add_succ_sub_one, pow_succ]
  omega

/-- The threshold of infinity is half a spacing away from the last finite magnitude and from infinity read as finite. -/
theorem FloatFormat.Proper.threshold_midpoint :
    ∃ half : ℚ, 0 < half ∧
      f.magnitude (f.infinity - 1) + half = f.threshold ∧
      f.magnitude f.infinity - half = f.threshold := by
  obtain ⟨hbias, hmax⟩ := hf.maxExp_eq
  have hF : 0 < 2 ^ f.fracBits := Nat.two_pow_pos _
  obtain ⟨b, hb⟩ := Nat.exists_eq_add_of_le' hbias
  have hinf : f.infinity = (2 * b + 1) * 2 ^ f.fracBits + 2 * 2 ^ f.fracBits := by
    rw [FloatFormat.infinity, hmax, hb]; ring
  have hlast : f.infinity - 1 = (2 * b + 1) * 2 ^ f.fracBits + (2 * 2 ^ f.fracBits - 1) := by omega
  have hspacing : f.spacing (2 * b + 1 + 1) = 2 ^ f.bias / 2 ^ f.fracBits := by
    unfold FloatFormat.spacing
    rw [hb]
    field_simp
    ring
  unfold FloatFormat.threshold
  refine ⟨f.spacing (2 * b + 1 + 1) / 2, half_pos (f.spacing_pos _), ?_, ?_⟩
  · rw [hlast, f.magnitude_of_counts ⟨.inr (by omega), by omega⟩, hspacing, Nat.cast_sub (by omega)]
    push_cast
    field_simp
    ring
  · rw [hinf, f.magnitude_of_counts ⟨.inr (by omega), le_rfl⟩, hspacing]
    push_cast
    field_simp
    ring

/-- The pattern before the clip reaches infinity exactly from the threshold on: at the midpoint itself the tie goes to
infinity, whose pattern is even. -/
theorem FloatFormat.Proper.infinity_le_unclipped_iff (num : Nat) {den : Nat} (hden : 0 < den) :
    f.infinity ≤ f.unclipped num den ↔ f.threshold ≤ num / den := by
  obtain ⟨half, hpos, hlast, hinf⟩ := hf.threshold_midpoint
  have hnear := f.unclipped_nearest num hden hf.two_pow_fracBits_even
  generalize f.unclipped num den = p at hnear ⊢
  constructor
  · intro hp
    by_contra! hx
    have hmag := f.magnitude_strictMono.monotone hp
    have hfar : |f.magnitude (f.infinity - 1) - num / den| < |f.magnitude p - num / den| := by
      have hright : |f.magnitude p - num / den| = f.magnitude p - num / den := abs_of_pos (by linarith)
      rw [hright, abs_lt]
      constructor <;> linarith
    exact absurd (hnear _).1 hfar.not_ge
  · intro hx
    by_contra! hp
    have hmag := f.magnitude_strictMono.monotone (Nat.le_sub_one_of_lt hp)
    obtain ⟨hle, htie⟩ := hnear f.infinity
    rw [abs_of_nonpos (by linarith)] at hle htie
    have hge : |f.magnitude f.infinity - num / den| ≤ num / den - f.magnitude p := by
      rw [abs_le]
      constructor <;> linarith
    have hlastp : p = f.infinity - 1 := by
      refine f.magnitude_strictMono.injective (hmag.eq_of_not_lt fun hlt => ?_)
      have hcloser : |f.magnitude f.infinity - num / den| < num / den - f.magnitude p := by
        rw [abs_lt]
        constructor <;> linarith
      linarith
    have heven : f.infinity % 2 = 0 := by
      rw [FloatFormat.infinity, Nat.mul_mod, hf.two_pow_fracBits_even, Nat.mul_zero, Nat.zero_mod]
    rcases htie (by linarith) with h | h <;> omega

/-- `encode` answers infinity from the threshold on (R111, R113). -/
theorem FloatFormat.Proper.encode_eq_infinity_iff (num : Nat) {den : Nat} (hden : 0 < den) :
    f.encode num den = f.infinity ↔ f.threshold ≤ num / den := by
  rw [f.encode_eq_min, min_eq_right_iff, hf.infinity_le_unclipped_iff num hden]

/-- Short of infinity `encode` answers a nearest pattern, the even one of two (R15). -/
theorem FloatFormat.Proper.encode_nearest {num den : Nat} (hden : 0 < den) (hfin : f.encode num den < f.infinity)
    (q : Nat) :
    |f.magnitude (f.encode num den) - num / den| ≤ |f.magnitude q - num / den| ∧
      (|f.magnitude (f.encode num den) - num / den| = |f.magnitude q - num / den| →
        q = f.encode num den ∨ f.encode num den % 2 = 0) := by
  have heq : f.encode num den = f.unclipped num den := by
    rw [f.encode_eq_min] at hfin ⊢
    omega
  rw [heq]
  exact f.unclipped_nearest num hden hf.two_pow_fracBits_even q

end

/-- Settles O24: below the clip the pattern is nearest among all patterns, and the clip starts at the midpoint of the step
to infinity. -/
theorem encodeRoundsToNearestEven : Obligations.EncodeRoundsToNearestEven := by
  intro f hmem num den hden
  have hf := f.proper_of_mem hmem
  refine ⟨?_, hf.encode_eq_infinity_iff num hden, fun hfin q _ => hf.encode_nearest hden hfin q⟩
  rw [f.encode_eq_min]
  exact min_le_right ..

end Sys2Proof.Machine
end

section
/-! PROOF support for the family of 10_state.md: what a command writes before it ends (R46, R47, R51), said once for all
thirteen commands as one relation, from which the frame of every command and the invariants of every step follow. -/

namespace Sys2Proof.Machine

/-! ### What a command may write -/

/-- NEXT is in the writes column of R46 for the command. -/
def writesNext : Instr → Bool
  | .idx | .hdr _ _ | .cvt _ _ => false
  | _ => true

/-- VAL is in the writes column of R46 for the command. -/
def writesVal : Instr → Bool
  | .rdv _ => true
  | _ => false

/-- RCNT is in the writes column of R46 for the command. -/
def writesRcnt : Instr → Bool
  | .rdv _ | .wrv _ | .idx | .hdr _ _ => false
  | _ => true

/-- PRED and SIDX are in the writes column of R46 for the command. -/
def writesAdpcm : Instr → Bool
  | .ade | .add => true
  | _ => false

theorem writesVal_iff {i : Instr} : writesVal i = true ↔ ∃ t, i = .rdv t := by
  cases i <;> simp [writesVal]

theorem writesAdpcm_iff {i : Instr} : writesAdpcm i = true ↔ i = .ade ∨ i = .add := by
  cases i <;> simp [writesAdpcm]

/-- How many records of DESC from 0 on a command may write (R47, R152). -/
def descExtent (i : Instr) (s : State) : Nat :=
  match i with
  | .idx => s.params.nDesc
  | _ => 0

theorem descExtent_of_ne_idx {i : Instr} (hi : i ≠ .idx) (s : State) : descExtent i s = 0 := by
  cases i with
  | idx => exact absurd rfl hi
  | _ => rfl

/-- `m'` is `m` after a write from `start` on of at most `extent` cells, none at or above `capacity`. -/
def Memory.WritesWithin {α : Type} (m m' : Memory α) (start extent capacity : Nat) : Prop :=
  ∃ l : List α, m' = Memory.storeList m start l ∧ l.length ≤ extent ∧ (l = [] ∨ start + l.length ≤ capacity)

section
variable {α : Type} {m m' : Memory α} {start extent capacity : Nat}

theorem Memory.WritesWithin.refl : Memory.WritesWithin m m start extent capacity :=
  ⟨[], rfl, Nat.zero_le _, .inl rfl⟩

/-- The canonical form and the capacity survive such a write. -/
theorem Memory.WritesWithin.canonical (h : Memory.WritesWithin m m' start extent capacity)
    (hm : Memory.wf m ∧ Memory.below m capacity) : Memory.wf m' ∧ Memory.below m' capacity := by
  obtain ⟨l, rfl, -, hl⟩ := h
  refine ⟨Memory.wf_storeList hm.1 start l, ?_⟩
  rcases hl with rfl | hcap
  · exact hm.2
  · exact Memory.below_storeList hm.2 start l hcap

/-- Outside the extent nothing changes. -/
theorem Memory.WritesWithin.lookup_outside (h : Memory.WritesWithin m m' start extent capacity) {a : Nat}
    (ha : a < start ∨ start + extent ≤ a) : Memory.lookup m' a = Memory.lookup m a := by
  obtain ⟨l, rfl, hle, -⟩ := h
  exact Memory.lookup_storeList_outside m start a l (by omega)

end

/-- `s` with the result registers and the memories of `w`. -/
def State.withResultsOf (s w : State) : State :=
  { s with
    nextOff := w.nextOff, valLo := w.valLo, valHi := w.valHi, rcnt := w.rcnt, pred := w.pred, sidx := w.sidx
    hdr := w.hdr, idx := w.idx, buf := w.buf, smp := w.smp, desc := w.desc }

/-- Two writes of results after one another are writes of results. -/
theorem State.withResultsOf_trans {s w v : State} (hw : w = s.withResultsOf w) (hv : v = w.withResultsOf v) :
    v = s.withResultsOf v :=
  calc
    v = w.withResultsOf v := hv
    _ = (s.withResultsOf w).withResultsOf v := congrArg (State.withResultsOf · v) hw
    _ = s.withResultsOf v := rfl

/-- What the command `i` has written from the state `s` it started in to the state `w` that `raise` or `done` takes over:
the registers R46 names for it, and the extents of R47. -/
structure Effect (i : Instr) (s w : State) : Prop where
  kept : w = s.withResultsOf w
  nextOff : writesNext i = false → w.nextOff = s.nextOff
  val : writesVal i = false → w.valLo = s.valLo ∧ w.valHi = s.valHi
  rcnt : writesRcnt i = false → w.rcnt = s.rcnt
  adpcm : (w.pred = s.pred ∧ w.sidx = s.sidx) ∨ (writesAdpcm i = true ∧ w.AdpcmInRange)
  hdr : w.hdr = s.hdr ∨ ∃ depth kind, i = .hdr depth kind ∧ w.hdr = headerRegs (headerFields depth s) kind s
  idx : w.idx = s.idx ∨ (i = .idx ∧ ∃ kind : ContainerKind, w.idx.kind = kind.code)
  buf : Memory.WritesWithin s.buf w.buf s.off.toNat (bufExtent i s) s.params.bufSize
  smp : Memory.WritesWithin s.smp w.smp s.dst.toNat (smpExtent i s) s.params.smpSize
  desc : Memory.WritesWithin s.desc w.desc 0 (descExtent i s) s.params.nDesc

namespace Effect
variable {i : Instr} {s w : State}

/-- What no command writes (R46): its operands, CMD and the model's own fields; STATUS is left to the command's end. -/
theorem operands (h : Effect i s w) :
    w.params = s.params ∧ w.cmd = s.cmd ∧ w.off = s.off ∧ w.src = s.src ∧ w.dst = s.dst ∧ w.cnt = s.cnt ∧
      w.bufLen = s.bufLen ∧ w.blkAlign = s.blkAlign ∧ w.ch = s.ch ∧ w.rate = s.rate ∧ w.bps = s.bps ∧
      w.payLen = s.payLen ∧ w.resets = s.resets ∧ w.inputs = s.inputs := by
  rw [h.kept]
  simp [State.withResultsOf]

theorem status_eq (h : Effect i s w) : w.status = s.status := by
  rw [h.kept]
  rfl

theorem params_eq (h : Effect i s w) : w.params = s.params := h.operands.1

theorem cmd_eq (h : Effect i s w) : w.cmd = s.cmd := h.operands.2.1

theorem resets_eq (h : Effect i s w) : w.resets = s.resets := by
  rw [h.kept]
  rfl

/-- Outside the command's extent BUF reads as before (R47). -/
theorem bufByte_outside (h : Effect i s w) {a : Nat} (ha : a < s.off.toNat ∨ s.off.toNat + bufExtent i s ≤ a) :
    w.bufByte a = s.bufByte a := by
  unfold State.bufByte
  rw [h.buf.lookup_outside ha, h.resets_eq]

/-- Outside the command's extent SMP reads as before (R47). -/
theorem smpCell_outside (h : Effect i s w) {j : Nat} (hj : j < s.dst.toNat ∨ s.dst.toNat + smpExtent i s ≤ j) :
    w.smpCell j = s.smpCell j := by
  unfold State.smpCell
  rw [h.smp.lookup_outside hj, h.resets_eq]

/-- Outside the command's extent DESC reads as before (R47). -/
theorem descRecord_outside (h : Effect i s w) {j : Nat} (hj : descExtent i s ≤ j) :
    w.descRecord j = s.descRecord j := by
  unfold State.descRecord
  rw [h.desc.lookup_outside (.inr (by omega)), h.resets_eq]

/-- Nothing written: an error of a check that comes before the command's own work. -/
theorem refl (i : Instr) (s : State) : Effect i s s where
  kept := rfl
  nextOff _ := rfl
  val _ := ⟨rfl, rfl⟩
  rcnt _ := rfl
  adpcm := .inl ⟨rfl, rfl⟩
  hdr := .inl rfl
  idx := .inl rfl
  buf := .refl
  smp := .refl
  desc := .refl

/-- Bytes of BUF from OFF on, within the command's extent and below BUF_SIZE. -/
theorem storeBytes {l : List Byte} (hle : l.length ≤ bufExtent i s) (hcap : s.off.toNat + l.length ≤ s.params.bufSize) :
    Effect i s (s.storeBytes s.off.toNat l) :=
  { refl i s with kept := rfl, buf := ⟨l, rfl, hle, .inr hcap⟩ }

/-- Cells of SMP from DST on, within the command's extent and below SMP_SIZE. -/
theorem storeCells {l : List Cell} (hle : l.length ≤ smpExtent i s) (hcap : s.dst.toNat + l.length ≤ s.params.smpSize) :
    Effect i s (s.storeCells s.dst.toNat l) :=
  { refl i s with kept := rfl, smp := ⟨l, rfl, hle, .inr hcap⟩ }

/-- The extent of BUF left unspecified by an element loop. -/
theorem freeBytes {n : Nat} (hle : n ≤ bufExtent i s) (hcap : s.off.toNat + n ≤ s.params.bufSize) :
    Effect i s (s.freeBytes s.off.toNat n) :=
  storeBytes (by simpa using hle) (by simpa using hcap)

/-- The extent of SMP left unspecified by an element loop. -/
theorem freeCells {n : Nat} (hle : n ≤ smpExtent i s) (hcap : s.dst.toNat + n ≤ s.params.smpSize) :
    Effect i s (s.freeCells s.dst.toNat n) :=
  storeCells (by simpa using hle) (by simpa using hcap)

/-- Records of DESC, which only IDX writes. -/
theorem storeRecords {l : List DescRecord} (hle : l.length ≤ s.params.nDesc) : Effect .idx s (s.storeRecords l) :=
  { refl .idx s with kept := rfl, desc := ⟨l, rfl, hle, .inr (by omega)⟩ }

/-- DESC left unspecified by a full table. -/
theorem freeRecords : Effect .idx s s.freeRecords := storeRecords (by simp)

/-- The X registers, which only IDX writes. -/
theorem setIdx (h : Effect .idx s w) (kind : ContainerKind) (size format nDesc : BitVec 32) :
    Effect .idx s { w with idx := { kind := kind.code, size, format, nDesc } } :=
  { h with kept := State.withResultsOf_trans h.kept rfl, idx := .inr ⟨rfl, kind, rfl⟩ }

/-- The H registers, which only HDR writes. -/
theorem setHdr (depth : Nat) (kind : ContainerKind) :
    Effect (.hdr depth kind) s { s with hdr := headerRegs (headerFields depth s) kind s } :=
  { refl (.hdr depth kind) s with kept := rfl, hdr := .inr ⟨depth, kind, rfl, rfl⟩ }

theorem setVal (h : Effect i s w) (hi : writesVal i = true) (v : BitVec 64) : Effect i s (w.setVal v) :=
  { h with kept := State.withResultsOf_trans h.kept rfl, val := fun hn => by simp [hi] at hn }

theorem setNext (h : Effect i s w) (hi : writesNext i = true) (offset : Nat) : Effect i s (w.setNext offset) :=
  { h with kept := State.withResultsOf_trans h.kept rfl, nextOff := fun hn => by simp [hi] at hn }

theorem setRcnt (h : Effect i s w) (hi : writesRcnt i = true) (count : Nat) : Effect i s (w.setRcnt count) :=
  { h with kept := State.withResultsOf_trans h.kept rfl, rcnt := fun hn => by simp [hi] at hn }

/-- PRED and SIDX left unspecified within their ranges (U6). -/
theorem freeAdpcm (h : Effect i s w) (hi : writesAdpcm i = true) : Effect i s w.freeAdpcm :=
  { h with kept := State.withResultsOf_trans h.kept rfl, adpcm := .inr ⟨hi, w.freeAdpcm_inRange⟩ }

end Effect

/-- A codec state in the ranges of R233 leaves registers in the ranges of R39. -/
theorem State.setAdpcm_inRange (s : State) {a : AdpcmState} (ha : a.InRange) : (s.setAdpcm a).AdpcmInRange := by
  obtain ⟨hlo, hhi, hidx⟩ := ha
  have hpred : (BitVec.ofInt 17 a.pred).toInt = a.pred := by
    rw [BitVec.toInt_ofInt]
    exact Int.bmod_eq_of_le (by omega) (by omega)
  refine ⟨?_, ?_, ?_⟩
  · rw [State.setAdpcm_pred, hpred]; exact hlo
  · rw [State.setAdpcm_pred, hpred]; exact hhi
  · rw [State.setAdpcm_sidx, BitVec.toNat_ofNat]; omega

/-- PRED and SIDX written from a codec state in range (R39, R233). -/
theorem Effect.setAdpcm {i : Instr} {s w : State} (h : Effect i s w) (hi : writesAdpcm i = true) {a : AdpcmState}
    (ha : a.InRange) : Effect i s (w.setAdpcm a) :=
  { h with kept := State.withResultsOf_trans h.kept rfl, adpcm := .inr ⟨hi, w.setAdpcm_inRange ha⟩ }

/-! ### How a command ends -/

/-- The two ends of a command (R308, R313), after what it wrote; WVC never raises MissingChunk (R304). -/
inductive Ended (i : Instr) (s : State) : State → Prop where
  | raised {w : State} {e : Error} (heff : Effect i s w) (he : e.kind ≠ .missingChunk) : Ended i s (w.raised e)
  | completed {w : State} (heff : Effect i s w) : Ended i s w.completed

/-- An error found before anything was written. -/
theorem Ended.raisedAtOnce (i : Instr) (s : State) {e : Error} (he : e.kind ≠ .missingChunk) :
    Ended i s (s.raised e) := .raised (.refl i s) he

/-- Below LEN is below BUF_SIZE (R35, R54). -/
theorem State.le_bufSize_of_not_bufOutside {s : State} {n : Nat} (h : ¬ s.bufOutside n) :
    s.off.toNat + n ≤ s.params.bufSize := (not_lt.mp h).trans s.len_le_bufSize

/-! ### The errors of the checks and the element loops are WVC's own (R304) -/

@[simp] theorem unsupportedContainer_kind (n : Nat) : (unsupportedContainer n).kind = .unsupportedContainer := rfl
@[simp] theorem invalidType_kind (n : Nat) : (invalidType n).kind = .invalidType := rfl
@[simp] theorem invalidBitDepth_kind (n : Nat) : (invalidBitDepth n).kind = .invalidBitDepth := rfl
@[simp] theorem overflow_kind (n : Nat) : (overflow n).kind = .overflow := rfl
@[simp] theorem underflow_kind (n : Nat) : (underflow n).kind = .underflow := rfl
@[simp] theorem invalidCommand_kind (w : Word) : (invalidCommand w).kind = .invalidCommand := rfl
@[simp] theorem outOfBounds_kind (n : Nat) : (outOfBounds n).kind = .outOfBounds := rfl
@[simp] theorem invalidArgument_kind (n : Nat) : (invalidArgument n).kind = .invalidArgument := rfl
@[simp] theorem tableFull_kind (n : Nat) : (tableFull n).kind = .tableFull := rfl

theorem writeValue_error_kind {t : NumericType} {raw : BitVec 32} {v : Cell} {n : Nat} {e : Error}
    (h : writeValue t raw v n = .error e) : e.kind ≠ .missingChunk := by
  unfold writeValue at h
  split at h
  · cases h
  · split at h
    · next hc =>
      cases h
      rcases checkRange_error hc with ⟨-, rfl⟩ | ⟨-, -, rfl⟩ <;> simp
    · cases h

theorem samples16_error_kind {s : State} {e : Error} (h : s.samples16 = .error e) : e.kind ≠ .missingChunk := by
  obtain ⟨k, -, hk, -⟩ := collect_error h
  rcases checkSample16_error hk with ⟨-, rfl⟩ | ⟨-, rfl⟩ <;> simp

theorem containerHeader_error_kind {s : State} {e : Error} (h : s.containerHeader = .error e) :
    e.kind ≠ .missingChunk := by
  rcases containerHeader_error h with rfl | rfl | rfl | rfl | rfl <;> simp

theorem checkWidths_error {f : HeaderFields} {e : Error} (h : checkWidths f = .error e) : ∃ n, e = overflow n := by
  unfold checkWidths at h
  split at h
  · cases h; exact ⟨_, rfl⟩
  · split at h
    · cases h; exact ⟨_, rfl⟩
    · split at h
      · cases h; exact ⟨_, rfl⟩
      · split at h
        · cases h; exact ⟨_, rfl⟩
        · cases h

/-! ### Every command, by its cases -/

section
variable {s u : State}

theorem execRdv_ended {t : NumericType} (h : execRdv t s = .next u) : Ended (.rdv t) s u := by
  rcases execRdv_cases h with ⟨-, rfl⟩ | ⟨-, -, rfl⟩ | ⟨-, -, rfl⟩
  · exact .raisedAtOnce _ s (by simp)
  · exact .raisedAtOnce _ s (by simp)
  · exact .completed (((Effect.refl _ s).setVal rfl _).setNext rfl _)

theorem execWrv_ended {t : NumericType} (h : execWrv t s = .next u) : Ended (.wrv t) s u := by
  rcases execWrv_cases h with ⟨-, rfl⟩ | ⟨-, -, rfl⟩ | ⟨-, hb, ⟨e, he, rfl⟩ | ⟨l, hl, rfl⟩⟩
  · exact .raisedAtOnce _ s (by simp)
  · exact .raisedAtOnce _ s (by simp)
  · exact .raisedAtOnce _ s (writeValue_error_kind he)
  · have hlen := writeValue_length hl
    have hcap := State.le_bufSize_of_not_bufOutside hb
    rw [← hlen] at hcap
    exact .completed ((Effect.storeBytes hlen.le hcap).setNext rfl _)

theorem execRda_ended {t : NumericType} (h : execRda t s = .next u) : Ended (.rda t) s u := by
  rcases execRda_cases h with ⟨-, rfl⟩ | ⟨-, -, rfl⟩ | ⟨-, -, -, rfl⟩ | ⟨-, -, hd, rfl⟩
  · exact .raisedAtOnce _ s (by simp)
  · exact .raisedAtOnce _ s (by simp)
  · exact .raisedAtOnce _ s (by simp)
  · have hlen : ((List.range s.cnt.toNat).map (rdaCell t s)).length = s.cnt.toNat := by simp
    exact .completed (((Effect.storeCells hlen.le (by omega)).setNext rfl _).setRcnt rfl _)

/-- The chunks WRA writes fill its extent (R125). -/
theorem wraBytes_flatten_length {t : NumericType} {n : Nat} {l : List (List Byte)}
    (h : collect (wraBytes t s) n 0 = .ok l) : l.flatten.length = n * nbytes t := by
  obtain ⟨hlen, hget⟩ := collect_ok h
  have hall : ∀ c ∈ l, c.length = nbytes t := by
    intro c hc
    obtain ⟨k, hk, rfl⟩ := List.mem_iff_getElem.mp hc
    exact writeValue_length (hget k hk)
  rw [List.length_flatten, List.map_congr_left hall, List.map_const', List.sum_replicate, hlen, smul_eq_mul]

theorem execWra_ended {t : NumericType} (h : execWra t s = .next u) : Ended (.wra t) s u := by
  rcases execWra_cases h with
    ⟨-, rfl⟩ | ⟨-, -, rfl⟩ | ⟨-, -, -, rfl⟩ | ⟨-, hb, -, ⟨e, he, rfl⟩ | ⟨l, hl, rfl⟩⟩
  · exact .raisedAtOnce _ s (by simp)
  · exact .raisedAtOnce _ s (by simp)
  · exact .raisedAtOnce _ s (by simp)
  · obtain ⟨k, -, hk, -⟩ := collect_error he
    exact .raised (Effect.freeBytes le_rfl (State.le_bufSize_of_not_bufOutside hb)) (writeValue_error_kind hk)
  · have hlen := wraBytes_flatten_length hl
    have hcap := State.le_bufSize_of_not_bufOutside hb
    rw [← hlen] at hcap
    exact .completed (((Effect.storeBytes hlen.le hcap).setNext rfl _).setRcnt rfl _)

theorem execIdx_ended (h : execIdx s = .next u) : Ended .idx s u := by
  rcases execIdx_cases h with ⟨e, he, rfl⟩ | ⟨kind, size, e, -, he, rfl⟩ | ⟨kind, size, rs, -, hr, rfl⟩
  · exact .raisedAtOnce _ s (containerHeader_error_kind he)
  · obtain ⟨c, rfl, -⟩ := walk_error _ _ _ _ _ _ _ _ he
    exact .raised .freeRecords (by simp)
  · exact .completed ((Effect.storeRecords (walkAll_length hr)).setIdx kind _ _ _)

theorem execHdr_ended {depth : Nat} {kind : ContainerKind} (h : execHdr depth kind s = .next u) :
    Ended (.hdr depth kind) s u := by
  rcases execHdr_cases h with ⟨-, rfl⟩ | ⟨-, ⟨e, he, rfl⟩ | ⟨-, rfl⟩⟩
  · exact .raisedAtOnce _ s (by simp)
  · obtain ⟨n, rfl⟩ := checkWidths_error he
    exact .raisedAtOnce _ s (by simp)
  · exact .completed (.setHdr depth kind)

theorem execCvt_ended {a b : Nat} (h : execCvt a b s = .next u) : Ended (.cvt a b) s u := by
  rcases execCvt_cases h with
    ⟨-, rfl⟩ | ⟨-, -, rfl⟩ | ⟨-, -, -, rfl⟩ | ⟨-, -, -, -, rfl⟩ | ⟨-, -, -, hd, ⟨e, he, rfl⟩ | ⟨w, hw, rfl⟩⟩
  · exact .raisedAtOnce _ s (by simp)
  · exact .raisedAtOnce _ s (by simp)
  · exact .raisedAtOnce _ s (by simp)
  · exact .raisedAtOnce _ s (by simp)
  · obtain ⟨k, -, hk⟩ := cvtLoop_error he
    exact .raised (Effect.freeCells le_rfl (not_lt.mp hd)) (by rcases hk with rfl | rfl <;> simp)
  · obtain ⟨l, hlen, rfl⟩ := cvtLoop_ok hw
    exact .completed ((Effect.storeCells hlen.le (by omega)).setRcnt rfl _)

theorem execAde_ended (h : execAde s = .next u) : Ended .ade s u := by
  rcases execAde_cases h with ⟨-, rfl⟩ | ⟨-, -, rfl⟩ | ⟨hb, -, ⟨e, he, rfl⟩ | ⟨xs, hx, rfl⟩⟩
  · exact .raised ((Effect.refl _ s).freeAdpcm rfl) (by simp)
  · exact .raised ((Effect.refl _ s).freeAdpcm rfl) (by simp)
  · have hfree := Effect.freeBytes (i := .ade) le_rfl (State.le_bufSize_of_not_bufOutside hb)
    exact .raised (hfree.freeAdpcm rfl) (samples16_error_kind he)
  · obtain ⟨hcount, hsample⟩ := samples16_ok hx
    have hlen : (encodeBlocks s.adeBlocks xs AdpcmState.fresh).1.length = 256 * s.adeBlocks := by
      unfold State.adeBlocks
      rw [← hcount]
      exact encodeBlocks_length xs AdpcmState.fresh
    have hrange : (encodeBlocks s.adeBlocks xs AdpcmState.fresh).2.InRange := by
      refine encodeBlocks_inRange _ AdpcmState.fresh_inRange fun x hx => ?_
      obtain ⟨k, hk, rfl⟩ := List.mem_iff_getElem.mp hx
      exact (hsample k hk).2
    have hcap := State.le_bufSize_of_not_bufOutside hb
    rw [← hlen] at hcap
    exact .completed ((((Effect.storeBytes hlen.le hcap).setAdpcm rfl hrange).setNext rfl _).setRcnt rfl _)

theorem execAdd_ended (h : execAdd s = .next u) : Ended .add s u := by
  rcases execAdd_cases h with ⟨-, rfl⟩ | ⟨-, -, rfl⟩ | ⟨-, -, -, rfl⟩ | ⟨hb, -, hd, rfl⟩
  · exact .raised ((Effect.refl _ s).freeAdpcm rfl) (by simp)
  · exact .raised ((Effect.refl _ s).freeAdpcm rfl) (by simp)
  · exact .raised ((Effect.refl _ s).freeAdpcm rfl) (by simp)
  · have hlen : (s.addResult.1.map (BitVec.ofInt 64)).length = s.addSamples := by
      rw [List.length_map, addResult_length hb]
    have hrange : s.addResult.2.InRange := decodeBlocks_inRange _ _ _ AdpcmState.fresh_inRange
    have hstore := Effect.storeCells (i := .add) hlen.le (by omega)
    exact .completed (((hstore.setAdpcm rfl hrange).setNext rfl _).setRcnt rfl _)

/-- ALE and MUE, the two commands of this shape (R270). -/
theorem compress_ended {i : Instr} (hi : i = .ale ∨ i = .mue) {enc : Int → Nat} (h : compress enc s = .next u) :
    Ended i s u := by
  have hext : bufExtent i s = s.cnt.toNat := by rcases hi with rfl | rfl <;> rfl
  have hnext : writesNext i = true := by rcases hi with rfl | rfl <;> rfl
  have hrcnt : writesRcnt i = true := by rcases hi with rfl | rfl <;> rfl
  rcases compress_cases h with ⟨-, rfl⟩ | ⟨-, -, rfl⟩ | ⟨hb, -, ⟨e, he, rfl⟩ | ⟨xs, hx, rfl⟩⟩
  · exact .raisedAtOnce _ s (by simp)
  · exact .raisedAtOnce _ s (by simp)
  · exact .raised (Effect.freeBytes hext.ge (State.le_bufSize_of_not_bufOutside hb)) (samples16_error_kind he)
  · have hlen : (xs.map fun x => BitVec.ofNat 8 (enc x)).length = s.cnt.toNat := by
      rw [List.length_map, (samples16_ok hx).1]
    have hcap := State.le_bufSize_of_not_bufOutside hb
    rw [← hlen] at hcap
    exact .completed (((Effect.storeBytes (hlen.trans hext.symm).le hcap).setNext hnext _).setRcnt hrcnt _)

/-- ALD and MUD, the two commands of this shape (R270). -/
theorem expand_ended {i : Instr} (hi : i = .ald ∨ i = .mud) {dec : Nat → Int} (h : expand dec s = .next u) :
    Ended i s u := by
  have hext : smpExtent i s = s.cnt.toNat := by rcases hi with rfl | rfl <;> rfl
  have hnext : writesNext i = true := by rcases hi with rfl | rfl <;> rfl
  have hrcnt : writesRcnt i = true := by rcases hi with rfl | rfl <;> rfl
  rcases expand_cases h with ⟨-, rfl⟩ | ⟨-, -, rfl⟩ | ⟨-, hd, rfl⟩
  · exact .raisedAtOnce _ s (by simp)
  · exact .raisedAtOnce _ s (by simp)
  · have hlen : ((s.bufBytes s.off.toNat s.cnt.toNat).map fun y => BitVec.ofInt 64 (dec y.toNat)).length =
        s.cnt.toNat := by rw [List.length_map, State.bufBytes_length]
    exact .completed (((Effect.storeCells (hlen.trans hext.symm).le (by omega)).setNext hnext _).setRcnt hrcnt _)

/-- Every command that answers a next state has ended there, having written what its rule names. -/
theorem exec_ended {i : Instr} (h : exec i s = .next u) : Ended i s u := by
  cases i with
  | rdv t => exact execRdv_ended h
  | wrv t => exact execWrv_ended h
  | rda t => exact execRda_ended h
  | wra t => exact execWra_ended h
  | idx => exact execIdx_ended h
  | hdr depth kind => exact execHdr_ended h
  | cvt a b => exact execCvt_ended h
  | ade => exact execAde_ended h
  | add => exact execAdd_ended h
  | ale => exact compress_ended (.inl rfl) h
  | ald => exact expand_ended (.inl rfl) h
  | mue => exact compress_ended (.inr rfl) h
  | mud => exact expand_ended (.inr rfl) h

end

end Sys2Proof.Machine
end

section
/-! PROOF support for the family of 10_state.md: every command ends (R319), what the flags are then (R308, R313), and every
transition a step of the machine can make. -/

namespace Sys2Proof.Machine

/-! ### Every command answers a next state (R319) -/

section
variable (s : State)

theorem execRdv_next (t : NumericType) : ∃ u, execRdv t s = .next u := by
  unfold execRdv
  split_ifs <;> exact ⟨_, rfl⟩

theorem execWrv_next (t : NumericType) : ∃ u, execWrv t s = .next u := by
  unfold execWrv
  split_ifs
  · exact ⟨_, rfl⟩
  · exact ⟨_, rfl⟩
  · split <;> exact ⟨_, rfl⟩

theorem execRda_next (t : NumericType) : ∃ u, execRda t s = .next u := by
  unfold execRda
  split_ifs <;> exact ⟨_, rfl⟩

theorem execWra_next (t : NumericType) : ∃ u, execWra t s = .next u := by
  unfold execWra
  split_ifs
  · exact ⟨_, rfl⟩
  · exact ⟨_, rfl⟩
  · exact ⟨_, rfl⟩
  · split <;> exact ⟨_, rfl⟩

theorem execIdx_next : ∃ u, execIdx s = .next u := by
  unfold execIdx
  split
  · exact ⟨_, rfl⟩
  · split <;> exact ⟨_, rfl⟩

theorem execHdr_next (depth : Nat) (kind : ContainerKind) : ∃ u, execHdr depth kind s = .next u := by
  unfold execHdr
  split_ifs
  · exact ⟨_, rfl⟩
  · split <;> exact ⟨_, rfl⟩

theorem execCvt_next (a b : Nat) : ∃ u, execCvt a b s = .next u := by
  unfold execCvt
  split_ifs
  · exact ⟨_, rfl⟩
  · exact ⟨_, rfl⟩
  · exact ⟨_, rfl⟩
  · exact ⟨_, rfl⟩
  · split <;> exact ⟨_, rfl⟩

theorem execAde_next : ∃ u, execAde s = .next u := by
  unfold execAde
  split_ifs
  · exact ⟨_, rfl⟩
  · exact ⟨_, rfl⟩
  · split <;> exact ⟨_, rfl⟩

theorem execAdd_next : ∃ u, execAdd s = .next u := by
  unfold execAdd
  split_ifs <;> exact ⟨_, rfl⟩

theorem compress_next (enc : Int → Nat) : ∃ u, compress enc s = .next u := by
  unfold compress
  split_ifs
  · exact ⟨_, rfl⟩
  · exact ⟨_, rfl⟩
  · split <;> exact ⟨_, rfl⟩

theorem expand_next (dec : Nat → Int) : ∃ u, expand dec s = .next u := by
  unfold expand
  split_ifs <;> exact ⟨_, rfl⟩

theorem exec_next (i : Instr) : ∃ u, exec i s = .next u := by
  cases i with
  | rdv t => exact execRdv_next s t
  | wrv t => exact execWrv_next s t
  | rda t => exact execRda_next s t
  | wra t => exact execWra_next s t
  | idx => exact execIdx_next s
  | hdr depth kind => exact execHdr_next s depth kind
  | cvt a b => exact execCvt_next s a b
  | ade => exact execAde_next s
  | add => exact execAdd_next s
  | ale => exact compress_next s alawEnc
  | ald => exact expand_next s alawDec
  | mue => exact compress_next s mulawEnc
  | mud => exact expand_next s mulawDec

end

/-! ### The flags a command ends with -/

/-- Every kind has a code other than 0, which stands for no error (R301). -/
theorem ErrorKind.code_ne_zero (k : ErrorKind) : k.code ≠ 0 := by
  cases k <;> decide

/-- The codes of the kinds WVC raises (R301, R304). -/
theorem State.raised_errCodeKnown (s : State) {e : Error} (he : e.kind ≠ .missingChunk) :
    (s.raised e).ErrCodeKnown := by
  unfold State.ErrCodeKnown
  rw [State.raised_errCode]
  revert he
  cases e.kind <;> decide

theorem State.completed_errCodeKnown (s : State) : s.completed.ErrCodeKnown := by
  unfold State.ErrCodeKnown
  rw [State.completed_errCode]
  decide

theorem State.raised_statusAgrees (s : State) (e : Error) : (s.raised e).StatusAgrees := by
  have hcode : (s.raised e).errCode ≠ 0 := e.kind.code_ne_zero
  exact ⟨iff_of_true (State.raised_err ..) hcode, fun _ => State.raised_doneFlag .., fun h => absurd h hcode⟩

theorem State.completed_statusAgrees (s : State) : s.completed.StatusAgrees :=
  ⟨by simp, by simp, by simp⟩

namespace Ended
variable {i : Instr} {s t : State}

theorem idle (h : Ended i s t) : t.Idle := by
  cases h with
  | raised => exact State.raised_busy ..
  | completed => exact State.completed_busy _

theorem doneFlag (h : Ended i s t) : t.doneFlag = true := by
  cases h with
  | raised => exact State.raised_doneFlag ..
  | completed => exact State.completed_doneFlag _

theorem errCodeKnown (h : Ended i s t) : t.ErrCodeKnown := by
  cases h with
  | raised _ he => exact State.raised_errCodeKnown _ he
  | completed => exact State.completed_errCodeKnown _

theorem statusAgrees (h : Ended i s t) : t.StatusAgrees := by
  cases h with
  | raised => exact State.raised_statusAgrees ..
  | completed => exact State.completed_statusAgrees _

/-- ERRSEEN is sticky over a command (R25). -/
theorem errSeen (h : Ended i s t) : t.errSeen = (s.errSeen || t.err) := by
  cases h with
  | raised => simp
  | completed heff =>
    simp only [State.completed_errSeen, State.completed_err, Bool.or_false]
    exact congrArg (BitVec.getLsbD · 3) heff.status_eq

/-- Beyond the command's effect `raise` and `done` write the flags alone (R308, R313). -/
theorem effect (h : Ended i s t) : ∃ w, Effect i s w ∧
    t = { w with status := t.status, errCode := t.errCode, errInfo := t.errInfo, serial := t.serial } := by
  cases h with
  | raised heff => exact ⟨_, heff, rfl⟩
  | completed heff => exact ⟨_, heff, rfl⟩

end Ended

/-! ### The host port -/

/-- A write of CMD ends as a command does; an illegal word ends as any command that found an error before it wrote
anything (R82). -/
theorem command_ended {w : Word} {s t : State} (h : command w s = .next t) : ∃ i, Ended i { s with cmd := w } t := by
  unfold command at h
  split at h
  · next i _ => exact ⟨i, exec_ended h⟩
  · rw [raise_eq_next] at h
    subst h
    exact ⟨.idx, .raisedAtOnce .idx _ (by simp)⟩

theorem command_next (w : Word) (s : State) : ∃ t, command w s = .next t := by
  unfold command
  split
  · next i _ => exact exec_next _ i
  · exact ⟨_, rfl⟩

/-- With nothing waiting WVC stays as it is (R326). -/
theorem step_of_empty {s : State} (h : s.inputs = []) : step s = .next s := by
  simp [step, fetch, h]

/-- A step is the host's next action, taken from the queue. -/
theorem step_of_cons {s : State} {a : HostAction} {rest : List HostAction} (h : s.inputs = a :: rest) :
    step s = hostStep a { s with inputs := rest } := by
  have hf : fetch s = some (a, { s with inputs := rest }) := fetch_eq_some.mpr ⟨rest, h, rfl⟩
  simp [step, hf]

section
variable {s : State}

theorem hostStep_writeCmd_idle (h : s.busy = false) (w : Word) :
    hostStep (.writeReg .CMD w) s = command w s := by
  simp [hostStep, h]

/-- A register other than CMD: R338 forbids the write of an operand register while BUSY is 1. -/
theorem hostStep_writeReg {r : Reg} (hr : r ≠ .CMD) (w : Word) :
    hostStep (.writeReg r w) s =
      if s.busy && r.isOperand then .refused .hostAccessWhileBusy else .next (s.writeReg r w) := by
  cases r with
  | CMD => exact absurd rfl hr
  | _ => rfl

end

/-- What R338 forbids while BUSY is 1: a write of CMD, of an operand register, of BUF or of SMP. -/
def HostAction.NeedsIdle (a : HostAction) : Prop :=
  (∃ w, a = .writeReg .CMD w) ∨ (∃ q w, a = .writeReg q w ∧ q.isOperand = true) ∨ (∃ c b, a = .writeBuf c b) ∨
    (∃ i v, a = .writeSmp i v)

theorem HostAction.needsIdle_writeReg {r : Reg} (hr : r ≠ .CMD) (w : Word) :
    (HostAction.writeReg r w).NeedsIdle ↔ r.isOperand = true := by
  simp [HostAction.NeedsIdle, hr]

/-- Exactly what R338 forbids is refused, and only while BUSY is 1. -/
theorem hostStep_refused_iff {a : HostAction} {s : State} {r : Refusal} :
    hostStep a s = .refused r ↔ r = .hostAccessWhileBusy ∧ s.busy = true ∧ a.NeedsIdle := by
  cases a with
  | reset => simp [hostStep, HostAction.NeedsIdle]
  | writeReg q w =>
    by_cases hq : q = .CMD
    · subst hq
      obtain ⟨t, ht⟩ := command_next w s
      cases hb : s.busy <;> simp [hostStep, HostAction.NeedsIdle, hb, ht, eq_comm (a := r)]
    · rw [hostStep_writeReg hq, HostAction.needsIdle_writeReg hq]
      cases hb : s.busy && q.isOperand <;> simp_all [eq_comm (a := r)]
  | writeBuf c b =>
    cases hb : s.busy
    · by_cases hc : s.params.bufSize ≤ c <;> simp [hostStep, hb, hc]
    · simp [hostStep, HostAction.NeedsIdle, hb, eq_comm (a := r)]
  | writeSmp i v =>
    cases hb : s.busy
    · by_cases hi : s.params.smpSize ≤ i <;> simp [hostStep, hb, hi]
    · simp [hostStep, HostAction.NeedsIdle, hb, eq_comm (a := r)]

/-- Exactly a write of a byte or a cell that does not exist faults, and only when WVC is idle (R41, R42). -/
theorem hostStep_fault_iff {a : HostAction} {s : State} {f : Fault} :
    hostStep a s = .fault f ↔ s.busy = false ∧
      ((∃ c b, a = .writeBuf c b ∧ s.params.bufSize ≤ c ∧ f = .noSuchBufByte c) ∨
        (∃ i v, a = .writeSmp i v ∧ s.params.smpSize ≤ i ∧ f = .noSuchSmpCell i)) := by
  cases a with
  | reset => simp [hostStep]
  | writeReg q w =>
    by_cases hq : q = .CMD
    · subst hq
      obtain ⟨t, ht⟩ := command_next w s
      cases hb : s.busy <;> simp [hostStep, hb, ht]
    · rw [hostStep_writeReg hq]
      split <;> simp
  | writeBuf c b =>
    cases hb : s.busy
    · by_cases hc : s.params.bufSize ≤ c <;> simp [hostStep, hb, hc, eq_comm (a := f)]
    · simp [hostStep, hb]
  | writeSmp i v =>
    cases hb : s.busy
    · by_cases hi : s.params.smpSize ≤ i <;> simp [hostStep, hb, hi, eq_comm (a := f)]
    · simp [hostStep, hb]

/-! ### `State.writeReg` -/

section
variable (s : State) (r : Reg) (w : Word)

@[simp] theorem State.writeReg_params : (s.writeReg r w).params = s.params := by cases r <;> rfl
@[simp] theorem State.writeReg_errCode : (s.writeReg r w).errCode = s.errCode := by cases r <;> rfl
@[simp] theorem State.writeReg_errInfo : (s.writeReg r w).errInfo = s.errInfo := by cases r <;> rfl
@[simp] theorem State.writeReg_pred : (s.writeReg r w).pred = s.pred := by cases r <;> rfl
@[simp] theorem State.writeReg_sidx : (s.writeReg r w).sidx = s.sidx := by cases r <;> rfl
@[simp] theorem State.writeReg_hdr : (s.writeReg r w).hdr = s.hdr := by cases r <;> rfl
@[simp] theorem State.writeReg_idx : (s.writeReg r w).idx = s.idx := by cases r <;> rfl
@[simp] theorem State.writeReg_buf : (s.writeReg r w).buf = s.buf := by cases r <;> rfl
@[simp] theorem State.writeReg_smp : (s.writeReg r w).smp = s.smp := by cases r <;> rfl
@[simp] theorem State.writeReg_desc : (s.writeReg r w).desc = s.desc := by cases r <;> rfl
@[simp] theorem State.writeReg_resets : (s.writeReg r w).resets = s.resets := by cases r <;> rfl
@[simp] theorem State.writeReg_inputs : (s.writeReg r w).inputs = s.inputs := by cases r <;> rfl

/-- STATUS alone has a write of its own (R25). -/
theorem State.writeReg_status :
    (s.writeReg r w).status = if r = .STATUS then statusWritten s.status w else s.status := by
  cases r <;> rfl

/-- A host write of STATUS leaves BUSY (R25). -/
@[simp] theorem State.writeReg_busy : (s.writeReg r w).busy = s.busy := by
  simp only [State.busy, State.writeReg_status]
  split
  · exact (statusWord_bits _ _ _ _).2.2.2
  · rfl

/-- A host write of STATUS leaves DONE (R25). -/
@[simp] theorem State.writeReg_doneFlag : (s.writeReg r w).doneFlag = s.doneFlag := by
  simp only [State.doneFlag, State.writeReg_status]
  split
  · exact (statusWord_bits _ _ _ _).2.2.1
  · rfl

/-- A host write of STATUS leaves ERR (R25). -/
@[simp] theorem State.writeReg_err : (s.writeReg r w).err = s.err := by
  simp only [State.err, State.writeReg_status]
  split
  · exact (statusWord_bits _ _ _ _).2.1
  · rfl

/-- ERRSEEN is write-one-to-clear (R25). -/
theorem State.writeReg_errSeen :
    (s.writeReg r w).errSeen = if r = .STATUS then s.errSeen && !w.getLsbD 3 else s.errSeen := by
  simp only [State.errSeen, State.writeReg_status]
  split
  · exact (statusWord_bits _ _ _ _).1
  · rfl

end

/-! ### Every transition of a step -/

/-- What a step can do (R20, R24): nothing, or one action of the host. -/
inductive Transition (s : State) : State → Prop where
  | idle (h : s.inputs = []) : Transition s s
  | reset {rest : List HostAction} (h : s.inputs = .reset :: rest) :
      Transition s (State.afterReset { s with inputs := rest })
  | command {w : Word} {rest : List HostAction} {i : Instr} {t : State} (h : s.inputs = .writeReg .CMD w :: rest)
      (hend : Ended i { s with inputs := rest, cmd := w } t) : Transition s t
  | writeReg {r : Reg} {w : Word} {rest : List HostAction} (h : s.inputs = .writeReg r w :: rest) (hr : r ≠ .CMD) :
      Transition s (State.writeReg { s with inputs := rest } r w)
  | writeBuf {a : Nat} {b : Byte} {rest : List HostAction} (h : s.inputs = .writeBuf a b :: rest)
      (ha : a < s.params.bufSize) : Transition s (State.storeBytes { s with inputs := rest } a [b])
  | writeSmp {i : Nat} {v : Cell} {rest : List HostAction} (h : s.inputs = .writeSmp i v :: rest)
      (hi : i < s.params.smpSize) : Transition s (State.storeCells { s with inputs := rest } i [v])

theorem step_transition {s t : State} (h : step s = .next t) : Transition s t := by
  cases hin : s.inputs with
  | nil =>
    rw [step_of_empty hin] at h
    cases h
    exact .idle hin
  | cons a rest =>
    rw [step_of_cons hin] at h
    cases a with
    | reset =>
      cases h
      exact .reset hin
    | writeReg r w =>
      by_cases hr : r = .CMD
      · subst hr
        simp only [hostStep] at h
        split at h
        · cases h
        · obtain ⟨i, hend⟩ := command_ended h
          exact .command hin hend
      · rw [hostStep_writeReg hr] at h
        split at h
        · cases h
        · cases h
          exact .writeReg hin hr
    | writeBuf a b =>
      simp only [hostStep] at h
      split_ifs at h with hbusy hout
      cases h
      exact .writeBuf hin (not_le.mp hout)
    | writeSmp i v =>
      simp only [hostStep] at h
      split_ifs at h with hbusy hout
      cases h
      exact .writeSmp hin (not_le.mp hout)

end Sys2Proof.Machine
end

section
/-! PROOFS of the family of 10_state.md: the invariants every step keeps (O57 to O60), the host's side (O5 to O9), how
commands end and what they write (O10, O11, O13), and the fresh start of an ADPCM pass (O45). -/

namespace Sys2Proof.Machine

/-! ### The memories (R41 to R43, R50) -/

theorem Effect.memoriesCanonical {i : Instr} {s w : State} (h : Effect i s w) (hs : s.MemoriesCanonical) :
    w.MemoriesCanonical := by
  obtain ⟨hbuf, hsmp, hdesc⟩ := hs
  unfold State.MemoriesCanonical
  rw [h.params_eq]
  exact ⟨h.buf.canonical hbuf, h.smp.canonical hsmp, h.desc.canonical hdesc⟩

theorem State.afterReset_memoriesCanonical (s : State) : s.afterReset.MemoriesCanonical := by
  simp [State.MemoriesCanonical, State.afterReset, State.reset]

theorem State.writeReg_memoriesCanonical {s : State} (hs : s.MemoriesCanonical) (r : Reg) (w : Word) :
    (s.writeReg r w).MemoriesCanonical := by
  unfold State.MemoriesCanonical
  rw [State.writeReg_params, State.writeReg_buf, State.writeReg_smp, State.writeReg_desc]
  exact hs

/-- Settles O57: a command writes each memory within its capacity, and so does the host. -/
theorem stepKeepsMemoriesCanonical : Obligations.StepKeepsMemoriesCanonical := by
  intro s t hs h
  obtain ⟨hbuf, hsmp, hdesc⟩ := hs
  cases step_transition h with
  | idle => exact ⟨hbuf, hsmp, hdesc⟩
  | reset => exact State.afterReset_memoriesCanonical _
  | command _ hend =>
    obtain ⟨w, heff, ht⟩ := hend.effect
    rw [ht]
    exact heff.memoriesCanonical ⟨hbuf, hsmp, hdesc⟩
  | @writeReg r w rest =>
    exact State.writeReg_memoriesCanonical (s := { s with inputs := rest }) ⟨hbuf, hsmp, hdesc⟩ r w
  | writeBuf _ ha => exact ⟨Memory.WritesWithin.canonical ⟨_, rfl, le_rfl, .inr ha⟩ hbuf, hsmp, hdesc⟩
  | writeSmp _ hi => exact ⟨hbuf, Memory.WritesWithin.canonical ⟨_, rfl, le_rfl, .inr hi⟩ hsmp, hdesc⟩

/-! ### PRED and SIDX (R39) -/

theorem Effect.adpcmInRange {i : Instr} {s w : State} (h : Effect i s w) (hs : s.AdpcmInRange) : w.AdpcmInRange := by
  rcases h.adpcm with ⟨hpred, hsidx⟩ | ⟨-, hw⟩
  · unfold State.AdpcmInRange
    rw [hpred, hsidx]
    exact hs
  · exact hw

/-- Settles O58: only ADE, ADD and reset write the two registers, and each writes values in range. -/
theorem stepKeepsAdpcmRange : Obligations.StepKeepsAdpcmRange := by
  intro s t hs h
  cases step_transition h with
  | idle => exact hs
  | reset => simp [State.AdpcmInRange, State.afterReset, State.reset]
  | command _ hend =>
    obtain ⟨w, heff, ht⟩ := hend.effect
    rw [ht]
    exact heff.adpcmInRange hs
  | writeReg => simpa [State.AdpcmInRange] using hs
  | writeBuf => exact hs
  | writeSmp => exact hs

/-! ### STATUS, ERRCODE and ERRINFO (R25 to R27) -/

theorem State.afterReset_statusAgreement (s : State) :
    s.afterReset.Idle ∧ s.afterReset.ErrCodeKnown ∧ s.afterReset.StatusAgrees := by
  simp [State.Idle, State.ErrCodeKnown, State.StatusAgrees, State.busy, State.err, State.afterReset, State.reset]

/-- The host's write of STATUS reaches ERRSEEN alone (R25). -/
theorem State.writeReg_statusAgreement {s : State} (hs : s.Idle ∧ s.ErrCodeKnown ∧ s.StatusAgrees) (r : Reg) (w : Word) :
    (s.writeReg r w).Idle ∧ (s.writeReg r w).ErrCodeKnown ∧ (s.writeReg r w).StatusAgrees := by
  unfold State.Idle State.ErrCodeKnown State.StatusAgrees
  rw [State.writeReg_busy, State.writeReg_errCode, State.writeReg_err, State.writeReg_doneFlag, State.writeReg_errInfo]
  exact hs

/-- Settles O59: a command ends in agreement whatever came before, and nothing else but reset writes these bits. -/
theorem stepKeepsStatusAgreement : Obligations.StepKeepsStatusAgreement := by
  intro s t hs h
  cases step_transition h with
  | idle => exact hs
  | reset => exact State.afterReset_statusAgreement _
  | command _ hend => exact ⟨hend.idle, hend.errCodeKnown, hend.statusAgrees⟩
  | @writeReg r w rest => exact State.writeReg_statusAgreement (s := { s with inputs := rest }) hs r w
  | writeBuf => exact hs
  | writeSmp => exact hs

/-! ### The header registers and the kind codes (R38, R78) -/

theorem kindCode_ne_three (k : ContainerKind) : k.code ≠ 3 := by
  cases k <;> decide

/-- The four shapes of a header leave the extension fields beyond their size 0 (R171, R173 to R176). -/
theorem headerFields_extension (depth : Nat) (s : State) :
    (headerFields depth s).fmtSize ∈ [16, 20, 40] ∧
      ((headerFields depth s).fmtSize < 20 → (headerFields depth s).cbSize = 0 ∧ (headerFields depth s).vBits = 0) ∧
      ((headerFields depth s).fmtSize < 40 → (headerFields depth s).chMask = 0 ∧ (headerFields depth s).pcm = false) := by
  unfold headerFields
  split_ifs <;> simp [shapeAdpcm, shapeCompanded, shapeExtensible, shapePlain]

theorem headerRegs_fmtSize (depth : Nat) (kind : ContainerKind) (s : State) :
    (headerRegs (headerFields depth s) kind s).fmtSize.toNat = (headerFields depth s).fmtSize := by
  have hmem := (headerFields_extension depth s).1
  simp only [List.mem_cons, List.not_mem_nil, or_false] at hmem
  rw [headerRegs, BitVec.toNat_ofNat]
  omega

theorem Effect.headerPrefix {i : Instr} {s w : State} (h : Effect i s w) (hs : s.HeaderPrefix) : w.HeaderPrefix := by
  unfold State.HeaderPrefix
  rcases h.hdr with heq | ⟨depth, kind, -, heq⟩
  · rw [heq]
    exact hs
  · obtain ⟨hmem, hbelow20, hbelow40⟩ := headerFields_extension depth s
    rw [heq, headerRegs_fmtSize]
    refine ⟨List.mem_cons_of_mem 0 hmem, fun hlt => ?_, fun hlt => ?_⟩
    · obtain ⟨hcb, hvb⟩ := hbelow20 hlt
      simp [headerRegs, hcb, hvb]
    · obtain ⟨hmask, hpcm⟩ := hbelow40 hlt
      simp [headerRegs, hmask, hpcm]

theorem Effect.kindsLegal {i : Instr} {s w : State} (h : Effect i s w) (hs : s.KindsLegal) : w.KindsLegal := by
  obtain ⟨hhdr, hidx⟩ := hs
  constructor
  · rcases h.hdr with heq | ⟨depth, kind, -, heq⟩
    · rwa [heq]
    · rw [heq]
      exact kindCode_ne_three kind
  · rcases h.idx with heq | ⟨-, kind, heq⟩
    · rwa [heq]
    · rw [heq]
      exact kindCode_ne_three kind

/-- Settles O60: only HDR and reset write the H registers, and only HDR, IDX and reset a kind code. -/
theorem stepKeepsHeaderPrefix : Obligations.StepKeepsHeaderPrefix := by
  intro s t hs h
  cases step_transition h with
  | idle => exact hs
  | reset =>
    simp [State.HeaderPrefix, State.KindsLegal, State.afterReset, State.reset, HeaderRegs.reset, IndexRegs.reset]
  | command _ hend =>
    obtain ⟨w, heff, ht⟩ := hend.effect
    rw [ht]
    exact ⟨heff.headerPrefix hs.1, heff.kindsLegal hs.2⟩
  | writeReg => simpa [State.HeaderPrefix, State.KindsLegal] using hs
  | writeBuf => exact hs
  | writeSmp => exact hs

/-! ### The host's side -/

/-- Settles O5: the host port of an idle WVC decodes the word and dispatches it. -/
theorem stepRunsDecodedCommand : Obligations.StepRunsDecodedCommand := by
  intro w i s rest hidle hin hdec
  calc
    step s = hostStep (.writeReg .CMD w) { s with inputs := rest } := step_of_cons hin
    _ = command w { s with inputs := rest } := hostStep_writeCmd_idle (s := { s with inputs := rest }) hidle w
    _ = exec i { s with inputs := rest, cmd := w } := by simp [command, hdec]

section
variable (s : State) (w : Word)

/-- An operand register of 32 bits then reads as the word (R23). -/
theorem State.readReg_writeReg_word {r : Reg}
    (hr : r ∈ [Reg.OFF, .VAL_LO, .VAL_HI, .SRC, .DST, .CNT, .BUFLEN, .BLKALIGN, .RATE, .PAYLEN]) :
    (s.writeReg r w).readReg r = w := by
  simp only [List.mem_cons, List.not_mem_nil, or_false] at hr
  rcases hr with rfl | rfl | rfl | rfl | rfl | rfl | rfl | rfl | rfl | rfl <;> rfl

/-- An operand register of 16 bits then reads as the word's low half (R23, R37). -/
theorem State.readReg_writeReg_half {r : Reg} (hr : r ∈ [Reg.CH, .BPS]) :
    ((s.writeReg r w).readReg r).toNat = w.toNat % 2 ^ 16 := by
  have hread : ((w.setWidth 16).setWidth 32).toNat = w.toNat % 2 ^ 16 := by
    rw [BitVec.toNat_setWidth, BitVec.toNat_setWidth]
    omega
  simp only [List.mem_cons, List.not_mem_nil, or_false] at hr
  rcases hr with rfl | rfl
  · exact hread
  · exact hread

/-- STATUS then has bit 3 cleared where the word has it set, and is as it was elsewhere (R25). -/
theorem statusWritten_read (old : BitVec 4) :
    (statusWritten old w).setWidth 32 = if w.getLsbD 3 then old.setWidth 32 &&& 7 else old.setWidth 32 := by
  unfold statusWritten
  generalize w.getLsbD 3 = clear
  revert old clear
  decide

/-- A register of class RO ignores the write (R23). -/
theorem State.writeReg_readOnly {r : Reg}
    (hr : r ∉ [Reg.OFF, .VAL_LO, .VAL_HI, .SRC, .DST, .CNT, .BUFLEN, .BLKALIGN, .RATE, .PAYLEN, .CH, .BPS, .STATUS]) :
    s.writeReg r w = s := by
  cases r with
  | STATUS | OFF | VAL_LO | VAL_HI | SRC | DST | CNT | BUFLEN | BLKALIGN | CH | RATE | BPS | PAYLEN => simp at hr
  | _ => rfl

/-- A write of one register leaves every other as it was (R46). -/
theorem State.readReg_writeReg_other {r q : Reg} (hq : q ≠ r) : (s.writeReg r w).readReg q = s.readReg q := by
  cases r with
  | STATUS | OFF | VAL_LO | VAL_HI | SRC | DST | CNT | BUFLEN | BLKALIGN | CH | RATE | BPS | PAYLEN =>
    cases q <;> first | exact absurd rfl hq | rfl
  | _ => rfl

end

/-- Settles O6, by the class of the register: operand, STATUS, or read-only. -/
theorem hostRegisterWrites : Obligations.HostRegisterWrites := by
  intro r w s rest hidle hin hr
  have hbusy : ¬ (State.busy { s with inputs := rest } && r.isOperand) = true := by
    simp [show State.busy { s with inputs := rest } = false from hidle]
  refine ⟨State.writeReg { s with inputs := rest } r w, ?_, State.readReg_writeReg_word _ w,
    State.readReg_writeReg_half _ w, ?_, State.writeReg_readOnly _ w,
    fun q hq => State.readReg_writeReg_other _ w hq, ?_⟩
  · rw [step_of_cons hin, hostStep_writeReg hr, if_neg hbusy]
  · rintro rfl
    exact statusWritten_read w s.status
  · simp

/-- One byte written: it reads as the byte, and every other as before (R41). -/
theorem State.bufByte_storeBytes_single (s : State) (a : Nat) (b : Byte) (c : Nat) :
    (s.storeBytes a [b]).bufByte c = if c = a then b else s.bufByte c := by
  have hlookup : Memory.lookup (s.storeBytes a [b]).buf c = _ := Memory.lookup_store s.buf a c b
  unfold State.bufByte
  rw [hlookup]
  split <;> rfl

/-- One cell written: it reads as the value, and every other as before (R42). -/
theorem State.smpCell_storeCells_single (s : State) (i : Nat) (v : Cell) (j : Nat) :
    (s.storeCells i [v]).smpCell j = if j = i then v else s.smpCell j := by
  have hlookup : Memory.lookup (s.storeCells i [v]).smp j = _ := Memory.lookup_store s.smp i j v
  unfold State.smpCell
  rw [hlookup]
  split <;> rfl

/-- Settles O7: below the capacity a single store, from the capacity on the port's fault. -/
theorem hostMemoryWrites : Obligations.HostMemoryWrites := by
  intro s rest hidle
  have hidle' : State.busy { s with inputs := rest } = false := hidle
  refine ⟨fun a b hin => ⟨fun ha => ?_, fun ha => ?_⟩, fun i v hin => ⟨fun hi => ?_, fun hi => ?_⟩⟩
  · refine ⟨State.storeBytes { s with inputs := rest } a [b], ?_, fun c => ?_, rfl⟩
    · rw [step_of_cons hin]
      simp [hostStep, hidle', ha]
    · exact State.bufByte_storeBytes_single { s with inputs := rest } a b c
  · exact step_of_cons hin ▸ hostStep_fault_iff.mpr ⟨hidle', .inl ⟨a, b, rfl, ha, rfl⟩⟩
  · refine ⟨State.storeCells { s with inputs := rest } i [v], ?_, fun j => ?_, rfl⟩
    · rw [step_of_cons hin]
      simp [hostStep, hidle', hi]
    · exact State.smpCell_storeCells_single { s with inputs := rest } i v j
  · exact step_of_cons hin ▸ hostStep_fault_iff.mpr ⟨hidle', .inr ⟨i, v, rfl, hi, rfl⟩⟩

/-- Settles O8: an asserted reset has the registers of the reset state, and lists no cell of any memory. -/
theorem resetClearsEveryRegister : Obligations.ResetClearsEveryRegister := by
  have hregs : ∀ r, State.reset.readReg r = 0 := by intro r; cases r <;> rfl
  refine ⟨hregs, fun s rest hin => ?_⟩
  refine ⟨State.afterReset { s with inputs := rest }, step_of_cons hin, fun r => ?_, rfl, rfl, fun _ => rfl, fun _ => rfl,
    fun _ => rfl⟩
  have hread : State.readReg (State.afterReset { s with inputs := rest }) r = State.reset.readReg r := by
    cases r <;> rfl
  rw [hread, hregs]

/-- Settles O9: the host port stops in these cases alone, since no command stops. -/
theorem stepStopsOnlyForTheHost : Obligations.StepStopsOnlyForTheHost := by
  intro s
  cases hin : s.inputs with
  | nil => simp [step_of_empty hin]
  | cons a rest =>
    rw [step_of_cons hin]
    refine ⟨fun r => hostStep_refused_iff.trans ?_, fun f => hostStep_fault_iff.trans ?_⟩
    · constructor
      · rintro ⟨hr, hbusy, ha⟩
        exact ⟨hr, hbusy, a, rest, rfl, ha⟩
      · rintro ⟨hr, hbusy, a', rest', heq, ha⟩
        cases heq
        exact ⟨hr, hbusy, ha⟩
    · constructor
      · rintro ⟨hidle, ha⟩
        exact ⟨hidle, a, rest, rfl, ha⟩
      · rintro ⟨hidle, a', rest', heq, ha⟩
        cases heq
        exact ⟨hidle, ha⟩

/-! ### How commands end -/

/-- Settles O10: every command answers, and each of its two ends writes the flags so. -/
theorem commandEndSetsFlags : Obligations.CommandEndSetsFlags := by
  intro i s
  obtain ⟨t, ht⟩ := exec_next s i
  have hend := exec_ended ht
  obtain ⟨herr, -, hinfo⟩ := hend.statusAgrees
  obtain ⟨w, heff, hw⟩ := hend.effect
  have hcmd : t.cmd = s.cmd := (congrArg State.cmd hw).trans heff.cmd_eq
  exact ⟨t, ht, hend.idle, hend.doneFlag, herr, hend.errSeen, hinfo, hcmd⟩

/-- A step that leaves the three bits alone has nothing to answer for. -/
theorem sticky_of_kept {s t : State} (hseen : t.errSeen = s.errSeen) (hdone : t.doneFlag = s.doneFlag)
    (herr : t.err = s.err) {P Q R : Prop} :
    (s.errSeen = true → t.errSeen = false → P) ∧ (s.doneFlag = true → t.doneFlag = false → Q) ∧ (t.err ≠ s.err → R) := by
  refine ⟨fun hs ht => ?_, fun hs ht => ?_, fun hne => absurd herr hne⟩
  · simp [hseen, hs] at ht
  · simp [hdone, hs] at ht

/-- Settles O11: DONE and ERR are out of the host's reach, and ERRSEEN is in reach of a write of STATUS alone. -/
theorem stickyStatusBits : Obligations.StickyStatusBits := by
  intro s t h
  cases step_transition h with
  | idle => exact sticky_of_kept rfl rfl rfl
  | @reset rest hin => exact ⟨fun _ _ => ⟨rest, .inl hin⟩, fun _ _ => ⟨rest, hin⟩, fun _ => ⟨rest, .inl hin⟩⟩
  | @command w rest i t hin hend =>
    refine ⟨fun hs ht => ?_, fun _ ht => ?_, fun _ => ⟨rest, .inr ⟨w, hin⟩⟩⟩
    · have hkept : t.errSeen = (s.errSeen || t.err) := hend.errSeen
      simp [hs, ht] at hkept
    · simp [hend.doneFlag] at ht
  | @writeReg r w rest hin hr =>
    have hseen : (State.writeReg { s with inputs := rest } r w).errSeen =
        if r = .STATUS then s.errSeen && !w.getLsbD 3 else s.errSeen := State.writeReg_errSeen ..
    have hdone : (State.writeReg { s with inputs := rest } r w).doneFlag = s.doneFlag := State.writeReg_doneFlag ..
    have herr : (State.writeReg { s with inputs := rest } r w).err = s.err := State.writeReg_err ..
    refine ⟨fun hs ht => ?_, fun hs ht => ?_, fun hne => absurd herr hne⟩
    · rw [hseen, hs] at ht
      split at ht
      · next hstatus =>
        subst hstatus
        exact ⟨rest, .inr ⟨w, hin, by simpa using ht⟩⟩
      · cases ht
    · rw [hdone, hs] at ht
      cases ht
  | writeBuf => exact sticky_of_kept rfl rfl rfl
  | writeSmp => exact sticky_of_kept rfl rfl rfl

/-- Settles O13: the frame of the command's effect; its end writes STATUS, ERRCODE and ERRINFO alone. -/
theorem commandsWriteOnlyWhatTheyName : Obligations.CommandsWriteOnlyWhatTheyName := by
  intro i s t h
  obtain ⟨w, heff, ht⟩ := (exec_ended h).effect
  rw [ht]
  refine ⟨heff.operands, fun hi => heff.nextOff ?_, fun hi => heff.val ?_, fun hi => heff.rcnt ?_,
    fun hi => heff.adpcm.resolve_right ?_, fun hi => heff.hdr.resolve_right ?_,
    fun hi => ⟨heff.idx.resolve_right (hi ·.1), fun j => heff.descRecord_outside ?_⟩,
    fun a ha => heff.bufByte_outside ha, fun j hj => heff.smpCell_outside hj⟩
  · rcases hi with rfl | ⟨d, k, rfl⟩ | ⟨a, b, rfl⟩ <;> rfl
  · exact Bool.eq_false_iff.mpr fun hv => (writesVal_iff.mp hv).elim hi
  · rcases hi with rfl | ⟨d, k, rfl⟩ | ⟨n, rfl⟩ | ⟨n, rfl⟩ <;> rfl
  · exact fun hw => (writesAdpcm_iff.mp hw.1).elim hi.1 hi.2
  · rintro ⟨d, k, rfl, -⟩
    exact hi d k rfl
  · rw [descExtent_of_ne_idx hi]
    exact Nat.zero_le j

/-- Settles O45, by unfolding: no check and no codec pass of ADE or ADD reads the two registers, and each of their ends
overwrites both, by `setAdpcm` or by the draw of `freeAdpcm`. -/
theorem adpcmPassStartsFresh : Obligations.AdpcmPassStartsFresh := by
  intro s p q
  exact ⟨rfl, rfl⟩

end Sys2Proof.Machine
end

section
/-! PROOF of O14 (20_memory.md R54, 60_exceptions.md R308, R312): what a command has written when it ends in error. Every
error leaves the result registers alone; an error of a check leaves the memories alone too, and the other errors are those
of the element loops and of the chunk walk. -/

namespace Sys2Proof.Machine

/-! ### What an error leaves alone -/

/-- `w` has the result registers of `s`, but for PRED and SIDX (R308). -/
structure State.KeepsResults (s w : State) : Prop where
  nextOff : w.nextOff = s.nextOff
  valLo : w.valLo = s.valLo
  valHi : w.valHi = s.valHi
  rcnt : w.rcnt = s.rcnt
  hdr : w.hdr = s.hdr
  idx : w.idx = s.idx

/-- `w` has the three memories of `s`. -/
structure State.KeepsMemories (s w : State) : Prop where
  buf : w.buf = s.buf
  smp : w.smp = s.smp
  desc : w.desc = s.desc

section
variable (s : State)

@[simp] theorem State.keepsResults_refl : s.KeepsResults s := ⟨rfl, rfl, rfl, rfl, rfl, rfl⟩
@[simp] theorem State.keepsResults_freeBytes (a n : Nat) : s.KeepsResults (s.freeBytes a n) := by constructor <;> simp
@[simp] theorem State.keepsResults_freeCells (i n : Nat) : s.KeepsResults (s.freeCells i n) := by constructor <;> simp
@[simp] theorem State.keepsResults_freeRecords : s.KeepsResults s.freeRecords := by constructor <;> simp

theorem State.KeepsResults.freeAdpcm {s w : State} (h : s.KeepsResults w) : s.KeepsResults w.freeAdpcm :=
  ⟨h.nextOff, h.valLo, h.valHi, h.rcnt, h.hdr, h.idx⟩

@[simp] theorem State.keepsMemories_refl : s.KeepsMemories s := ⟨rfl, rfl, rfl⟩
@[simp] theorem State.keepsMemories_freeAdpcm : s.KeepsMemories s.freeAdpcm := by constructor <;> simp

end

/-! ### The errors that come after the first write -/

/-- The kinds an element loop or the chunk walk can end in (R312). -/
def ErrorKind.ofLoop : ErrorKind → Bool
  | .overflow | .underflow | .tableFull => true
  | _ => false

/-- The commands of one element at most, whose every check comes before their first write. -/
def checksBeforeWriting : Instr → Bool
  | .wrv _ | .hdr _ _ => true
  | _ => false

theorem ErrorKind.ofLoop_iff {k : ErrorKind} : k.ofLoop = true ↔ k.code ∈ [5, 6, 19] := by
  cases k <;> decide

theorem checksBeforeWriting_iff {i : Instr} :
    checksBeforeWriting i = true ↔ (∃ t, i = .wrv t) ∨ (∃ depth kind, i = .hdr depth kind) := by
  cases i <;> simp [checksBeforeWriting]

theorem writeValue_error_ofLoop {t : NumericType} {raw : BitVec 32} {v : Cell} {n : Nat} {e : Error}
    (h : writeValue t raw v n = .error e) : e.kind.ofLoop = true := by
  unfold writeValue at h
  split at h
  · cases h
  · split at h
    · next hc =>
      cases h
      rcases checkRange_error hc with ⟨-, rfl⟩ | ⟨-, -, rfl⟩ <;> rfl
    · cases h

theorem samples16_error_ofLoop {s : State} {e : Error} (h : s.samples16 = .error e) : e.kind.ofLoop = true := by
  obtain ⟨k, -, hk, -⟩ := collect_error h
  rcases checkSample16_error hk with ⟨-, rfl⟩ | ⟨-, rfl⟩ <;> rfl

theorem cvtLoop_error_ofLoop {a b n i : Nat} {s : State} {e : Error} (h : cvtLoop a b n i s = .error e) :
    e.kind.ofLoop = true := by
  obtain ⟨k, -, rfl | rfl⟩ := cvtLoop_error h <;> rfl

/-! ### Every command, by its cases -/

/-- The three ways a command ends, by what its errors leave alone: without error; by a check that comes before its first
write; by its element loop or its chunk walk. -/
inductive Conclusion (i : Instr) (s : State) : State → Prop where
  | completed (w : State) : Conclusion i s w.completed
  | checkFailed {w : State} (e : Error) (hres : s.KeepsResults w) (hmem : s.KeepsMemories w) :
      Conclusion i s (w.raised e)
  | loopFailed {w : State} {e : Error} (hres : s.KeepsResults w) (he : e.kind.ofLoop = true)
      (hi : checksBeforeWriting i = false) : Conclusion i s (w.raised e)

/-- An error found before anything was written. -/
theorem Conclusion.atOnce (i : Instr) (s : State) (e : Error) : Conclusion i s (s.raised e) :=
  .checkFailed e (by simp) (by simp)

/-- An error of a check of ADE or ADD, which leaves PRED and SIDX unspecified (U6). -/
theorem Conclusion.adpcmCheck (i : Instr) (s : State) (e : Error) : Conclusion i s (s.freeAdpcm.raised e) :=
  .checkFailed e s.keepsResults_refl.freeAdpcm (by simp)

section
variable {s u : State}

theorem execRdv_conclusion {t : NumericType} (h : execRdv t s = .next u) : Conclusion (.rdv t) s u := by
  rcases execRdv_cases h with ⟨-, rfl⟩ | ⟨-, -, rfl⟩ | ⟨-, -, rfl⟩
  · exact .atOnce ..
  · exact .atOnce ..
  · exact .completed _

theorem execWrv_conclusion {t : NumericType} (h : execWrv t s = .next u) : Conclusion (.wrv t) s u := by
  rcases execWrv_cases h with ⟨-, rfl⟩ | ⟨-, -, rfl⟩ | ⟨-, -, ⟨e, -, rfl⟩ | ⟨l, -, rfl⟩⟩
  · exact .atOnce ..
  · exact .atOnce ..
  · exact .atOnce ..
  · exact .completed _

theorem execRda_conclusion {t : NumericType} (h : execRda t s = .next u) : Conclusion (.rda t) s u := by
  rcases execRda_cases h with ⟨-, rfl⟩ | ⟨-, -, rfl⟩ | ⟨-, -, -, rfl⟩ | ⟨-, -, -, rfl⟩
  · exact .atOnce ..
  · exact .atOnce ..
  · exact .atOnce ..
  · exact .completed _

theorem execWra_conclusion {t : NumericType} (h : execWra t s = .next u) : Conclusion (.wra t) s u := by
  rcases execWra_cases h with
    ⟨-, rfl⟩ | ⟨-, -, rfl⟩ | ⟨-, -, -, rfl⟩ | ⟨-, -, -, ⟨e, he, rfl⟩ | ⟨l, -, rfl⟩⟩
  · exact .atOnce ..
  · exact .atOnce ..
  · exact .atOnce ..
  · obtain ⟨k, -, hk, -⟩ := collect_error he
    exact .loopFailed (by simp) (writeValue_error_ofLoop hk) rfl
  · exact .completed _

theorem execIdx_conclusion (h : execIdx s = .next u) : Conclusion .idx s u := by
  rcases execIdx_cases h with ⟨e, -, rfl⟩ | ⟨kind, size, e, -, he, rfl⟩ | ⟨kind, size, rs, -, -, rfl⟩
  · exact .atOnce ..
  · obtain ⟨c, rfl, -⟩ := walk_error _ _ _ _ _ _ _ _ he
    exact .loopFailed (by simp) rfl rfl
  · exact .completed _

theorem execHdr_conclusion {depth : Nat} {kind : ContainerKind} (h : execHdr depth kind s = .next u) :
    Conclusion (.hdr depth kind) s u := by
  rcases execHdr_cases h with ⟨-, rfl⟩ | ⟨-, ⟨e, -, rfl⟩ | ⟨-, rfl⟩⟩
  · exact .atOnce ..
  · exact .atOnce ..
  · exact .completed _

theorem execCvt_conclusion {a b : Nat} (h : execCvt a b s = .next u) : Conclusion (.cvt a b) s u := by
  rcases execCvt_cases h with
    ⟨-, rfl⟩ | ⟨-, -, rfl⟩ | ⟨-, -, -, rfl⟩ | ⟨-, -, -, -, rfl⟩ | ⟨-, -, -, -, ⟨e, he, rfl⟩ | ⟨w, -, rfl⟩⟩
  · exact .atOnce ..
  · exact .atOnce ..
  · exact .atOnce ..
  · exact .atOnce ..
  · exact .loopFailed (by simp) (cvtLoop_error_ofLoop he) rfl
  · exact .completed _

theorem execAde_conclusion (h : execAde s = .next u) : Conclusion .ade s u := by
  rcases execAde_cases h with ⟨-, rfl⟩ | ⟨-, -, rfl⟩ | ⟨-, -, ⟨e, he, rfl⟩ | ⟨xs, -, rfl⟩⟩
  · exact .adpcmCheck ..
  · exact .adpcmCheck ..
  · exact .loopFailed (s.keepsResults_freeBytes ..).freeAdpcm (samples16_error_ofLoop he) rfl
  · exact .completed _

theorem execAdd_conclusion (h : execAdd s = .next u) : Conclusion .add s u := by
  rcases execAdd_cases h with ⟨-, rfl⟩ | ⟨-, -, rfl⟩ | ⟨-, -, -, rfl⟩ | ⟨-, -, -, rfl⟩
  · exact .adpcmCheck ..
  · exact .adpcmCheck ..
  · exact .adpcmCheck ..
  · exact .completed _

/-- ALE and MUE, the two commands of this shape (R270). -/
theorem compress_conclusion {i : Instr} (hi : checksBeforeWriting i = false) {enc : Int → Nat}
    (h : compress enc s = .next u) : Conclusion i s u := by
  rcases compress_cases h with ⟨-, rfl⟩ | ⟨-, -, rfl⟩ | ⟨-, -, ⟨e, he, rfl⟩ | ⟨xs, -, rfl⟩⟩
  · exact .atOnce ..
  · exact .atOnce ..
  · exact .loopFailed (by simp) (samples16_error_ofLoop he) hi
  · exact .completed _

/-- ALD and MUD, the two commands of this shape (R270). -/
theorem expand_conclusion (i : Instr) {dec : Nat → Int} (h : expand dec s = .next u) : Conclusion i s u := by
  rcases expand_cases h with ⟨-, rfl⟩ | ⟨-, -, rfl⟩ | ⟨-, -, rfl⟩
  · exact .atOnce ..
  · exact .atOnce ..
  · exact .completed _

theorem exec_conclusion {i : Instr} (h : exec i s = .next u) : Conclusion i s u := by
  cases i with
  | rdv t => exact execRdv_conclusion h
  | wrv t => exact execWrv_conclusion h
  | rda t => exact execRda_conclusion h
  | wra t => exact execWra_conclusion h
  | idx => exact execIdx_conclusion h
  | hdr depth kind => exact execHdr_conclusion h
  | cvt a b => exact execCvt_conclusion h
  | ade => exact execAde_conclusion h
  | add => exact execAdd_conclusion h
  | ale => exact compress_conclusion rfl h
  | ald => exact expand_conclusion .ald h
  | mue => exact compress_conclusion rfl h
  | mud => exact expand_conclusion .mud h

end

/-- Settles O14: an error of a check has written nothing, and an error of an element loop or of the chunk walk, which
neither WRV nor HDR has, has freed a memory extent and no result register. -/
theorem failedCommandKeepsResults : Obligations.FailedCommandKeepsResults := by
  intro i s t h herr
  cases exec_conclusion h with
  | completed w => exact absurd rfl herr
  | checkFailed e hres hmem =>
    exact ⟨⟨hres.nextOff, hres.valLo, hres.valHi, hres.rcnt, hres.hdr, hres.idx⟩,
      fun _ => ⟨hmem.buf, hmem.smp, hmem.desc⟩⟩
  | loopFailed hres he hi =>
    refine ⟨⟨hres.nextOff, hres.valLo, hres.valHi, hres.rcnt, hres.hdr, hres.idx⟩, ?_⟩
    rintro (hcode | hinstr)
    · exact absurd (ErrorKind.ofLoop_iff.mp he) hcode
    · simp [checksBeforeWriting_iff.mpr hinstr] at hi

end Sys2Proof.Machine
end

section
/-! PROOF support for O31 (41_chunk_indexer.md R141, R146, R147, R152): one step of the chunk walk without its two cases, how
many records a walk of a range gives, and how a walk with a small table follows the walk with a large one. -/

namespace Sys2Proof.Machine

/-! ### One header of the walk -/

section
variable (s : State) (be : Bool) (cursor bound : Nat)

/-- The chunk at `cursor` is a LIST whose format tag lies below its bound, so that its children are walked (R147, R148). -/
def State.entersList : Bool :=
  decide (s.bufBytes cursor 4 = tagList) &&
    decide (cursor + 8 + 4 ≤ min (cursor + 8 + s.u32 be (cursor + 4)) bound)

/-- The bound of the children of the chunk at `cursor` (R147); 0, below which no header lies, where none are walked. -/
def State.childrenBound : Nat :=
  if s.entersList be cursor bound then min (cursor + 8 + s.u32 be (cursor + 4)) bound else 0

/-- The header after the chunk at `cursor` on its level (R146). -/
def State.nextSiblingHeader : Nat := nextHeader (cursor + 8) (s.u32 be (cursor + 4))

/-- The record of the chunk whose header stands at `cursor` (R150). -/
def State.headerRecord (parent : Option Nat) (depth : Nat) : DescRecord :=
  chunkRecord (s.bufBytes cursor 4) (s.u32 be (cursor + 4)) (cursor + 8)
    (if s.entersList be cursor bound then some (s.bufBytes (cursor + 8) 4) else none)
    (decide (s.bufBytes cursor 4 = tagList)) parent depth

theorem State.childrenBound_le_bound : s.childrenBound be cursor bound ≤ bound := by
  unfold State.childrenBound
  split <;> omega

/-- Children lie before the next header of their LIST's level. -/
theorem State.childrenBound_le_next : s.childrenBound be cursor bound ≤ s.nextSiblingHeader be cursor := by
  unfold State.childrenBound State.nextSiblingHeader nextHeader
  split <;> omega

/-- Every header moves the cursor on by 8 or more (R319). -/
theorem State.le_nextSiblingHeader : cursor + 8 ≤ s.nextSiblingHeader be cursor := by
  unfold State.nextSiblingHeader nextHeader
  omega

/-- A record gives back the offset of its header, as TableFull reports it (R309). -/
theorem State.headerRecord_start (parent : Option Nat) (depth : Nat) (h : cursor + 8 < 2 ^ 32) :
    (s.headerRecord be cursor bound parent depth).start.toNat - 8 = cursor := by
  have hstart : (s.headerRecord be cursor bound parent depth).start = BitVec.ofNat 32 (cursor + 8) := rfl
  rw [hstart, BitVec.toNat_ofNat, Nat.mod_eq_of_lt h, Nat.add_sub_cancel]

end

/-! ### The steps of the walk -/

section
variable {s : State} {be : Bool} {f cursor bound : Nat} {parent : Option Nat} {depth n : Nat}

/-- Where no header lies below the bound the walk ends. -/
theorem walk_stop (h : bound < cursor + 8) : walk s be f cursor bound parent depth n = .ok [] := by
  cases f with
  | zero => rfl
  | succ f => rw [walk, if_pos h]

/-- A header that finds the table full (R152). -/
theorem walk_tableFull (hb : cursor + 8 ≤ bound) (hn : s.params.nDesc ≤ n) :
    walk s be (f + 1) cursor bound parent depth n = .error (tableFull cursor) := by
  rw [walk, if_neg (by omega), if_pos hn]

/-- A header with a record: the children, then what follows on the level. -/
theorem walk_header (hb : cursor + 8 ≤ bound) (hn : n < s.params.nDesc) :
    walk s be (f + 1) cursor bound parent depth n =
      (walk s be f (cursor + 12) (s.childrenBound be cursor bound) (some n) (depth + 1) (n + 1)).bind fun children =>
        (walk s be f (s.nextSiblingHeader be cursor) bound parent depth (n + 1 + children.length)).bind fun rest =>
          .ok (s.headerRecord be cursor bound parent depth :: (children ++ rest)) := by
  rw [walk, if_neg (by omega), if_neg (by omega)]
  cases hlist : s.entersList be cursor bound with
  | true =>
    simp only [State.childrenBound, State.headerRecord, hlist, if_true]
    obtain ⟨htag, hroom⟩ := Bool.and_eq_true_iff.mp hlist
    simp only [htag, hroom, Bool.and_self, if_true]
    cases walk s be f (cursor + 12) _ (some n) (depth + 1) (n + 1) with
    | error e => rfl
    | ok children =>
      simp only [State.nextSiblingHeader, Except.bind]
      cases walk s be f (nextHeader _ _) bound parent depth (n + 1 + children.length) <;> rfl
  | false =>
    have hnone : walk s be f (cursor + 12) 0 (some n) (depth + 1) (n + 1) = .ok [] := walk_stop (by omega)
    simp only [State.childrenBound, State.headerRecord, hlist, Bool.false_eq_true, if_false, hnone]
    unfold State.entersList at hlist
    simp only [hlist, Bool.false_eq_true, if_false, Except.bind, List.length_nil, Nat.add_zero, List.nil_append,
      State.nextSiblingHeader]
    cases walk s be f (nextHeader _ _) bound parent depth (n + 1) <;> rfl

/-- What a walk that succeeds has done. -/
theorem walk_ok_cases {rs : List DescRecord} (h : walk s be (f + 1) cursor bound parent depth n = .ok rs) :
    (bound < cursor + 8 ∧ rs = []) ∨
    (cursor + 8 ≤ bound ∧ n < s.params.nDesc ∧ ∃ children rest,
      walk s be f (cursor + 12) (s.childrenBound be cursor bound) (some n) (depth + 1) (n + 1) = .ok children ∧
      walk s be f (s.nextSiblingHeader be cursor) bound parent depth (n + 1 + children.length) = .ok rest ∧
      rs = s.headerRecord be cursor bound parent depth :: (children ++ rest)) := by
  by_cases hb : bound < cursor + 8
  · rw [walk_stop hb] at h
    cases h
    exact .inl ⟨hb, rfl⟩
  have hb : cursor + 8 ≤ bound := not_lt.mp hb
  by_cases hn : s.params.nDesc ≤ n
  · rw [walk_tableFull hb hn] at h
    cases h
  have hn : n < s.params.nDesc := not_le.mp hn
  refine .inr ⟨hb, hn, ?_⟩
  rw [walk_header hb hn] at h
  cases hc : walk s be f (cursor + 12) (s.childrenBound be cursor bound) (some n) (depth + 1) (n + 1) with
  | error e => simp [hc, Except.bind] at h
  | ok children =>
    cases hr : walk s be f (s.nextSiblingHeader be cursor) bound parent depth (n + 1 + children.length) with
    | error e => simp [hc, hr, Except.bind] at h
    | ok rest =>
      simp only [hc, hr, Except.bind, Except.ok.injEq] at h
      exact ⟨children, rest, rfl, hr, h.symm⟩

/-! ### How many records a walk gives -/

/-- Each record takes 8 bytes of the range walked, its header. -/
theorem walk_ok_length {rs : List DescRecord} (h : walk s be f cursor bound parent depth n = .ok rs) :
    8 * rs.length ≤ bound - cursor := by
  induction f generalizing cursor bound parent depth n rs with
  | zero => cases h; simp
  | succ f ih =>
    rcases walk_ok_cases h with ⟨-, rfl⟩ | ⟨hb, -, children, rest, hc, hr, rfl⟩
    · simp
    · have hchildren := ih hc
      have hrest := ih hr
      have hle := s.childrenBound_le_bound be cursor bound
      have hnext := s.childrenBound_le_next be cursor bound
      have hmove := s.le_nextSiblingHeader be cursor
      simp only [List.length_cons, List.length_append]
      omega

/-- A table with a record for every 8 bytes of the range never fills. -/
theorem walk_completes (hroom : n + (bound - cursor) / 8 ≤ s.params.nDesc) :
    ∃ rs, walk s be f cursor bound parent depth n = .ok rs := by
  induction f generalizing cursor bound parent depth n with
  | zero => exact ⟨[], rfl⟩
  | succ f ih =>
    by_cases hb : bound < cursor + 8
    · exact ⟨[], walk_stop hb⟩
    · have hle := s.childrenBound_le_bound be cursor bound
      have hnext := s.childrenBound_le_next be cursor bound
      have hmove := s.le_nextSiblingHeader be cursor
      obtain ⟨children, hc⟩ := ih (cursor := cursor + 12) (bound := s.childrenBound be cursor bound) (parent := some n)
        (depth := depth + 1) (n := n + 1) (by omega)
      have hlength := walk_ok_length hc
      obtain ⟨rest, hr⟩ := ih (cursor := s.nextSiblingHeader be cursor) (bound := bound) (parent := parent)
        (depth := depth) (n := n + 1 + children.length) (by omega)
      rw [walk_header (by omega) (by omega), hc, Except.bind, hr]
      exact ⟨_, rfl⟩

/-! ### A walk with another table -/

/-- The same machine with `size` records of DESC. -/
def State.withTable (s : State) (size : Nat) : State := { s with params := { s.params with nDesc := size } }

@[simp] theorem State.withTable_nDesc (size : Nat) : (s.withTable size).params.nDesc = size := rfl
@[simp] theorem State.withTable_len (size : Nat) : (s.withTable size).len = s.len := rfl
@[simp] theorem State.withTable_childrenBound (size : Nat) :
    (s.withTable size).childrenBound be cursor bound = s.childrenBound be cursor bound := rfl
@[simp] theorem State.withTable_nextSiblingHeader (size : Nat) :
    (s.withTable size).nextSiblingHeader be cursor = s.nextSiblingHeader be cursor := rfl
@[simp] theorem State.withTable_headerRecord (size : Nat) :
    (s.withTable size).headerRecord be cursor bound parent depth = s.headerRecord be cursor bound parent depth := rfl

/-- Where the records of the walk with another table fit, the walk gives the same. -/
theorem walk_of_fits {size : Nat} {rs : List DescRecord}
    (h : walk (s.withTable size) be f cursor bound parent depth n = .ok rs) (hfit : n + rs.length ≤ s.params.nDesc) :
    walk s be f cursor bound parent depth n = .ok rs := by
  induction f generalizing cursor bound parent depth n rs with
  | zero => exact h
  | succ f ih =>
    rcases walk_ok_cases h with ⟨hb, rfl⟩ | ⟨hb, -, children, rest, hc, hr, rfl⟩
    · exact walk_stop hb
    · rw [State.withTable_childrenBound] at hc
      rw [State.withTable_nextSiblingHeader] at hr
      simp only [List.length_cons, List.length_append] at hfit
      rw [walk_header hb (by omega), ih hc (by omega), Except.bind, ih hr (by omega)]
      rfl

/-- Where they do not fit, the walk finds the table full at the header of the first record without a place (R152). -/
theorem walk_of_overfull {size : Nat} {rs : List DescRecord}
    (h : walk (s.withTable size) be f cursor bound parent depth n = .ok rs) (hn : n ≤ s.params.nDesc)
    (hover : s.params.nDesc < n + rs.length) (hbound : bound < 2 ^ 32) :
    ∃ r, rs[s.params.nDesc - n]? = some r ∧
      walk s be f cursor bound parent depth n = .error (tableFull (r.start.toNat - 8)) := by
  induction f generalizing cursor bound parent depth n rs with
  | zero => cases h; simp at hover; omega
  | succ f ih =>
    rcases walk_ok_cases h with ⟨-, rfl⟩ | ⟨hb, -, children, rest, hc, hr, rfl⟩
    · simp at hover; omega
    · rw [State.withTable_childrenBound] at hc
      rw [State.withTable_nextSiblingHeader] at hr
      simp only [List.length_cons, List.length_append] at hover
      rcases Nat.eq_or_lt_of_le hn with hfull | hroom
      · refine ⟨s.headerRecord be cursor bound parent depth, by simp [hfull], ?_⟩
        rw [s.headerRecord_start be cursor bound parent depth (by omega), walk_tableFull hb hfull.ge]
      · have hindex : s.params.nDesc - n = s.params.nDesc - (n + 1) + 1 := by omega
        rw [hindex, List.getElem?_cons_succ, walk_header hb hroom]
        by_cases hchildren : n + 1 + children.length ≤ s.params.nDesc
        · obtain ⟨r, hget, herr⟩ := ih hr hchildren (by omega) hbound
          refine ⟨r, ?_, by rw [walk_of_fits hc hchildren, Except.bind, herr]; rfl⟩
          rw [List.getElem?_append_right (by omega), Nat.sub_sub]
          exact hget
        · have hle := s.childrenBound_le_bound be cursor bound
          obtain ⟨r, hget, herr⟩ := ih hc hroom (by omega) (hle.trans_lt hbound)
          refine ⟨r, ?_, by rw [herr]; rfl⟩
          rw [List.getElem?_append_left (by omega)]
          exact hget

end

/-! ### The container header (R140, R159) -/

section
variable {s : State}

/-- Bytes of BUF as a number, least significant first. -/
theorem leNat_bufBytes (a n : Nat) : leNat (s.bufBytes a n) = s.bytesAt a n false := by
  induction n generalizing a with
  | zero => rfl
  | succ n ih =>
    have hhead : s.bufBytes a (n + 1) = s.bufByte a :: s.bufBytes (a + 1) n := by
      simp [State.bufBytes, List.range_succ_eq_map, Function.comp_def, Nat.add_assoc, Nat.add_comm 1]
    have htail : s.bytesAt a (n + 1) false = (s.bufByte a).toNat + 256 * s.bytesAt (a + 1) n false := by
      simp only [State.bytesAt, Bool.false_eq_true, if_false]
      rw [Finset.sum_range_succ', Finset.mul_sum, Nat.pow_zero, Nat.mul_one, Nat.add_zero, Nat.add_comm]
      congr 1
      refine Finset.sum_congr rfl fun k _ => ?_
      rw [Nat.add_right_comm, ← Nat.add_assoc, Nat.pow_succ]
      ring
    rw [hhead, leNat, ih, htail]

/-- Lists of bytes of one length are told apart by their numbers. -/
theorem leNat_injective {l m : List Byte} (hlen : l.length = m.length) (h : leNat l = leNat m) : l = m := by
  induction l generalizing m with
  | nil => exact (List.length_eq_zero_iff.mp hlen.symm).symm
  | cons b l ih =>
    cases m with
    | nil => cases hlen
    | cons c m =>
      have hb := b.isLt
      have hc := c.isLt
      simp only [leNat] at h
      have hhead : b = c := BitVec.eq_of_toNat_eq (by omega)
      rw [hhead, ih (Nat.succ.inj hlen) (by omega)]

/-- A tag stands at `a` exactly when its number does. -/
theorem State.bufBytes_eq_tag_iff {a : Nat} {tag : List Byte} (hlen : tag.length = 4) :
    s.bufBytes a 4 = tag ↔ s.tagAt a = leNat tag := by
  rw [State.tagAt, ← leNat_bufBytes]
  exact ⟨congrArg leNat, leNat_injective (by rw [State.bufBytes_length, hlen])⟩

/-- The kind by the tag's bytes is the kind by its number (R140). -/
theorem State.kindOfTag_bufBytes : kindOfTag (s.bufBytes 0 4) = s.leadingKind := by
  unfold kindOfTag State.leadingKind
  simp only [State.bufBytes_eq_tag_iff (tag := tagRiff) rfl, State.bufBytes_eq_tag_iff (tag := tagRifx) rfl,
    State.bufBytes_eq_tag_iff (tag := tagRf64) rfl]
  rfl

theorem State.memRead_ok {a n : Nat} (h : a + n ≤ s.len) : s.memRead a n = .ok (s.bufBytes a n) :=
  if_neg (not_lt.mpr h)

/-- The header of a container raises nothing (R159). -/
theorem State.IsContainer.containerHeader {k : ContainerKind} (h : s.IsContainer k) :
    s.containerHeader = .ok (k, s.u32 (isBigEndianKind k) 4) := by
  obtain ⟨hlen, hkind, hwave⟩ := h
  have hfmt : s.bufBytes 8 4 = tagWave := (State.bufBytes_eq_tag_iff rfl).mpr hwave
  unfold State.containerHeader
  rw [State.memRead_ok (by omega), State.memRead_ok (by omega), State.memRead_ok (by omega)]
  simp only [State.kindOfTag_bufBytes, hkind, hfmt, if_true]
  rfl

end

/-! ### IDX on a container -/

/-- The X registers after IDX has found `n` chunks in a container of kind `k` (R44, R141). -/
def State.indexRegs (s : State) (k : ContainerKind) (n : Nat) : IndexRegs :=
  { kind := k.code
    size := BitVec.ofNat 32 (s.u32 (isBigEndianKind k) 4)
    format := tagWord tagWave
    nDesc := BitVec.ofNat 32 n }

/-- The state from which IDX ends without error: DESC and the X registers written (R141). -/
def State.indexed (s : State) (k : ContainerKind) (rs : List DescRecord) : State :=
  { s.storeRecords rs with idx := s.indexRegs k rs.length }

section
variable {s : State} {k : ContainerKind} {rs : List DescRecord}

theorem State.indexed_descRecord {i : Nat} (hi : i < rs.length) : (s.indexed k rs).descRecord i = rs[i] :=
  (s.storeRecords_descRecord rs i).trans (dif_pos hi)

/-- X_NDESC counts the records, which are fewer than 2^32 where each took a byte below LEN. -/
theorem State.indexed_nDesc (h : rs.length ≤ s.len) : (s.indexed k rs).idx.nDesc.toNat = rs.length :=
  Nat.mod_eq_of_lt (h.trans_lt s.len_lt)

/-- The end without error, written out (R313). -/
theorem State.completed_eq_succeeded (s : State) : s.completed = s.succeeded := by
  unfold State.completed State.succeeded
  rw [statusDone_eq]
  rfl

/-- The end with an error, written out (R308). -/
theorem State.raised_eq_failed (s : State) (e : Error) : s.raised e = s.failed e.kind.code e.info := by
  unfold State.raised State.failed
  rw [statusRaised_eq]

/-- IDX on a container whose records fit the table. -/
theorem execIdx_of_records (h : s.IsContainer k) (hrs : s.walkAll (isBigEndianKind k) = .ok rs) :
    exec .idx s = .next (s.indexed k rs).completed := by
  show execIdx s = _
  simp only [execIdx, h.containerHeader, hrs]
  rfl

/-- IDX on a container that overfills the table (R152). -/
theorem execIdx_of_walk_error (h : s.IsContainer k) {e : Error} (he : s.walkAll (isBigEndianKind k) = .error e) :
    exec .idx s = .next (s.freeRecords.raised e) := by
  show execIdx s = _
  simp only [execIdx, h.containerHeader, he]
  rfl

/-- A table with a record for every byte below LEN has room for every chunk. -/
theorem walkAll_withTable_completes (s : State) (be : Bool) : ∃ rs, (s.withTable s.len).walkAll be = .ok rs :=
  walk_completes (by simp; omega)

end

/-- Settles O31: the walk with a table of LEN records gives them all, and the walk with the real table either follows it
to the end or stops at the header of record number N_DESC. -/
theorem idxTableFullAtFirstUnstoredChunk : Obligations.IdxTableFullAtFirstUnstoredChunk := by
  intro k s hs
  obtain ⟨rs, hrs⟩ := walkAll_withTable_completes s (isBigEndianKind k)
  have hlarge : (s.withTable s.len).IsContainer k := hs
  have hcount : ((s.withTable s.len).indexed k rs).idx.nDesc.toNat = rs.length :=
    State.indexed_nDesc (walkAll_length hrs)
  refine ⟨_, execIdx_of_records hlarge hrs, State.completed_err _, fun hfit => ?_, fun hover => ?_⟩
  · have hfit : rs.length ≤ s.params.nDesc := hcount.symm.trans_le hfit
    refine ⟨_, execIdx_of_records hs (walk_of_fits hrs (by omega)), rfl, fun i hi => ?_,
      State.completed_eq_succeeded _⟩
    have hi : i < rs.length := hi.trans_eq hcount
    calc
      (s.indexed k rs).descRecord i = rs[i] := State.indexed_descRecord hi
      _ = ((s.withTable s.len).indexed k rs).descRecord i := (State.indexed_descRecord hi).symm
  · have hover : s.params.nDesc < rs.length := hover.trans_eq hcount
    obtain ⟨r, hget, herr⟩ := walk_of_overfull hrs (Nat.zero_le _) (by omega) s.len_lt
    have hrecord : ((s.withTable s.len).indexed k rs).descRecord s.params.nDesc = r :=
      (State.indexed_descRecord hover).trans (List.getElem_eq_iff hover |>.mpr hget)
    refine ⟨_, execIdx_of_walk_error hs herr, ?_⟩
    rw [← hrecord]
    exact State.raised_eq_failed ..

end Sys2Proof.Machine
end

section
/-! PROOF support for the family of 30_encoding.md: words and their fields as numbers, and each format by itself
(R71, R72, R73, R76). A format's decoder answers the fields exactly when the reserved bits are zero, and then the fields
are those of the one word that the format's encoder makes of them. -/

namespace Sys2Proof

/-! ### The fields of a word -/

section
variable (w : Word)

/-- A field is a range of the word's binary digits. -/
theorem field_toNat (start len : Nat) : (w.extractLsb' start len).toNat = w.toNat / 2 ^ start % 2 ^ len := by
  rw [BitVec.extractLsb'_toNat, Nat.shiftRight_eq_div_pow]

theorem field_eq_iff {start len : Nat} (v : BitVec len) :
    w.extractLsb' start len = v ↔ w.toNat / 2 ^ start % 2 ^ len = v.toNat := by
  rw [← BitVec.toNat_inj, field_toNat]

/-- The field at the top of the word is all that lies above the fields below it. -/
theorem topField_eq_zero_iff {start len : Nat} (h : start + len = 32) :
    w.extractLsb' start len = 0 ↔ w.toNat / 2 ^ start = 0 := by
  have hlt : w.toNat / 2 ^ start < 2 ^ len :=
    Nat.div_lt_of_lt_mul (by rw [← pow_add, h]; exact w.isLt)
  rw [field_eq_iff, Nat.mod_eq_of_lt hlt, BitVec.ofNat_eq_ofNat, BitVec.toNat_zero]

theorem opcodeOf_eq : opcodeOf w = w.toNat % 2 ^ 8 := by
  rw [opcodeOf, field_toNat, Nat.pow_zero, Nat.div_one]

theorem eq_getLsbD_iff {b : Bool} {k : Nat} : b = w.getLsbD k ↔ b.toNat = w.toNat / 2 ^ k % 2 := by
  rw [← Nat.toNat_testBit, BitVec.testBit_toNat]
  cases b <;> cases w.getLsbD k <;> decide

end

/-- A field above another counts as often as the lower one has values. -/
theorem append_toNat {m n : Nat} (x : BitVec m) (y : BitVec n) : (x ++ y).toNat = 2 ^ n * x.toNat + y.toNat := by
  rw [BitVec.toNat_append, Nat.shiftLeft_eq, Nat.mul_comm, ← Nat.two_pow_add_eq_or_of_lt y.isLt]

/-! ### The words of the formats -/

section
variable (op : BitVec 8)

theorem encodeN_toNat : (encodeN op).toNat = op.toNat := by
  rw [encodeN, append_toNat, BitVec.toNat_zero, Nat.mul_zero, Nat.zero_add]

theorem encodeV_toNat (t : NumericType) :
    (encodeV op t).toNat = 2 ^ 18 * t.bigEndian.toNat + 2 ^ 17 * t.isFloat.toNat + 2 ^ 16 * t.signed.toNat +
      2 ^ 8 * (t.bits % 2 ^ 7) + op.toNat := by
  simp only [encodeV, append_toNat, BitVec.toNat_ofBool, BitVec.toNat_ofNat]
  omega

theorem encodeH_toNat (depth : Nat) (kind : ContainerKind) :
    (encodeH op depth kind).toNat = 2 ^ 16 * kind.code.toNat + 2 ^ 8 * (depth % 2 ^ 8) + op.toNat := by
  simp only [encodeH, append_toNat, BitVec.toNat_ofNat]
  omega

theorem encodeC_toNat (fromCode toCode : Nat) :
    (encodeC op fromCode toCode).toNat = 2 ^ 16 * (toCode % 2 ^ 8) + 2 ^ 8 * (fromCode % 2 ^ 8) + op.toNat := by
  simp only [encodeC, append_toNat, BitVec.toNat_ofNat]
  omega

end

/-! ### What the decoder of each format answers -/

/-- The fields of a format V word (R72). -/
def typeField (w : Word) : NumericType :=
  { bits := (w.extractLsb' 8 7).toNat, signed := w.getLsbD 16, isFloat := w.getLsbD 17, bigEndian := w.getLsbD 18 }

theorem eq_typeField_iff {t : NumericType} {w : Word} :
    t = typeField w ↔ t.bits = w.toNat / 2 ^ 8 % 2 ^ 7 ∧ t.signed.toNat = w.toNat / 2 ^ 16 % 2 ∧
      t.isFloat.toNat = w.toNat / 2 ^ 17 % 2 ∧ t.bigEndian.toNat = w.toNat / 2 ^ 18 % 2 := by
  obtain ⟨bits, signed, isFloat, bigEndian⟩ := t
  simp only [typeField, NumericType.mk.injEq, field_toNat, eq_getLsbD_iff]

theorem containerKindOf_eq_some_iff {code : BitVec 2} {k : ContainerKind} :
    containerKindOf code = some k ↔ k.code = code := by
  revert code
  cases k <;> decide

/-- Only the reserved code 3 names no kind (R78). -/
theorem containerKindOf_eq_none_iff {code : BitVec 2} : containerKindOf code = none ↔ code = 3 := by
  revert code
  decide

section
variable {w : Word} {i : Instr}

/-- Every format's decoder refuses a word with a reserved bit set before it answers. -/
theorem guarded_eq_ok_iff {p : Prop} [Decidable p] {e : DecodeError} {answer : Except DecodeError Instr} :
    (if p then answer else .error e) = .ok i ↔ p ∧ answer = .ok i := by
  by_cases h : p <;> simp only [h, if_true, if_false, true_and, false_and, reduceCtorEq]

theorem decodeN_eq_ok_iff {j : Instr} : decodeN j w = .ok i ↔ w.toNat / 2 ^ 8 = 0 ∧ j = i := by
  rw [decodeN, guarded_eq_ok_iff, topField_eq_zero_iff w rfl, Except.ok.injEq]

theorem decodeV_eq_ok_iff {mk : NumericType → Instr} :
    decodeV mk w = .ok i ↔ (w.toNat / 2 ^ 15 % 2 = 0 ∧ w.toNat / 2 ^ 19 = 0) ∧ mk (typeField w) = i := by
  rw [decodeV, guarded_eq_ok_iff, topField_eq_zero_iff w (len := 13) rfl, field_eq_iff, Except.ok.injEq]
  rfl

theorem decodeH_eq_ok_iff :
    decodeH w = .ok i ↔
      w.toNat / 2 ^ 18 = 0 ∧ ∃ k, k.code = w.extractLsb' 16 2 ∧ .hdr (w.extractLsb' 8 8).toNat k = i := by
  rw [decodeH, guarded_eq_ok_iff, topField_eq_zero_iff w rfl]
  simp only [← containerKindOf_eq_some_iff]
  cases containerKindOf (w.extractLsb' 16 2) <;> simp

theorem decodeC_eq_ok_iff :
    decodeC w = .ok i ↔
      w.toNat / 2 ^ 24 = 0 ∧ .cvt (w.extractLsb' 8 8).toNat (w.extractLsb' 16 8).toNat = i := by
  rw [decodeC, guarded_eq_ok_iff, topField_eq_zero_iff w rfl, Except.ok.injEq]

end

/-! ### A word has one reading, and a reading one word -/

section
variable {w : Word} {op : BitVec 8} (hop : opcodeOf w = op.toNat)
include hop

theorem decodeN_eq_ok_iff_encodeN (i : Instr) : decodeN i w = .ok i ↔ encodeN op = w := by
  rw [opcodeOf_eq] at hop
  rw [decodeN_eq_ok_iff, and_iff_left rfl, ← BitVec.toNat_inj, encodeN_toNat]
  omega

theorem decodeV_eq_ok_iff_encodeV {mk : NumericType → Instr} (hmk : mk.Injective) (t : NumericType) :
    decodeV mk w = .ok (mk t) ↔ encodeV op t = w ∧ t.fits = true := by
  have hw := w.isLt
  rw [opcodeOf_eq] at hop
  rw [decodeV_eq_ok_iff, hmk.eq_iff, eq_comm (a := typeField w), eq_typeField_iff, ← BitVec.toNat_inj, encodeV_toNat,
    NumericType.fits, decide_eq_true_eq]
  have hsigned := t.signed.toNat_lt
  have hfloat := t.isFloat.toNat_lt
  have hbe := t.bigEndian.toNat_lt
  omega

theorem decodeH_eq_ok_iff_encodeH (depth : Nat) (kind : ContainerKind) :
    decodeH w = .ok (.hdr depth kind) ↔ encodeH op depth kind = w ∧ depthFits depth = true := by
  have hcode := kind.code.isLt
  rw [opcodeOf_eq] at hop
  have hfields : (∃ k, k.code = w.extractLsb' 16 2 ∧ Instr.hdr (w.extractLsb' 8 8).toNat k = .hdr depth kind) ↔
      kind.code.toNat = w.toNat / 2 ^ 16 % 2 ^ 2 ∧ depth = w.toNat / 2 ^ 8 % 2 ^ 8 := by
    rw [← field_toNat, ← field_toNat, BitVec.toNat_inj]
    simp [and_comm, eq_comm]
  rw [decodeH_eq_ok_iff, hfields, ← BitVec.toNat_inj, encodeH_toNat, depthFits, decide_eq_true_eq]
  omega

theorem decodeC_eq_ok_iff_encodeC (fromCode toCode : Nat) :
    decodeC w = .ok (.cvt fromCode toCode) ↔
      encodeC op fromCode toCode = w ∧ depthFits fromCode = true ∧ depthFits toCode = true := by
  rw [opcodeOf_eq] at hop
  rw [decodeC_eq_ok_iff, Instr.cvt.injEq, field_toNat, field_toNat, ← BitVec.toNat_inj, encodeC_toNat, depthFits,
    depthFits, decide_eq_true_eq, decide_eq_true_eq]
  omega

end

end Sys2Proof
end

section
/-! PROOFS of the family of 30_encoding.md: the decoder and the encoder agree on every word (O1, O2), the words the
decoder refuses are those R82 calls illegal (O3), and words of R87 (O4). The opcode chooses a command's format, and with
it the lemmas about that format. -/

namespace Sys2Proof

/-! ### The opcode chooses the format (R77) -/

/-- The opcodes of R77. -/
def opcodes : List Nat := [0x01, 0x02, 0x03, 0x04, 0x10, 0x20, 0x30, 0x40, 0x41, 0x50, 0x51, 0x52, 0x53]

/-- One command for each opcode. -/
def opcodeSamples : List Instr :=
  let t : NumericType := { bits := 0, signed := false, isFloat := false, bigEndian := false }
  [.rdv t, .wrv t, .rda t, .wra t, .idx, .hdr 0 .riff, .cvt 0 0, .ade, .add, .ale, .ald, .mue, .mud]

theorem mem_opcodes_iff {n : Nat} : n ∈ opcodes ↔ ∃ i : Instr, n = i.opcode.toNat := by
  constructor
  · intro h
    have hmap : opcodes = opcodeSamples.map fun i => i.opcode.toNat := rfl
    rw [hmap, List.mem_map] at h
    obtain ⟨i, -, hi⟩ := h
    exact ⟨i, hi.symm⟩
  · rintro ⟨i, rfl⟩
    cases i <;> simp [opcodes, Instr.opcode]

/-- The decoder of a command's format, which reads words of the command's opcode. -/
def Instr.decoder : Instr → Word → Except DecodeError Instr
  | .rdv _ => decodeV .rdv
  | .wrv _ => decodeV .wrv
  | .rda _ => decodeV .rda
  | .wra _ => decodeV .wra
  | .hdr _ _ => decodeH
  | .cvt _ _ => decodeC
  | .idx => decodeN .idx
  | .ade => decodeN .ade
  | .add => decodeN .add
  | .ale => decodeN .ale
  | .ald => decodeN .ald
  | .mue => decodeN .mue
  | .mud => decodeN .mud

section
variable {w : Word} {i : Instr}

theorem decode_of_opcode (h : opcodeOf w = i.opcode.toNat) : decode w = i.decoder w := by
  cases i <;> simp [decode, h, Instr.opcode, Instr.decoder]

theorem decode_of_not_mem_opcodes (h : opcodeOf w ∉ opcodes) : decode w = .error (.undefinedOpcode (opcodeOf w)) := by
  simp only [opcodes, List.mem_cons, List.not_mem_nil, or_false, not_or] at h
  simp only [decode, h, if_false]

/-- The format's decoder answers a command of the opcode it was chosen by. -/
theorem opcode_eq_of_decoder {j : Instr} (h : i.decoder w = .ok j) : i.opcode = j.opcode := by
  cases i with
  | rdv | wrv | rda | wra =>
    obtain ⟨-, rfl⟩ := decodeV_eq_ok_iff.mp h
    rfl
  | hdr =>
    obtain ⟨-, k, -, rfl⟩ := decodeH_eq_ok_iff.mp h
    rfl
  | cvt =>
    obtain ⟨-, rfl⟩ := decodeC_eq_ok_iff.mp h
    rfl
  | _ =>
    obtain ⟨-, rfl⟩ := decodeN_eq_ok_iff.mp h
    rfl

/-- A word read as a command holds the command's opcode. -/
theorem opcodeOf_of_decode (h : decode w = .ok i) : opcodeOf w = i.opcode.toNat := by
  by_cases hmem : opcodeOf w ∈ opcodes
  · obtain ⟨j, hj⟩ := mem_opcodes_iff.mp hmem
    rw [decode_of_opcode hj] at h
    rw [hj, opcode_eq_of_decoder h]
  · rw [decode_of_not_mem_opcodes hmem] at h
    cases h

/-- Bits 7:0 of a command's word are its opcode (R70). -/
theorem opcodeOf_encode (i : Instr) : opcodeOf (encode i) = i.opcode.toNat :=
  match i with
  | .rdv t => Laws.EncodeOpcode.rdv t
  | .wrv t => Laws.EncodeOpcode.wrv t
  | .rda t => Laws.EncodeOpcode.rda t
  | .wra t => Laws.EncodeOpcode.wra t
  | .idx => Laws.EncodeOpcode.idx
  | .hdr depth kind => Laws.EncodeOpcode.hdr depth kind
  | .cvt fromCode toCode => Laws.EncodeOpcode.cvt fromCode toCode
  | .ade => Laws.EncodeOpcode.ade
  | .add => Laws.EncodeOpcode.add
  | .ale => Laws.EncodeOpcode.ale
  | .ald => Laws.EncodeOpcode.ald
  | .mue => Laws.EncodeOpcode.mue
  | .mud => Laws.EncodeOpcode.mud

/-! ### Both round trips -/

/-- Among words of a command's opcode its format's decoder reads the command from its own word only, if it fits. -/
theorem decoder_eq_ok_iff (hop : opcodeOf w = i.opcode.toNat) :
    i.decoder w = .ok i ↔ encode i = w ∧ i.wellFormed = true := by
  cases i with
  | rdv t => exact decodeV_eq_ok_iff_encodeV hop (fun _ _ => Instr.rdv.inj) t
  | wrv t => exact decodeV_eq_ok_iff_encodeV hop (fun _ _ => Instr.wrv.inj) t
  | rda t => exact decodeV_eq_ok_iff_encodeV hop (fun _ _ => Instr.rda.inj) t
  | wra t => exact decodeV_eq_ok_iff_encodeV hop (fun _ _ => Instr.wra.inj) t
  | hdr depth kind => exact decodeH_eq_ok_iff_encodeH hop depth kind
  | cvt fromCode toCode =>
    rw [Instr.wellFormed, Bool.and_eq_true_iff]
    exact decodeC_eq_ok_iff_encodeC hop fromCode toCode
  | _ => exact (decodeN_eq_ok_iff_encodeN hop _).trans (and_iff_left rfl).symm

/-- The decoder reads a command from its own word and from no other, and only a command that fits its word. -/
theorem decode_eq_ok_iff : decode w = .ok i ↔ encode i = w ∧ i.wellFormed = true := by
  constructor
  · intro h
    have hop := opcodeOf_of_decode h
    rwa [decode_of_opcode hop, decoder_eq_ok_iff hop] at h
  · rintro ⟨rfl, hwf⟩
    have hop := opcodeOf_encode i
    rw [decode_of_opcode hop, decoder_eq_ok_iff hop]
    exact ⟨rfl, hwf⟩

end

/-- Settles O1: a command that fits its word is the one the decoder reads from that word. -/
theorem decodeEncodeRoundTrip : Obligations.DecodeEncodeRoundTrip :=
  fun _ hwf => decode_eq_ok_iff.mpr ⟨rfl, hwf⟩

/-- Settles O2: what the decoder reads from a word fits it and has no other word. -/
theorem encodeDecodeRoundTrip : Obligations.EncodeDecodeRoundTrip :=
  fun _ _ h => decode_eq_ok_iff.mp h

/-! ### Illegal words (R82) -/

/-- What R82 forbids the number `w` of a word with the command's opcode: a reserved bit of the format, or KIND 3. -/
def Instr.Forbids (w : Nat) : Instr → Prop
  | .rdv _ | .wrv _ | .rda _ | .wra _ => w / 2 ^ 15 % 2 ≠ 0 ∨ w / 2 ^ 19 ≠ 0
  | .hdr _ _ => w / 2 ^ 18 ≠ 0 ∨ w / 2 ^ 16 % 4 = 3
  | .cvt _ _ => w / 2 ^ 24 ≠ 0
  | .idx | .ade | .add | .ale | .ald | .mue | .mud => w / 2 ^ 8 ≠ 0

section
variable {w : Word} {i : Instr}

theorem illegalWord_of_not_mem_opcodes (h : opcodeOf w ∉ opcodes) : Machine.IllegalWord w.toNat :=
  .inl (opcodeOf_eq w ▸ h)

theorem illegalWord_iff_forbids (h : opcodeOf w = i.opcode.toNat) :
    Machine.IllegalWord w.toNat ↔ i.Forbids w.toNat := by
  rw [opcodeOf_eq] at h
  cases i <;> simp only [Machine.IllegalWord, h, Instr.opcode, Instr.Forbids] <;> simp

/-- The format's decoder reads a command unless R82 forbids it. -/
theorem exists_decoder_eq_ok_iff : (∃ j, i.decoder w = .ok j) ↔ ¬ i.Forbids w.toNat := by
  cases i with
  | rdv | wrv | rda | wra => simp [Instr.decoder, Instr.Forbids, decodeV_eq_ok_iff]
  | hdr =>
    have hkind : (∃ k : ContainerKind, k.code = w.extractLsb' 16 2) ↔ ¬ w.toNat / 2 ^ 16 % 4 = 3 := by
      simp only [← containerKindOf_eq_some_iff, ← Option.ne_none_iff_exists', Ne, containerKindOf_eq_none_iff,
        field_eq_iff]
      rfl
    simp only [Instr.decoder, Instr.Forbids, decodeH_eq_ok_iff, not_or, not_not, ← hkind]
    exact ⟨fun ⟨_, h, k, hk, _⟩ => ⟨h, k, hk⟩, fun ⟨h, k, hk⟩ => ⟨_, h, k, hk, rfl⟩⟩
  | cvt => simp [Instr.decoder, Instr.Forbids, decodeC_eq_ok_iff]
  | _ => simp [Instr.decoder, Instr.Forbids, decodeN_eq_ok_iff]

/-- The decoder reads a command from exactly the words that R82 does not call illegal. -/
theorem exists_decode_eq_ok_iff : (∃ i, decode w = .ok i) ↔ ¬ Machine.IllegalWord w.toNat := by
  by_cases hmem : opcodeOf w ∈ opcodes
  · obtain ⟨j, hj⟩ := mem_opcodes_iff.mp hmem
    rw [decode_of_opcode hj, illegalWord_iff_forbids hj, exists_decoder_eq_ok_iff]
  · simp [decode_of_not_mem_opcodes hmem, illegalWord_of_not_mem_opcodes hmem]

theorem exists_decode_eq_error (h : Machine.IllegalWord w.toNat) : ∃ e, decode w = .error e := by
  cases hd : decode w with
  | error e => exact ⟨e, rfl⟩
  | ok i => exact absurd h (exists_decode_eq_ok_iff.mp ⟨i, hd⟩)

end

section
open Machine

/-- A word the decoder refuses is stored and raises InvalidCommand with the word as info (R24, R309). -/
theorem command_of_decode_error {w : Word} {e : DecodeError} (h : decode w = .error e) (s : State) :
    command w s = .next (State.failed { s with cmd := w } 16 w.toNat) := by
  calc
    command w s = raise (invalidCommand w) { s with cmd := w } := by simp only [command, h]
    _ = .next (State.failed { s with cmd := w } 16 w.toNat) := congrArg Host.Outcome.next (State.raised_eq_failed ..)

/-- Settles O3: the words R82 calls illegal are those the decoder refuses. -/
theorem illegalWordRaisesInvalidCommand : Obligations.IllegalWordRaisesInvalidCommand := by
  intro w s rest hidle hinputs
  refine ⟨fun hillegal => ?_, exists_decode_eq_ok_iff.mpr⟩
  obtain ⟨e, he⟩ := exists_decode_eq_error hillegal
  have hidle' : State.busy { s with inputs := rest } = false := hidle
  rw [step_of_cons hinputs, hostStep_writeCmd_idle hidle', command_of_decode_error he]

/-- Settles O4: each word is the word of its command, whose fields fit. -/
theorem specWordsDecode : Obligations.SpecWordsDecode := by
  refine ⟨?_, ?_, ?_, ?_, ?_, ?_, ?_, ?_, ?_⟩ <;> exact decode_eq_ok_iff.mpr (by decide)

end

end Sys2Proof
end

section
/-! PROOF of O21 and support for O16 to O23 (40_value_codec.md R101 to R107): the numbers of byte lists in either byte
order, the masked partial byte, and integers as patterns of their width. -/

namespace Sys2Proof.Machine

/-! ### The number of a byte list (R103, R106) -/

theorem leNat_append (l m : List Byte) : leNat (l ++ m) = leNat l + 256 ^ l.length * leNat m := by
  induction l with
  | nil => simp [leNat]
  | cons b l ih => rw [List.cons_append, leNat, ih, leNat, List.length_cons, pow_succ]; ring

/-- A byte list is rebuilt from its number. -/
theorem leBytes_leNat {n : Nat} {l : List Byte} (h : l.length = n) : leBytes n (leNat l) = l := by
  subst h
  exact leNat_injective (leBytes_length ..) (by rw [leNat_leBytes, Nat.mod_eq_of_lt (leNat_lt l)])

theorem State.bufBytes_succ (s : State) (a n : Nat) : s.bufBytes a (n + 1) = s.bufByte a :: s.bufBytes (a + 1) n := by
  simp [State.bufBytes, List.range_succ_eq_map, Function.comp_def, Nat.add_assoc, Nat.add_comm 1]

/-- Bytes of BUF as a number, most significant first. -/
theorem leNat_reverse_bufBytes (s : State) (a n : Nat) : leNat (s.bufBytes a n).reverse = s.bytesAt a n true := by
  induction n generalizing a with
  | zero => rfl
  | succ n ih =>
    have hsum : s.bytesAt a (n + 1) true = s.bytesAt (a + 1) n true + (s.bufByte a).toNat * 256 ^ n := by
      simp only [State.bytesAt, if_true]
      rw [Finset.sum_range_succ, Nat.add_sub_cancel, Nat.sub_self, Nat.add_zero]
      congr 1
      refine Finset.sum_congr rfl fun k hk => ?_
      rw [show a + (n - k) = a + 1 + (n - 1 - k) by have := Finset.mem_range.mp hk; omega]
    rw [State.bufBytes_succ, List.reverse_cons, leNat_append, ih, hsum, List.length_reverse, State.bufBytes_length,
      leNat, leNat]
    ring

/-- The number of the bytes at `a` in the order of the type (R58). -/
theorem leNat_inOrder_bufBytes (t : NumericType) (s : State) (a n : Nat) :
    leNat (inOrder t (s.bufBytes a n)) = s.bytesAt a n t.bigEndian := by
  unfold inOrder
  cases t.bigEndian with
  | false => exact leNat_bufBytes a n
  | true => exact leNat_reverse_bufBytes s a n

/-! ### The partial byte (R101, R106) -/

theorem toNat_and_lowMask (b : Byte) {r : Nat} (hr : r ≤ 8) :
    (b &&& BitVec.ofNat 8 (2 ^ r - 1)).toNat = b.toNat % 2 ^ r := by
  have hpow : 2 ^ r ≤ 2 ^ 8 := Nat.pow_le_pow_right two_pos hr
  have hpos := Nat.two_pow_pos r
  rw [BitVec.toNat_and, BitVec.toNat_ofNat, Nat.mod_eq_of_lt (by omega), Nat.and_two_pow_sub_one_eq_mod]

/-- Masking the last byte cuts the number to the bits below it and those the mask keeps. -/
theorem leNat_maskLast {r : Nat} (hr : r ≤ 8) (l : List Byte) :
    leNat (maskLast (2 ^ r - 1) l) = leNat l % 2 ^ (8 * (l.length - 1) + r) := by
  induction l using maskLast.induct with
  | case1 => simp [maskLast, leNat]
  | case2 b => simp [maskLast, leNat, toNat_and_lowMask b hr]
  | case3 b c bs ih =>
    have hexp : 2 ^ (8 * ((b :: c :: bs).length - 1) + r) = 256 * 2 ^ (8 * ((c :: bs).length - 1) + r) := by
      rw [show (256 : Nat) = 2 ^ 8 from rfl, ← pow_add]
      congr 1
      simp only [List.length_cons]
      omega
    have hhead : leNat (b :: c :: bs) % 256 = b.toNat := by
      rw [leNat, Nat.add_mul_mod_self_left, Nat.mod_eq_of_lt b.isLt]
    have htail : leNat (b :: c :: bs) / 256 = leNat (c :: bs) := by
      rw [leNat, Nat.add_mul_div_left _ _ (by decide), Nat.div_eq_of_lt b.isLt, Nat.zero_add]
    rw [hexp, Nat.mod_mul, hhead, htail, maskLast, leNat, ih]

/-- Masking touches no other byte. -/
theorem getD_maskLast {r : Nat} (hr : r ≤ 8) (l : List Byte) (k : Nat) :
    ((maskLast (2 ^ r - 1) l).getD k 0).toNat = (l.getD k 0).toNat % 2 ^ (if k + 1 = l.length then r else 8) := by
  induction l using maskLast.induct generalizing k with
  | case1 => simp [maskLast]
  | case2 b =>
    cases k with
    | zero => simpa [maskLast] using toNat_and_lowMask b hr
    | succ k => simp [maskLast]
  | case3 b c bs ih =>
    rw [maskLast]
    cases k with
    | zero => simpa using (Nat.mod_eq_of_lt b.isLt).symm
    | succ k => simpa using ih k

theorem maskLast_length (mask : Nat) (l : List Byte) : (maskLast mask l).length = l.length := by
  induction l using maskLast.induct with
  | case1 => rfl
  | case2 b => rfl
  | case3 b c bs ih => rw [maskLast, List.length_cons, ih]; rfl

theorem ValidType.one_le_bits {t : NumericType} (h : ValidType t) : 1 ≤ t.bits := by
  rcases h with ⟨-, h, -⟩ | ⟨-, h⟩ <;> omega

/-- The bytes of a type hold its bits: full bytes and the value bits of the partial one. -/
theorem bits_eq_full_add_rem {t : NumericType} (h : 1 ≤ t.bits) :
    8 * (nbytes t - 1) + remBits t = t.bits ∧ remBits t ≤ 8 := by
  unfold remBits nbytes
  omega

theorem two_pow_bits_le (t : NumericType) : 2 ^ t.bits ≤ 256 ^ nbytes t := by
  rw [show 256 = 2 ^ 8 from rfl, ← pow_mul]
  exact Nat.pow_le_pow_right two_pos (by unfold nbytes; omega)

/-! ### Integers and their patterns (R102, R103, R106) -/

/-- The integer a pattern of a type's width stands for: "values above 2^(bits-1)-1" of a signed type "are reinterpreted
as negative" (R106). -/
def intOfPattern (t : NumericType) (u : Nat) : Int :=
  if t.signed = true ∧ 2 ^ (t.bits - 1) - 1 < u then (u : Int) - 2 ^ t.bits else u

/-- `unpackInt` takes the low bits of the number the bytes hold. -/
theorem unpackInt_eq {t : NumericType} (ht : 1 ≤ t.bits) {l : List Byte} (hl : l.length = nbytes t) :
    unpackInt t l = intOfPattern t (leNat (inOrder t l) % 2 ^ t.bits) := by
  obtain ⟨hbits, hrem⟩ := bits_eq_full_add_rem ht
  unfold unpackInt intOfPattern
  rw [lastMask, leNat_maskLast hrem, inOrder_length, hl, hbits]

theorem two_pow_bits_eq {t : NumericType} (ht : 1 ≤ t.bits) : 2 ^ t.bits = 2 * 2 ^ (t.bits - 1) := by
  rw [← pow_succ', Nat.sub_add_cancel ht]

theorem typeMin_le_typeMax (t : NumericType) : typeMin t ≤ typeMax t := by
  have hhalf : 0 < (2 : Int) ^ (t.bits - 1) := by positivity
  have hfull : 0 < (2 : Int) ^ t.bits := by positivity
  unfold typeMin typeMax
  split <;> omega

/-- Two's complement of a pattern's integer is the pattern (R103). -/
theorem intOfPattern_emod {t : NumericType} {u : Nat} (hu : u < 2 ^ t.bits) :
    (intOfPattern t u % 2 ^ t.bits).toNat = u := by
  have hmod : (u : Int) % 2 ^ t.bits = u := Int.emod_eq_of_lt (by omega) (by exact_mod_cast hu)
  unfold intOfPattern
  split
  · rw [Int.sub_emod_right, hmod, Int.toNat_natCast]
  · rw [hmod, Int.toNat_natCast]

/-- The integer of a value's pattern is the value (R107). -/
theorem intOfPattern_of_inRange {t : NumericType} (ht : 1 ≤ t.bits) {v : Int} (hmin : typeMin t ≤ v)
    (hmax : v ≤ typeMax t) : intOfPattern t (v % 2 ^ t.bits).toNat = v := by
  have hdouble : (2 : Int) ^ t.bits = 2 * 2 ^ (t.bits - 1) := by exact_mod_cast two_pow_bits_eq ht
  have hcast : ((2 ^ (t.bits - 1) : Nat) : Int) = 2 ^ (t.bits - 1) := by push_cast; rfl
  have hhalf : 0 < (2 : Int) ^ (t.bits - 1) := by positivity
  unfold typeMin at hmin
  unfold typeMax at hmax
  unfold intOfPattern
  rcases lt_or_ge v 0 with hneg | hpos
  · have hsigned : t.signed = true := by
      by_contra hs
      rw [if_neg hs] at hmin
      omega
    rw [if_pos hsigned] at hmin
    have hmod : v % 2 ^ t.bits = v + 2 ^ t.bits := by
      rw [← Int.add_emod_right, Int.emod_eq_of_lt (by omega) (by omega)]
    rw [hmod, if_pos ⟨hsigned, by omega⟩]
    omega
  · have hmod : v % 2 ^ t.bits = v := by
      refine Int.emod_eq_of_lt hpos ?_
      split at hmax <;> omega
    rw [hmod, if_neg, Int.toNat_of_nonneg hpos]
    rintro ⟨hsigned, hlarge⟩
    rw [if_pos hsigned] at hmax
    omega

theorem intOfPattern_bounds {t : NumericType} {u : Nat} (hu : u < 2 ^ t.bits) :
    -2 ^ t.bits ≤ intOfPattern t u ∧ intOfPattern t u < 2 ^ t.bits := by
  have hcast : (u : Int) < 2 ^ t.bits := by exact_mod_cast hu
  unfold intOfPattern
  split <;> omega

/-- The pattern of a value fits the width (R103). -/
theorem twosComplement_lt (t : NumericType) (v : Int) : (v % 2 ^ t.bits).toNat < 2 ^ t.bits := by
  have hpos : 0 < (2 : Int) ^ t.bits := by positivity
  have hlt := Int.emod_lt_of_pos v hpos
  have hnonneg := Int.emod_nonneg v hpos.ne'
  zify
  rw [Int.toNat_of_nonneg hnonneg]
  exact hlt

/-- The number of the bytes `packInt` gives (R103). -/
theorem leNat_packInt (t : NumericType) (v : Int) : leNat (inOrder t (packInt t v)) = (v % 2 ^ t.bits).toNat := by
  rw [packInt, inOrder_inOrder, leNat_leBytes, Nat.mod_eq_of_lt]
  exact (twosComplement_lt t v).trans_le (two_pow_bits_le t)

/-- Unpacking what was packed gives the value back (R107). -/
theorem unpackInt_packInt {t : NumericType} (ht : 1 ≤ t.bits) {v : Int} (hmin : typeMin t ≤ v) (hmax : v ≤ typeMax t) :
    unpackInt t (packInt t v) = v := by
  rw [unpackInt_eq ht (packInt_length t v), leNat_packInt, Nat.mod_eq_of_lt (twosComplement_lt t v),
    intOfPattern_of_inRange ht hmin hmax]

/-- Packing what was unpacked gives the bytes back with the partial byte masked (R107). -/
theorem packInt_unpackInt {t : NumericType} (ht : 1 ≤ t.bits) {l : List Byte} (hl : l.length = nbytes t) :
    packInt t (unpackInt t l) = inOrder t (maskLast (lastMask t) (inOrder t l)) := by
  obtain ⟨hbits, hrem⟩ := bits_eq_full_add_rem ht
  have hmask : leNat (inOrder t l) % 2 ^ t.bits = leNat (maskLast (lastMask t) (inOrder t l)) := by
    rw [lastMask, leNat_maskLast hrem, inOrder_length, hl, hbits]
  rw [unpackInt_eq ht hl, packInt, intOfPattern_emod (Nat.mod_lt _ (Nat.two_pow_pos _)), hmask,
    leBytes_leNat (by rw [maskLast_length, inOrder_length, hl])]

/-- A byte between memory order and least-significant-first order (R58). -/
theorem getD_inOrder (t : NumericType) {l : List Byte} {k : Nat} (hk : k < l.length) :
    (inOrder t l).getD k 0 = l.getD (if t.bigEndian then l.length - 1 - k else k) 0 := by
  unfold inOrder
  cases t.bigEndian with
  | false => rfl
  | true => exact congrFun (List.getD_reverse k hk) 0

/-- Settles O21: the masked last byte in least-significant-first order is the first one in big-endian order. -/
theorem integerPackUnpackRoundTrip : Obligations.IntegerPackUnpackRoundTrip := by
  intro t hvalid _
  have ht := hvalid.one_le_bits
  obtain ⟨-, hrem⟩ := bits_eq_full_add_rem ht
  refine ⟨fun v hmin hmax => unpackInt_packInt ht hmin hmax, fun l hl => ⟨packInt_length .., fun k hk => ?_⟩⟩
  have hlen : (maskLast (lastMask t) (inOrder t l)).length = nbytes t := by rw [maskLast_length, inOrder_length, hl]
  rw [packInt_unpackInt ht hl, getD_inOrder t (hlen.symm ▸ hk), hlen, lastMask, getD_maskLast hrem, inOrder_length, hl]
  cases hbe : t.bigEndian with
  | false => simp [inOrder, hbe]
  | true =>
    have hfirst : nbytes t - 1 - k + 1 = nbytes t ↔ k = 0 := by omega
    have hback : nbytes t - 1 - (nbytes t - 1 - k) = k := by omega
    rw [if_pos rfl, getD_inOrder t (by omega), hl, hbe, if_pos rfl, hback]
    simp only [hfirst, if_true]

end Sys2Proof.Machine
end

section
/-! PROOF support for O16 to O23 (40_value_codec.md R109 to R114): the number of a pattern by its sign and its
magnitude, the exactness of widening, and the pattern a number came from. -/

namespace Sys2Proof.Machine

/-! ### The number a pattern encodes, by its sign and its magnitude -/

/-- The numerator of a finite pattern without its sign, over `2 ^ (bias + fracBits)` (R112). -/
def FloatFormat.numerator (f : FloatFormat) (q : Nat) : Nat :=
  if q / 2 ^ f.fracBits = 0 then q % 2 ^ f.fracBits * 2
  else (2 ^ f.fracBits + q % 2 ^ f.fracBits) * 2 ^ (q / 2 ^ f.fracBits)

theorem FloatFormat.magnitude_eq (f : FloatFormat) (q : Nat) :
    f.magnitude q = (f.numerator q : ℚ) / (2 ^ (f.bias + f.fracBits) : Nat) := by
  by_cases h : q / 2 ^ f.fracBits = 0 <;> simp [FloatFormat.magnitude, FloatFormat.numerator, h]

theorem FloatFormat.testBit_signBit_add (f : FloatFormat) (neg : Bool) {q : Nat}
    (hq : q < 2 ^ (f.expBits + f.fracBits)) : (f.signBit neg + q).testBit (f.expBits + f.fracBits) = neg := by
  cases neg with
  | false => simpa [FloatFormat.signBit] using Nat.testBit_lt_two_pow hq
  | true => simpa [FloatFormat.signBit, Nat.testBit_two_pow_add_eq] using Nat.testBit_lt_two_pow hq

/-- The sign bit stands above the exponent field and the fraction. -/
theorem FloatFormat.fields_signBit_add (f : FloatFormat) (neg : Bool) {q : Nat}
    (hq : q < 2 ^ (f.expBits + f.fracBits)) :
    (f.signBit neg + q) / 2 ^ f.fracBits % 2 ^ f.expBits = q / 2 ^ f.fracBits ∧
      (f.signBit neg + q) % 2 ^ f.fracBits = q % 2 ^ f.fracBits := by
  have hF := Nat.two_pow_pos f.fracBits
  have hfield : q / 2 ^ f.fracBits < 2 ^ f.expBits := by
    rw [Nat.div_lt_iff_lt_mul hF, ← pow_add]
    exact hq
  obtain ⟨c, hc⟩ : ∃ c, f.signBit neg = 2 ^ f.fracBits * (2 ^ f.expBits * c) := by
    cases neg with
    | false => exact ⟨0, rfl⟩
    | true => exact ⟨1, by rw [FloatFormat.signBit, if_pos rfl, pow_add]; ring⟩
  rw [hc]
  exact ⟨by rw [Nat.mul_add_div hF, Nat.mul_add_mod, Nat.mod_eq_of_lt hfield], Nat.mul_add_mod ..⟩

/-- The three classes of patterns, below, at and above that of infinity. -/
theorem FloatFormat.value_signBit_add (f : FloatFormat) (neg : Bool) {q : Nat} (hq : q < 2 ^ (f.expBits + f.fracBits)) :
    f.value (f.signBit neg + q) =
      if q < f.infinity then .fin neg (f.numerator q) (2 ^ (f.bias + f.fracBits))
      else if q = f.infinity then .inf neg else .nan := by
  have hF := Nat.two_pow_pos f.fracBits
  obtain ⟨hexp, hfrac⟩ := f.fields_signBit_add neg hq
  unfold FloatFormat.value
  simp only [f.testBit_signBit_add neg hq, hexp, hfrac]
  rcases Nat.lt_or_ge q f.infinity with hlt | hge
  · have hne : q / 2 ^ f.fracBits ≠ f.maxExp := ((Nat.div_lt_iff_lt_mul hF).mpr hlt).ne
    rw [if_neg hne, if_pos hlt, FloatFormat.numerator]
    split <;> rfl
  · have hmax : q / 2 ^ f.fracBits = f.maxExp := by
      have hle : f.maxExp ≤ q / 2 ^ f.fracBits := (Nat.le_div_iff_mul_le hF).mpr hge
      have hlt : q / 2 ^ f.fracBits < 2 ^ f.expBits := hexp ▸ Nat.mod_lt _ (Nat.two_pow_pos _)
      unfold FloatFormat.maxExp at hle ⊢
      omega
    have hzero : q % 2 ^ f.fracBits = 0 ↔ q = f.infinity := by
      have hsplit := Nat.div_add_mod' q (2 ^ f.fracBits)
      rw [hmax] at hsplit
      unfold FloatFormat.infinity
      omega
    rw [if_pos hmax, if_neg hge.not_gt]
    simp only [hzero]

/-- A pattern is a sign and the rest. -/
theorem FloatFormat.exists_signBit_add (f : FloatFormat) {p : Nat} (hp : p < 2 * 2 ^ (f.expBits + f.fracBits)) :
    ∃ neg q, p = f.signBit neg + q ∧ q < 2 ^ (f.expBits + f.fracBits) := by
  rcases Nat.lt_or_ge p (2 ^ (f.expBits + f.fracBits)) with h | h
  · exact ⟨false, p, (Nat.zero_add p).symm, h⟩
  · exact ⟨true, p - 2 ^ (f.expBits + f.fracBits), (Nat.add_sub_cancel' h).symm, by omega⟩

theorem FloatFormat.infinity_lt (f : FloatFormat) : f.infinity < 2 ^ (f.expBits + f.fracBits) := by
  rw [pow_add]
  exact Nat.mul_lt_mul_of_pos_right (Nat.sub_lt (Nat.two_pow_pos _) one_pos) (Nat.two_pow_pos _)

/-- The patterns that `pattern` gives fit the format, unless the caller's NaN does not. -/
theorem FloatFormat.pattern_lt (f : FloatFormat) {nan : Nat} {x : FVal} (hx : x ≠ .nan) :
    f.pattern nan x < 2 * 2 ^ (f.expBits + f.fracBits) := by
  have hinf := f.infinity_lt
  have hsign (neg : Bool) : f.signBit neg ≤ 2 ^ (f.expBits + f.fracBits) := by
    cases neg <;> simp [FloatFormat.signBit]
  cases x with
  | nan => exact absurd rfl hx
  | inf neg => have := hsign neg; simp only [FloatFormat.pattern]; omega
  | fin neg num den =>
    have := hsign neg
    have : f.encode num den ≤ f.infinity := min_le_right ..
    simp only [FloatFormat.pattern]
    omega

/-- The caller's NaN stands for a NaN alone. -/
theorem FloatFormat.pattern_eq_of_ne_nan (f : FloatFormat) {nan : Nat} {x : FVal} (hx : x ≠ .nan) :
    f.pattern nan x = f.pattern 0 x := by
  cases x with
  | nan => exact absurd rfl hx
  | inf _ => rfl
  | fin _ _ _ => rfl

/-! ### Rounding a number that has a pattern -/

/-- A magnitude of the format is rounded to its own pattern (R15). -/
theorem FloatFormat.Proper.encode_of_magnitude {f : FloatFormat} (hf : f.Proper) {num den q : Nat} (hden : 0 < den)
    (hq : q < f.infinity) (hmag : f.magnitude q = num / den) : f.encode num den = q := by
  obtain ⟨half, hpos, hlast, -⟩ := hf.threshold_midpoint
  have hmono := f.magnitude_strictMono.monotone (Nat.le_sub_one_of_lt hq)
  have hfin : f.encode num den < f.infinity := by
    refine lt_of_le_of_ne (min_le_right ..) fun heq => ?_
    have := (hf.encode_eq_infinity_iff num hden).mp heq
    linarith
  have hnear := (hf.encode_nearest hden hfin q).1
  rw [hmag, sub_self, abs_zero, abs_nonpos_iff, sub_eq_zero, ← hmag] at hnear
  exact f.magnitude_strictMono.injective hnear

/-- Numbers with one pattern: rounding gives the pattern back, unless it is a NaN (R107's round trip for floats). -/
theorem FloatFormat.Proper.pattern_of_sameNumber {f : FloatFormat} (hf : f.Proper) {p nan : Nat} {x : FVal}
    (hp : p < 2 * 2 ^ (f.expBits + f.fracBits)) (hnan : f.value p ≠ .nan)
    (hden : ∀ neg num den, x = .fin neg num den → 0 < den) (hx : SameNumber x (f.value p)) : f.pattern nan x = p := by
  obtain ⟨neg, q, rfl, hq⟩ := f.exists_signBit_add hp
  rw [f.value_signBit_add neg hq] at hnan hx
  split at hx
  · next hlt =>
    cases x with
    | nan => exact hx.elim
    | inf _ => exact hx.elim
    | fin neg' num den =>
      have hpos := hden _ _ _ rfl
      obtain ⟨rfl, hcross⟩ := hx
      have hmag : f.magnitude q = num / den := by
        rw [f.magnitude_eq, div_eq_div_iff (by positivity) (by positivity)]
        exact_mod_cast hcross.symm
      rw [FloatFormat.pattern, hf.encode_of_magnitude hpos hlt hmag]
  · next hge =>
    rw [if_neg hge] at hnan
    split at hx
    · next heq =>
      cases x with
      | nan => exact hx.elim
      | inf neg' =>
        obtain rfl : neg' = neg := hx
        rw [FloatFormat.pattern, heq]
      | fin _ _ _ => exact hx.elim
    · next hne => exact absurd (if_neg hne) hnan

theorem FloatFormat.value_den_pos (f : FloatFormat) {p : Nat} {neg : Bool} {num den : Nat}
    (h : f.value p = .fin neg num den) : 0 < den := by
  have hpos := Nat.two_pow_pos (f.bias + f.fracBits)
  unfold FloatFormat.value at h
  simp only at h
  split at h
  · split at h <;> cases h
  · split at h <;> cases h <;> exact hpos

/-! ### Widening is exact (R111, R112) -/

/-- A count of spacings too small for its field has a pattern in a lower one. -/
theorem FloatFormat.exists_magnitude_eq (f : FloatFormat) (e : Nat) {k : Nat} (hk : k ≤ 2 * 2 ^ f.fracBits) :
    ∃ q ≤ e * 2 ^ f.fracBits + k, f.magnitude q = k * f.spacing (e + 1) := by
  induction e generalizing k with
  | zero => exact ⟨_, le_rfl, f.magnitude_of_counts ⟨.inl rfl, hk⟩⟩
  | succ e ih =>
    rcases Nat.lt_or_ge k (2 ^ f.fracBits) with hlt | hge
    · obtain ⟨q, hq, hmag⟩ := ih (k := 2 * k) (by omega)
      refine ⟨q, by rw [Nat.succ_mul]; omega, ?_⟩
      rw [hmag, FloatFormat.spacing, FloatFormat.spacing, pow_succ _ (e + 1)]
      push_cast
      ring
    · exact ⟨_, le_rfl, f.magnitude_of_counts ⟨.inr hge, hk⟩⟩

/-- Every finite number of `f` is one of `g`: its fraction is no longer, its spacings are some of `g`'s, and its largest
number is finite there. -/
def FloatFormat.WidensTo (f g : FloatFormat) : Prop :=
  f.fracBits ≤ g.fracBits ∧ f.bias + f.fracBits ≤ g.bias + g.fracBits ∧
    f.maxExp + (g.bias + g.fracBits) < g.maxExp + (f.bias + f.fracBits)

theorem FloatFormat.WidensTo.exists_magnitude_eq {f g : FloatFormat} (h : f.WidensTo g) {q : Nat}
    (hq : q < f.infinity) :
    ∃ w < g.infinity, g.magnitude w = f.magnitude q := by
  obtain ⟨hfrac, hbias, hmax⟩ := h
  obtain ⟨d, hd⟩ := Nat.exists_eq_add_of_le hbias
  obtain ⟨e, k, rfl, hk, -, hk1⟩ := f.exists_counts q
  have hpow : 2 ^ f.fracBits ≤ 2 ^ g.fracBits := Nat.pow_le_pow_right two_pos hfrac
  have hfield : e < f.maxExp := by
    by_contra! hge
    have := Nat.mul_le_mul_right (2 ^ f.fracBits) hge
    unfold FloatFormat.infinity at hq
    omega
  have hspacing : g.spacing (e + d + 1) = f.spacing (e + 1) := by
    unfold FloatFormat.spacing
    rw [hd, pow_add _ _ d, Nat.add_right_comm, pow_add _ _ d]
    field_simp
  obtain ⟨w, hw, hmag⟩ := g.exists_magnitude_eq (e + d) (k := k) (by omega)
  refine ⟨w, ?_, by rw [hmag, hspacing, f.magnitude_of_counts hk]⟩
  have hroom := Nat.mul_le_mul_right (2 ^ g.fracBits) (show e + d + 2 ≤ g.maxExp by omega)
  rw [Nat.add_mul] at hroom
  unfold FloatFormat.infinity
  omega

theorem binary16_widensTo : binary16.WidensTo binary64 := by
  unfold FloatFormat.WidensTo
  decide

theorem binary32_widensTo : binary32.WidensTo binary64 := by
  unfold FloatFormat.WidensTo
  decide

/-- A drawn NaN is a NaN (U3). -/
theorem FloatFormat.value_nanFrom {f : FloatFormat} (hf : f ∈ [binary16, binary32, binary64]) (raw : Nat) :
    f.value (f.nanFrom raw) = .nan := by
  have hfixed : ∀ g ∈ [binary16, binary32, binary64], g.value (g.infinity + 2 ^ (g.fracBits - 1)) = .nan := by decide
  unfold FloatFormat.nanFrom
  split
  · next h => exact eq_of_beq h
  · exact hfixed f hf

theorem FloatFormat.nanFrom_lt {f : FloatFormat} (hf : f ∈ [binary16, binary32, binary64]) {raw : Nat}
    (hraw : raw < 2 * 2 ^ (f.expBits + f.fracBits)) : f.nanFrom raw < 2 * 2 ^ (f.expBits + f.fracBits) := by
  have hfixed : ∀ g ∈ [binary16, binary32, binary64],
    g.infinity + 2 ^ (g.fracBits - 1) < 2 * 2 ^ (g.expBits + g.fracBits) := by decide
  unfold FloatFormat.nanFrom
  split
  · exact hraw
  · exact hfixed f hf

/-- The number of the cell that `pat64` gives, where it is not a NaN. -/
theorem f64_pat64 (nan : Cell) {x : FVal} (hx : x ≠ .nan) :
    f64 (pat64 nan x) = binary64.value (binary64.pattern 0 x) := by
  have hlt : binary64.pattern 0 x < 2 ^ 64 := binary64.pattern_lt hx
  rw [f64, pat64, FloatFormat.pattern_eq_of_ne_nan _ hx, BitVec.toNat_ofNat, Nat.mod_eq_of_lt hlt]

theorem f64_pat64_nan {raw : BitVec 64} : f64 (pat64 (BitVec.ofNat 64 (binary64.nanFrom raw.toNat)) .nan) = .nan := by
  have hmem : binary64 ∈ [binary16, binary32, binary64] := by decide
  have hlt : binary64.nanFrom raw.toNat < 2 ^ 64 := FloatFormat.nanFrom_lt hmem raw.isLt
  rw [f64, pat64, FloatFormat.pattern, BitVec.ofNat_toNat, BitVec.setWidth_eq, BitVec.toNat_ofNat, Nat.mod_eq_of_lt hlt,
    FloatFormat.value_nanFrom hmem]

/-- The widened pattern is the same number, a NaN for a NaN (R111, R112, R114). -/
theorem FloatFormat.WidensTo.sameNumber {f : FloatFormat} (h : f.WidensTo binary64) (raw : BitVec 64) {p : Nat}
    (hp : p < 2 * 2 ^ (f.expBits + f.fracBits)) : SameNumber (f64 (widen f raw p)) (f.value p) := by
  have hproper : binary64.Proper := by unfold FloatFormat.Proper; decide
  obtain ⟨neg, q, rfl, hq⟩ := f.exists_signBit_add hp
  unfold widen
  rw [f.value_signBit_add neg hq]
  split
  · next hlt =>
    obtain ⟨w, hw, hmag⟩ := h.exists_magnitude_eq hlt
    have hencode := hproper.encode_of_magnitude (Nat.two_pow_pos _) hw (hmag.trans (f.magnitude_eq q))
    rw [f64_pat64 _ (by simp), FloatFormat.pattern, hencode,
      binary64.value_signBit_add neg (hw.trans binary64.infinity_lt), if_pos hw]
    refine ⟨rfl, ?_⟩
    rw [f.magnitude_eq, binary64.magnitude_eq, div_eq_div_iff (by positivity) (by positivity)] at hmag
    exact_mod_cast hmag
  · split
    · rw [f64_pat64 _ (by simp), FloatFormat.pattern, binary64.value_signBit_add neg binary64.infinity_lt,
        if_neg (lt_irrefl _), if_pos rfl]
      rfl
    · rw [f64_pat64_nan]
      trivial

end Sys2Proof.Machine
end

section
/-! PROOFS of the family of 40_value_codec.md: what a read makes of its bytes and a write of its value, the ways the four
VAL commands end, and the statements O16 to O20, O22 and O23. -/

namespace Sys2Proof.Machine

/-! ### Valid types (R74) -/

section
variable {t : NumericType} (h : ValidType t)
include h

theorem ValidType.typeValid_eq_true : typeValid t = true := by
  unfold typeValid
  rcases h with ⟨hf, hlo, hhi⟩ | ⟨hf, hbits⟩
  · simp [hf, hlo, hhi]
  · simpa [hf, or_assoc] using hbits

theorem ValidType.bits_le_of_int (hf : t.isFloat = false) : t.bits ≤ 53 := by
  rcases h with ⟨-, -, hle⟩ | ⟨hfloat, -⟩
  · exact hle
  · simp [hf] at hfloat

theorem ValidType.narrow_bits (hf : t.isFloat = true) (h64 : t.bits ≠ 64) : t.bits = 16 ∨ t.bits = 32 := by
  rcases h with ⟨hint, -⟩ | ⟨-, hbits⟩
  · simp [hf] at hint
  · omega

/-- The formats of f16 and f32 fill their bytes, round as R15 has it, and widen exactly. -/
theorem ValidType.narrowFormat_fits (hf : t.isFloat = true) (h64 : t.bits ≠ 64) :
    (narrowFormat t).Proper ∧ (narrowFormat t).WidensTo binary64 ∧
      2 * 2 ^ ((narrowFormat t).expBits + (narrowFormat t).fracBits) = 256 ^ nbytes t := by
  rcases h.narrow_bits hf h64 with hb | hb
  · rw [narrowFormat, nbytes, hb]
    exact ⟨FloatFormat.proper_of_mem _ (by decide), binary16_widensTo, by decide⟩
  · rw [narrowFormat, nbytes, hb]
    exact ⟨FloatFormat.proper_of_mem _ (by decide), binary32_widensTo, by decide⟩

end

/-! ### What a read makes of its bytes (R106, R109, R111, R112) -/

theorem unpackFloat_narrow {t : NumericType} (h64 : t.bits ≠ 64) (raw : BitVec 64) (l : List Byte) :
    unpackFloat t raw l = widen (narrowFormat t) raw (leNat (inOrder t l)) := by
  unfold unpackFloat narrowFormat
  rw [if_neg h64]
  split <;> rfl

theorem unpackFloat_f64 {t : NumericType} (h64 : t.bits = 64) (raw : BitVec 64) {l : List Byte}
    (hl : l.length = nbytes t) : (unpackFloat t raw l).toNat = leNat (inOrder t l) := by
  have hlt := leNat_lt (inOrder t l)
  rw [inOrder_length, hl, nbytes, h64] at hlt
  rw [unpackFloat, if_pos h64, BitVec.toNat_ofNat, unpackPattern, Nat.mod_eq_of_lt (by simpa using hlt)]

/-- An integer of a valid type fits a cell (R117). -/
theorem toInt_ofInt_intOfPattern {t : NumericType} (h : t.bits ≤ 53) (p : Nat) :
    (BitVec.ofInt 64 (intOfPattern t (p % 2 ^ t.bits))).toInt = intOfPattern t (p % 2 ^ t.bits) := by
  obtain ⟨hlo, hhi⟩ := intOfPattern_bounds (t := t) (Nat.mod_lt p (Nat.two_pow_pos _))
  have hle : (2 : Int) ^ t.bits ≤ 2 ^ 63 := by
    exact_mod_cast Nat.pow_le_pow_right two_pos (show t.bits ≤ 63 by omega)
  exact BitVec.toInt_ofInt_eq_self (by decide) (by simp only [Nat.add_one_sub_one]; omega)
    (by simp only [Nat.add_one_sub_one]; omega)

theorem readAs_readValue {t : NumericType} (ht : ValidType t) (s : State) (a : Nat) (raw : BitVec 64) :
    ReadAs t s a (readValue t raw (s.bufBytes a (nbytes t))) := by
  have hnum := leNat_inOrder_bufBytes t s a (nbytes t)
  have hlen := State.bufBytes_length s a (nbytes t)
  have hlt := leNat_lt (inOrder t (s.bufBytes a (nbytes t)))
  rw [inOrder_length, hlen, hnum] at hlt
  unfold ReadAs
  unfold readValue
  by_cases hf : t.isFloat = true
  · by_cases h64 : t.bits = 64
    · simp only [hf, if_pos h64, if_true]
      exact (unpackFloat_f64 h64 raw hlen).trans hnum
    · obtain ⟨-, hwidens, hfull⟩ := ht.narrowFormat_fits hf h64
      simp only [hf, h64, if_true, if_false]
      rw [unpackFloat_narrow h64, hnum]
      exact hwidens.sameNumber raw (hfull ▸ hlt)
  · have hint : t.isFloat = false := by simpa using hf
    simp only [hint]
    rw [unpackInt_eq ht.one_le_bits hlen, hnum]
    exact toInt_ofInt_intOfPattern (ht.bits_le_of_int hint) _

/-! ### What a write makes of its value (R103, R109, R111, R113, R116) -/

section
variable {t : NumericType} {v : Cell}

theorem packFloat_f64 (h64 : t.bits = 64) (raw : BitVec 32) : packFloat t raw v = packPattern t v.toNat :=
  if_pos h64

theorem packFloat_narrow (h64 : t.bits ≠ 64) (raw : BitVec 32) : packFloat t raw v =
    packPattern t ((narrowFormat t).pattern (if t.bits = 32 then binary32.nanFrom raw.toNat else 0x7E00) (f64 v)) := by
  unfold packFloat narrowFormat
  rw [if_neg h64]
  split <;> rfl

/-- The number of the bytes a pattern is written as. -/
theorem leNat_packPattern {p : Nat} (hp : p < 256 ^ nbytes t) : leNat (inOrder t (packPattern t p)) = p := by
  rw [packPattern, inOrder_inOrder, leNat_leBytes, Nat.mod_eq_of_lt hp]

/-- Writing the pattern that was read gives the bytes back (R109). -/
theorem packPattern_leNat {l : List Byte} (hl : l.length = nbytes t) : packPattern t (leNat (inOrder t l)) = l := by
  rw [packPattern, leBytes_leNat (by rw [inOrder_length, hl]), inOrder_inOrder]

theorem writeValue_float (hf : t.isFloat = true) (raw : BitVec 32) (i : Nat) :
    writeValue t raw v i = .ok (packFloat t raw v) := if_pos hf

theorem writeValue_int (hf : t.isFloat = false) (hmin : typeMin t ≤ v.toInt) (hmax : v.toInt ≤ typeMax t)
    (raw : BitVec 32) (i : Nat) : writeValue t raw v i = .ok (packInt t v.toInt) := by
  simp [writeValue, hf, checkRange_ok.mpr ⟨rfl, hmin, hmax⟩]

theorem exists_writeValue_of_writable (h : Writable t v) (raw : BitVec 32) (i : Nat) :
    ∃ l, writeValue t raw v i = .ok l := by
  cases hf : t.isFloat with
  | true => exact ⟨_, writeValue_float hf raw i⟩
  | false =>
    obtain ⟨hmin, hmax⟩ := h.resolve_left (by simp [hf])
    exact ⟨_, writeValue_int hf hmin hmax raw i⟩

/-- Only an integer type has values out of range; above the maximum the error is Overflow, else Underflow (R116). -/
theorem writeValue_of_not_writable (h : ¬ Writable t v) (raw : BitVec 32) (i : Nat) :
    writeValue t raw v i = .error (if typeMax t < v.toInt then overflow i else underflow i) := by
  obtain ⟨hf, hrange⟩ := not_or.mp h
  unfold writeValue checkRange
  rw [if_neg hf]
  by_cases hmax : typeMax t < v.toInt
  · simp only [if_pos hmax]
  · simp only [if_neg hmax]
    rw [if_pos (by omega)]

/-- A NaN is written as a drawn binary32 NaN (R114) or as 0x7E00 (R113). -/
theorem writtenAs_packFloat_nan (hb : t.bits = 32 ∨ t.bits = 16) (hnan : f64 v = .nan) (raw : BitVec 32) :
    if t.bits = 32 then leNat (inOrder t (packFloat t raw v)) < 2 ^ 32 ∧
      binary32.value (leNat (inOrder t (packFloat t raw v))) = .nan
    else leNat (inOrder t (packFloat t raw v)) = 0x7E00 := by
  rw [packFloat_narrow (by omega), hnan, FloatFormat.pattern]
  rcases hb with hb | hb
  · have hmem : binary32 ∈ [binary16, binary32, binary64] := by decide
    have hlt : binary32.nanFrom raw.toNat < 2 ^ 32 := FloatFormat.nanFrom_lt hmem raw.isLt
    rw [if_pos hb, if_pos hb, leNat_packPattern (by simpa [nbytes, hb] using hlt)]
    exact ⟨hlt, FloatFormat.value_nanFrom hmem _⟩
  · rw [if_neg (by omega), if_neg (by omega), leNat_packPattern (by rw [nbytes, hb]; decide)]

theorem writtenAs_packFloat (ht : ValidType t) (hf : t.isFloat = true) (raw : BitVec 32) :
    WrittenAs t v (leNat (inOrder t (packFloat t raw v))) := by
  unfold WrittenAs
  rw [if_pos hf]
  split
  · next h64 =>
    rw [packFloat_f64 h64, leNat_packPattern]
    simpa [nbytes, h64] using v.isLt
  · next h64 =>
    split
    · next hnan => exact writtenAs_packFloat_nan (ht.narrow_bits hf h64).symm hnan raw
    · next hnan =>
      obtain ⟨-, -, hfull⟩ := ht.narrowFormat_fits hf h64
      rw [packFloat_narrow h64, FloatFormat.pattern_eq_of_ne_nan _ hnan, leNat_packPattern]
      exact hfull ▸ FloatFormat.pattern_lt _ hnan

/-- The bytes of a write that does not fail hold the value in the type's layout and order. -/
theorem writtenAs_of_writeValue (ht : ValidType t) {raw : BitVec 32} {i : Nat} {l : List Byte}
    (h : writeValue t raw v i = .ok l) : WrittenAs t v (leNat (inOrder t l)) := by
  cases hf : t.isFloat with
  | false =>
    have hw : Writable t v := by
      by_contra hw
      rw [writeValue_of_not_writable hw] at h
      cases h
    obtain ⟨hmin, hmax⟩ := hw.resolve_left (by simp [hf])
    rw [writeValue_int hf hmin hmax, Except.ok.injEq] at h
    rw [WrittenAs, if_neg (by simp [hf]), ← h]
    exact leNat_packInt t v.toInt
  | true =>
    rw [writeValue_float hf, Except.ok.injEq] at h
    exact h ▸ writtenAs_packFloat ht hf raw

/-- Writing what was read from a float's bytes gives the bytes back, but for the NaNs of f16 and f32. -/
theorem packFloat_unpackFloat (ht : ValidType t) (hf : t.isFloat = true) {l : List Byte} (hl : l.length = nbytes t)
    (hnum : t.bits = 64 ∨ (narrowFormat t).value (leNat (inOrder t l)) ≠ .nan) (raw : BitVec 64) (raw' : BitVec 32) :
    packFloat t raw' (unpackFloat t raw l) = l := by
  by_cases h64 : t.bits = 64
  · rw [packFloat_f64 h64, unpackFloat_f64 h64 raw hl, packPattern_leNat hl]
  · obtain ⟨hproper, hwidens, hfull⟩ := ht.narrowFormat_fits hf h64
    have hlt : leNat (inOrder t l) < 256 ^ nbytes t := by simpa [hl] using leNat_lt (inOrder t l)
    rw [← hfull] at hlt
    have hden : ∀ neg num den, f64 (widen (narrowFormat t) raw (leNat (inOrder t l))) = .fin neg num den → 0 < den :=
      fun _ _ _ => binary64.value_den_pos
    rw [packFloat_narrow h64, unpackFloat_narrow h64, hproper.pattern_of_sameNumber hlt (hnum.resolve_left h64) hden
      (hwidens.sameNumber raw hlt), packPattern_leNat hl]

end

/-! ### BUF after a write -/

theorem State.storeBytes_bufBytes (s : State) (a : Nat) (l : List Byte) {j n : Nat} (h : j + n ≤ l.length) :
    (s.storeBytes a l).bufBytes (a + j) n = (l.drop j).take n := by
  refine List.ext_getElem (by simp; omega) fun k hk _ => ?_
  rw [State.bufBytes_length] at hk
  rw [State.bufBytes_getElem, State.storeBytes_bufByte, dif_pos (by omega)]
  simp [Nat.add_assoc]

theorem State.storeBytes_bufBytes_self (s : State) (a : Nat) {l : List Byte} {n : Nat} (h : l.length = n) :
    (s.storeBytes a l).bufBytes a n = l := by
  subst h
  exact (s.storeBytes_bufBytes a l (j := 0) (by omega)).trans (List.take_length ..)

theorem State.bufBytes_congr {s u : State} (h : ∀ a, u.bufByte a = s.bufByte a) (a n : Nat) :
    u.bufBytes a n = s.bufBytes a n := by
  unfold State.bufBytes
  exact List.map_congr_left fun k _ => h (a + k)

/-- Storing the bytes that stand there changes no read. -/
theorem State.storeBytes_bufBytes_bufByte (s : State) (a n b : Nat) :
    (s.storeBytes a (s.bufBytes a n)).bufByte b = s.bufByte b := by
  rw [State.storeBytes_bufByte]
  split
  · next h => rw [State.bufBytes_getElem, Nat.add_sub_cancel' h.1]
  · rfl

theorem toNat_ofNat_of_le_len {s : State} {n : Nat} (h : n ≤ s.len) : (BitVec.ofNat 32 n).toNat = n :=
  Nat.mod_eq_of_lt (h.trans_lt s.len_lt)

/-! ### How RDV and WRV end (R110, R115) -/

section
variable {t : NumericType} {s : State} (ht : ValidType t)
include ht

theorem exec_rdv_eq : exec (.rdv t) s = .next (if s.bufOutside (nbytes t) then s.failed 17 s.off.toNat
    else ((s.setVal (readValue t (Config.freeNan64 s.serial 0) (s.bufBytes s.off.toNat (nbytes t)))).setNext
      (s.off.toNat + nbytes t)).completed) := by
  obtain ⟨u, hu⟩ := execRdv_next (s := s) t
  refine hu.trans (congrArg _ ?_)
  rcases execRdv_cases hu with ⟨hv, -⟩ | ⟨-, hout, rfl⟩ | ⟨-, hin, rfl⟩
  · simp [ht.typeValid_eq_true] at hv
  · rw [if_pos hout, State.raised_eq_failed]
    rfl
  · rw [if_neg hin]

theorem exec_wrv_outside (h : s.bufOutside (nbytes t)) : exec (.wrv t) s = .next (s.failed 17 s.off.toNat) := by
  obtain ⟨u, hu⟩ := execWrv_next (s := s) t
  rcases execWrv_cases hu with ⟨hv, -⟩ | ⟨-, -, rfl⟩ | ⟨-, hin, -⟩
  · simp [ht.typeValid_eq_true] at hv
  · exact hu.trans (congrArg _ (State.raised_eq_failed ..))
  · exact absurd h hin

theorem exec_wrv_inside (h : s.off.toNat + nbytes t ≤ s.len) : ∃ u, exec (.wrv t) s = .next u ∧
    ((∃ e, writeValue t (Config.freeNan32 s.serial 0) s.val s.off.toNat = .error e ∧ u = s.failed e.kind.code e.info) ∨
      (∃ l, writeValue t (Config.freeNan32 s.serial 0) s.val s.off.toNat = .ok l ∧
        u = ((s.storeBytes s.off.toNat l).setNext (s.off.toNat + nbytes t)).completed)) := by
  obtain ⟨u, hu⟩ := execWrv_next (s := s) t
  refine ⟨u, hu, ?_⟩
  rcases execWrv_cases hu with ⟨hv, -⟩ | ⟨-, hout, -⟩ | ⟨-, -, ⟨e, he, rfl⟩ | hok⟩
  · simp [ht.typeValid_eq_true] at hv
  · exact absurd h hout.not_ge
  · exact .inl ⟨e, he, State.raised_eq_failed ..⟩
  · exact .inr hok

theorem exec_wrv_of_ok (h : s.off.toNat + nbytes t ≤ s.len) {l : List Byte}
    (hl : writeValue t (Config.freeNan32 s.serial 0) s.val s.off.toNat = .ok l) :
    exec (.wrv t) s = .next ((s.storeBytes s.off.toNat l).setNext (s.off.toNat + nbytes t)).completed := by
  obtain ⟨u, hu, ⟨e, he, -⟩ | ⟨l', hl', rfl⟩⟩ := exec_wrv_inside ht h
  · rw [hl] at he; cases he
  · rw [hl] at hl'; cases hl'; exact hu

theorem exec_wrv_of_not_writable (h : s.off.toNat + nbytes t ≤ s.len) (hw : ¬ Writable t s.val) :
    exec (.wrv t) s = .next (s.failed (if typeMax t < s.val.toInt then 5 else 6) s.off.toNat) := by
  obtain ⟨u, hu, ⟨e, he, rfl⟩ | ⟨l, hl, -⟩⟩ := exec_wrv_inside ht h
  · rw [writeValue_of_not_writable hw, Except.error.injEq] at he
    rw [hu, ← he]
    split <;> rfl
  · rw [writeValue_of_not_writable hw] at hl; cases hl

end

/-- Settles O16: the two ways RDV of a valid type ends, and what it read. -/
theorem rdvReadsValue : Obligations.RdvReadsValue := by
  intro t s ht
  rw [exec_rdv_eq ht]
  refine ⟨fun hout => by rw [if_pos hout], fun hin => ?_⟩
  rw [if_neg hin.not_gt]
  refine ⟨_, rfl, ?_, toNat_ofNat_of_le_len hin, State.completed_eq_succeeded _⟩
  have hread := readAs_readValue ht s s.off.toNat (Config.freeNan64 s.serial 0)
  rwa [← s.setVal_val (readValue t _ _)] at hread

/-- Settles O17: the ways WRV of a valid type ends, and what it wrote. -/
theorem wrvWritesValue : Obligations.WrvWritesValue := by
  intro t s ht
  refine ⟨fun hout => exec_wrv_outside ht hout, fun hin => ⟨fun hf hmax => ?_, fun hf hmin => ?_, fun hw => ?_⟩⟩
  · have hw : ¬ Writable t s.val := by simp [Writable, hf]; omega
    rw [exec_wrv_of_not_writable ht hin hw, if_pos hmax]
  · have hle := typeMin_le_typeMax t
    have hw : ¬ Writable t s.val := by simp [Writable, hf]; omega
    rw [exec_wrv_of_not_writable ht hin hw, if_neg (by omega)]
  · obtain ⟨l, hl⟩ := exists_writeValue_of_writable hw (Config.freeNan32 s.serial 0) s.off.toNat
    have hlen := writeValue_length hl
    refine ⟨_, exec_wrv_of_ok ht hin hl, ?_, fun a ha => ?_, toNat_ofNat_of_le_len hin, State.completed_eq_succeeded _⟩
    · have hwritten := writtenAs_of_writeValue ht hl
      rw [← s.storeBytes_bufBytes_self s.off.toNat hlen, leNat_inOrder_bufBytes] at hwritten
      exact hwritten
    · exact (s.storeBytes_bufByte s.off.toNat l a).trans (dif_neg (by omega))

/-! ### A read after a write, and a write after a read -/

section
variable {t : NumericType} {s : State} (ht : ValidType t) (hin : s.off.toNat + nbytes t ≤ s.len)
include ht hin

/-- After RDV the bytes at OFF are those that were read, and VAL is what it made of them. -/
theorem exec_rdv_rereads : ∃ u, exec (.rdv t) s = .next u ∧ u.err = false ∧ u.off = s.off ∧ u.len = s.len ∧
    (∀ a, u.bufByte a = s.bufByte a) ∧
    u.val = readValue t (Config.freeNan64 s.serial 0) (s.bufBytes s.off.toNat (nbytes t)) := by
  rw [exec_rdv_eq ht, if_neg hin.not_gt]
  exact ⟨_, rfl, State.completed_err _, rfl, rfl, fun _ => rfl, s.setVal_val _⟩

/-- After WRV the bytes at OFF are those it made of VAL. -/
theorem exec_wrv_rereads {l : List Byte}
    (hl : writeValue t (Config.freeNan32 s.serial 0) s.val s.off.toNat = .ok l) :
    ∃ u, exec (.wrv t) s = .next u ∧ u.err = false ∧ u.off = s.off ∧ u.len = s.len ∧
      ∀ a, u.bufByte a = (s.storeBytes s.off.toNat l).bufByte a :=
  ⟨_, exec_wrv_of_ok ht hin hl, State.completed_err _, rfl, rfl, fun _ => rfl⟩

end

/-- Settles O22: RDV finds the bytes WRV packed. -/
theorem wrvThenRdvRestoresInteger : Obligations.WrvThenRdvRestoresInteger := by
  intro t s ht hf hin hmin hmax
  obtain ⟨u, hwrv, herr, hoff, hlen, hstored⟩ := exec_wrv_rereads ht hin (writeValue_int hf hmin hmax _ _)
  obtain ⟨w, hrdv, herr', -, -, -, hval⟩ := exec_rdv_rereads ht (s := u) (by rwa [hoff, hlen])
  have hbytes : u.bufBytes u.off.toNat (nbytes t) = packInt t s.val.toInt := by
    rw [State.bufBytes_congr hstored, hoff, State.storeBytes_bufBytes_self _ _ (packInt_length ..)]
  refine ⟨u, w, hwrv, herr, hrdv, herr', ?_⟩
  rw [hval, hbytes, readValue, if_neg (by simp [hf]), unpackInt_packInt ht.one_le_bits hmin hmax, BitVec.ofInt_toInt]

/-- Settles O23: WRV packs the bytes RDV read, and storing what stands there changes nothing. -/
theorem rdvThenWrvRestoresFloat : Obligations.RdvThenWrvRestoresFloat := by
  intro t s ht hf hin hnum
  rw [← leNat_inOrder_bufBytes] at hnum
  obtain ⟨u, hrdv, herr, hoff, hlen, hkept, hval⟩ := exec_rdv_rereads ht hin
  obtain ⟨w, hwrv, herr', -, -, hstored⟩ :=
    exec_wrv_rereads ht (s := u) (by rwa [hoff, hlen]) (writeValue_float hf _ _)
  refine ⟨u, w, hrdv, herr, hwrv, herr', fun a => ?_⟩
  rw [hstored, hval, readValue, if_pos hf, packFloat_unpackFloat ht hf (State.bufBytes_length ..) hnum,
    ← State.bufBytes_congr hkept, hoff, State.storeBytes_bufBytes_bufByte, hkept]

/-! ### How RDA and WRA end (R120, R125) -/

section
variable {t : NumericType} {s : State} (ht : ValidType t)
include ht

theorem exec_rda_eq : exec (.rda t) s = .next (if s.bufOutside (s.cnt.toNat * nbytes t) then s.failed 17 s.off.toNat
    else if s.dstOutside s.cnt.toNat then s.failed 17 s.dst.toNat
    else (((s.storeCells s.dst.toNat ((List.range s.cnt.toNat).map (rdaCell t s))).setNext
      (s.off.toNat + s.cnt.toNat * nbytes t)).setRcnt s.cnt.toNat).completed) := by
  obtain ⟨u, hu⟩ := execRda_next (s := s) t
  refine hu.trans (congrArg _ ?_)
  rcases execRda_cases hu with ⟨hv, -⟩ | ⟨-, hout, rfl⟩ | ⟨-, hin, hout, rfl⟩ | ⟨-, hin, hdst, rfl⟩
  · simp [ht.typeValid_eq_true] at hv
  · rw [if_pos hout, State.raised_eq_failed]
    rfl
  · rw [if_neg hin, if_pos hout, State.raised_eq_failed]
    rfl
  · rw [if_neg hin, if_neg hdst]

theorem exec_wra_outside (h : s.bufOutside (s.cnt.toNat * nbytes t)) :
    exec (.wra t) s = .next (s.failed 17 s.off.toNat) := by
  obtain ⟨u, hu⟩ := execWra_next (s := s) t
  rcases execWra_cases hu with ⟨hv, -⟩ | ⟨-, -, rfl⟩ | ⟨-, hin, -⟩ | ⟨-, hin, -⟩
  · simp [ht.typeValid_eq_true] at hv
  · exact hu.trans (congrArg _ (State.raised_eq_failed ..))
  · exact absurd h hin
  · exact absurd h hin

theorem exec_wra_srcOutside (hin : ¬ s.bufOutside (s.cnt.toNat * nbytes t)) (h : s.srcOutside s.cnt.toNat) :
    exec (.wra t) s = .next (s.failed 17 s.src.toNat) := by
  obtain ⟨u, hu⟩ := execWra_next (s := s) t
  rcases execWra_cases hu with ⟨hv, -⟩ | ⟨-, hout, -⟩ | ⟨-, -, -, rfl⟩ | ⟨-, -, hsrc, -⟩
  · simp [ht.typeValid_eq_true] at hv
  · exact absurd hout hin
  · exact hu.trans (congrArg _ (State.raised_eq_failed ..))
  · exact absurd h hsrc

theorem exec_wra_inside (hin : ¬ s.bufOutside (s.cnt.toNat * nbytes t)) (hsrc : ¬ s.srcOutside s.cnt.toNat) :
    ∃ u, exec (.wra t) s = .next u ∧
      ((∃ e, collect (wraBytes t s) s.cnt.toNat 0 = .error e ∧
          u = (s.freeBytes s.off.toNat (s.cnt.toNat * nbytes t)).failed e.kind.code e.info) ∨
        (∃ l, collect (wraBytes t s) s.cnt.toNat 0 = .ok l ∧
          u = (((s.storeBytes s.off.toNat l.flatten).setNext (s.off.toNat + s.cnt.toNat * nbytes t)).setRcnt
            (s.cnt.toNat * nbytes t)).completed)) := by
  obtain ⟨u, hu⟩ := execWra_next (s := s) t
  refine ⟨u, hu, ?_⟩
  rcases execWra_cases hu with ⟨hv, -⟩ | ⟨-, hout, -⟩ | ⟨-, -, hout, -⟩ | ⟨-, -, -, ⟨e, he, rfl⟩ | hok⟩
  · simp [ht.typeValid_eq_true] at hv
  · exact absurd hout hin
  · exact absurd hout hsrc
  · exact .inl ⟨e, he, State.raised_eq_failed ..⟩
  · exact .inr hok

end

/-- Settles O18: cell DST + i was read from the bytes of value i, and no other cell was written. -/
theorem rdaReadsArray : Obligations.RdaReadsArray := by
  intro t s ht
  rw [exec_rda_eq ht]
  refine ⟨fun hout => by rw [if_pos hout], fun hin => ⟨fun hout => by rw [if_neg hin.not_gt, if_pos hout],
    fun hdst => ?_⟩⟩
  rw [if_neg hin.not_gt, if_neg hdst.not_gt]
  have hcell (j : Nat) := s.storeCells_smpCell s.dst.toNat ((List.range s.cnt.toNat).map (rdaCell t s)) j
  simp only [List.length_map, List.length_range] at hcell
  refine ⟨_, rfl, fun i hi => ?_, fun j hj => ?_, toNat_ofNat_of_le_len hin,
    (BitVec.ofNat_toNat ..).trans (BitVec.setWidth_eq _), State.completed_eq_succeeded _⟩
  · have hread : (s.storeCells s.dst.toNat ((List.range s.cnt.toNat).map (rdaCell t s))).smpCell (s.dst.toNat + i) =
        rdaCell t s i := by
      rw [hcell, dif_pos (by omega)]
      simp
    exact hread ▸ readAs_readValue ht s (s.off.toNat + i * nbytes t) (Config.freeNan64 s.serial i)
  · exact (hcell j).trans (dif_neg (by omega))

/-! ### The element loop of WRA -/

/-- One chunk of a row of chunks of equal length. -/
theorem take_drop_flatten {l : List (List Byte)} {n : Nat} (h : ∀ c ∈ l, c.length = n) {i : Nat} (hi : i < l.length) :
    (l.flatten.drop (i * n)).take n = l[i] := by
  induction l generalizing i with
  | nil => simp at hi
  | cons c l ih =>
    have hc : c.length = n := h c List.mem_cons_self
    cases i with
    | zero => simp [List.take_left' hc]
    | succ i =>
      rw [List.flatten_cons, Nat.succ_mul, Nat.add_comm, ← List.drop_drop, List.drop_left' hc]
      exact ih (fun d hd => h d (List.mem_cons_of_mem _ hd)) (by simpa using hi)

/-- The first failing element gives the loop its error (R83). -/
theorem collect_of_first_error {α : Type} {f : Nat → Except Error α} {n k : Nat} {e : Error} (hk : k < n)
    (hok : ∀ j < k, ∃ x, f j = .ok x) (he : f k = .error e) : collect f n 0 = .error e := by
  cases hc : collect f n 0 with
  | ok xs =>
    obtain ⟨hlen, hget⟩ := collect_ok hc
    have hxk := hget k (by omega)
    rw [Nat.zero_add, he] at hxk
    cases hxk
  | error e' =>
    obtain ⟨k', -, he', hok'⟩ := collect_error hc
    simp only [Nat.zero_add] at he' hok'
    rcases lt_trichotomy k k' with hlt | rfl | hgt
    · obtain ⟨x, hx⟩ := hok' k hlt
      rw [he] at hx
      cases hx
    · obtain rfl : e' = e := Except.error.inj (he'.symm.trans he)
      rfl
    · obtain ⟨x, hx⟩ := hok k' hgt
      rw [he'] at hx
      cases hx

/-- Settles O19: value i is what the write made of cell SRC + i, and the values stand one after the other. -/
theorem wraWritesArray : Obligations.WraWritesArray := by
  intro t s ht
  refine ⟨fun hout => exec_wra_outside ht hout, fun hin => ⟨fun hout => exec_wra_srcOutside ht hin.not_gt hout,
    fun hsrc hw => ?_⟩⟩
  have hcomplete : ∃ l, collect (wraBytes t s) s.cnt.toNat 0 = .ok l :=
    collect_complete fun k hk => exists_writeValue_of_writable (by simpa using hw k hk) _ _
  obtain ⟨u, hu, ⟨e, he, -⟩ | ⟨l, hl, rfl⟩⟩ := exec_wra_inside ht hin.not_gt hsrc.not_gt
  · obtain ⟨l, hl⟩ := hcomplete
    rw [he] at hl
    cases hl
  obtain ⟨hcount, hget⟩ := collect_ok hl
  have hall : ∀ c ∈ l, c.length = nbytes t := by
    intro c hc
    obtain ⟨k, hk, rfl⟩ := List.mem_iff_getElem.mp hc
    exact writeValue_length (hget k hk)
  have hflat := wraBytes_flatten_length hl
  refine ⟨_, hu, fun i hi => ?_, fun a ha => ?_, toNat_ofNat_of_le_len hin,
    toNat_ofNat_of_le_len ((Nat.le_add_left ..).trans hin), State.completed_eq_succeeded _⟩
  · have hi' : i < l.length := hcount ▸ hi
    have hroom : i * nbytes t + nbytes t ≤ l.flatten.length := by
      rw [hflat, ← Nat.succ_mul]
      exact Nat.mul_le_mul_right _ hi
    have hbytes := s.storeBytes_bufBytes s.off.toNat l.flatten hroom
    rw [take_drop_flatten hall hi'] at hbytes
    have hwritten := writtenAs_of_writeValue ht (hget i hi')
    rw [Nat.zero_add, ← hbytes, leNat_inOrder_bufBytes] at hwritten
    exact hwritten
  · exact (s.storeBytes_bufByte s.off.toNat l.flatten a).trans (dif_neg (by omega))

/-- Settles O20: the elements before i are well and element i fails, so the loop ends in its error. -/
theorem wraRangeError : Obligations.WraRangeError := by
  intro t s i ht hin hsrc hi hw hnot
  have hfail := collect_of_first_error (f := wraBytes t s) hi (fun j hj => exists_writeValue_of_writable (hw j hj) _ _)
    (writeValue_of_not_writable hnot _ i)
  obtain ⟨u, hu, ⟨e, he, rfl⟩ | ⟨l, hl, -⟩⟩ := exec_wra_inside ht hin.not_gt hsrc.not_gt
  · rw [hfail, Except.error.injEq] at he
    refine ⟨_, hu, fun a ha => s.freeBytes_bufByte_outside _ _ a ha, ?_⟩
    rw [← he, State.smpInt]
    split <;> rfl
  · rw [hfail] at hl
    cases hl

end Sys2Proof.Machine
end

section
/-! PROOF of O25, O26 and O32 (41_chunk_indexer.md R140 to R142, R158, R159): the reads of IDX as numbers, how IDX ends
on every container header, and that no read of it leaves the bytes below LEN. -/

namespace Sys2Proof.Machine

/-! ### The reads of IDX -/

theorem beq_rifx_eq_isBigEndianKind (k : ContainerKind) : (k == .rifx) = isBigEndianKind k := by
  cases k <;> rfl

theorem code_beq_one_eq_isBigEndianKind (k : ContainerKind) : (k.code == 1) = isBigEndianKind k := by
  cases k <;> rfl

section
variable (s : State)

/-- The four bytes of a size field as a number. -/
theorem State.leNat_inOrder_sizeType (be : Bool) (a : Nat) :
    leNat (inOrder (sizeType be) (s.bufBytes a 4)) = s.bytesAt a 4 be :=
  leNat_inOrder_bufBytes (sizeType be) s a 4

theorem State.bytesAt_four_lt (a : Nat) (be : Bool) : s.bytesAt a 4 be < 2 ^ 32 := by
  have hlt := leNat_lt (inOrder (sizeType be) (s.bufBytes a 4))
  rwa [s.leNat_inOrder_sizeType, inOrder_length, State.bufBytes_length] at hlt

/-- `u32` is the number its four bytes hold in the container's order (R141). -/
theorem State.u32_eq_bytesAt (be : Bool) (a : Nat) : s.u32 be a = s.bytesAt a 4 be := by
  have hunpack : unpackInt (sizeType be) (s.bufBytes a 4) =
      intOfPattern (sizeType be) (leNat (inOrder (sizeType be) (s.bufBytes a 4)) % 2 ^ 32) :=
    unpackInt_eq (show 1 ≤ 32 by decide) (by simp [nbytes, sizeType])
  rw [State.u32, hunpack, s.leNat_inOrder_sizeType, Nat.mod_eq_of_lt (s.bytesAt_four_lt a be)]
  rfl

theorem State.u32_lt (be : Bool) (a : Nat) : s.u32 be a < 2 ^ 32 :=
  (s.u32_eq_bytesAt be a).trans_lt (s.bytesAt_four_lt a be)

/-- The tag word of four bytes is the number of the tag (R150). -/
theorem State.tagWord_bufBytes_toNat (a : Nat) : (tagWord (s.bufBytes a 4)).toNat = s.tagAt a := by
  rw [tagWord, BitVec.toNat_ofNat, leNat_bufBytes, Nat.mod_eq_of_lt (s.bytesAt_four_lt a false)]
  rfl

theorem State.memRead_outside {a n : Nat} (h : s.len < a + n) : s.memRead a n = .error (outOfBounds a) :=
  if_pos h

end

/-! ### How IDX ends on every container header (R159) -/

section
variable {s : State}

theorem execIdx_of_header_error {e : Error} (h : s.containerHeader = .error e) :
    exec .idx s = .next (s.failed e.kind.code e.info) := by
  rw [← State.raised_eq_failed]
  show execIdx s = _
  simp only [execIdx, h]
  rfl

/-- The checks of the 12-byte header in address order (R159). -/
theorem containerHeader_eq (s : State) : s.containerHeader =
    if s.len < 4 then .error (outOfBounds 0)
    else s.leadingKind.elim (.error (unsupportedContainer 0)) fun k =>
      if s.len < 8 then .error (outOfBounds 4)
      else if s.len < 12 then .error (outOfBounds 8)
      else if s.tagAt 8 = 0x45564157 then .ok (k, s.u32 (isBigEndianKind k) 4)
      else .error (unsupportedContainer 8) := by
  have hwave : s.bufBytes 8 4 = tagWave ↔ s.tagAt 8 = 0x45564157 := State.bufBytes_eq_tag_iff rfl
  unfold State.containerHeader
  by_cases h4 : s.len < 4
  · rw [s.memRead_outside h4, if_pos h4]
  rw [State.memRead_ok (not_lt.mp h4), if_neg h4]
  simp only [State.kindOfTag_bufBytes]
  cases s.leadingKind with
  | none => rfl
  | some k =>
    rw [Option.elim_some]
    by_cases h8 : s.len < 8
    · rw [s.memRead_outside h8, if_pos h8]
    rw [State.memRead_ok (not_lt.mp h8), if_neg h8]
    by_cases h12 : s.len < 12
    · rw [s.memRead_outside h12, if_pos h12]
    rw [State.memRead_ok (not_lt.mp h12), if_neg h12]
    exact if_congr hwave rfl rfl

/-- A header that raises nothing is the header of a container, the converse of `State.IsContainer.containerHeader`. -/
theorem isContainer_of_containerHeader {k : ContainerKind} {size : Nat} (h : s.containerHeader = .ok (k, size)) :
    s.IsContainer k := by
  rw [containerHeader_eq] at h
  cases hkind : s.leadingKind with
  | none =>
    rw [hkind, Option.elim_none] at h
    split_ifs at h
  | some j =>
    rw [hkind, Option.elim_some] at h
    split_ifs at h with h4 h8 h12 hwave
    obtain ⟨rfl, -⟩ := Prod.mk.inj (Except.ok.inj h)
    exact ⟨not_lt.mp h12, hkind, hwave⟩

end

/-- Settles O26: each clause is the first check of the header that fails. -/
theorem idxHeaderErrors : Obligations.IdxHeaderErrors := by
  intro s
  refine ⟨fun h4 => ?_, fun h4 hkind => ?_, fun h4 hkind h8 => ?_, fun h8 hkind h12 => ?_, fun h12 hkind hwave => ?_⟩
  · refine execIdx_of_header_error (e := outOfBounds 0) ?_
    rw [containerHeader_eq, if_pos h4]
  · refine execIdx_of_header_error (e := unsupportedContainer 0) ?_
    rw [containerHeader_eq, if_neg h4.not_gt, hkind, Option.elim_none]
  all_goals obtain ⟨k, hkind⟩ := Option.ne_none_iff_exists'.mp hkind
  · refine execIdx_of_header_error (e := outOfBounds 4) ?_
    rw [containerHeader_eq, if_neg h4.not_gt, hkind, Option.elim_some, if_pos h8]
  · refine execIdx_of_header_error (e := outOfBounds 8) ?_
    rw [containerHeader_eq, if_neg (by omega), hkind, Option.elim_some, if_neg h8.not_gt, if_pos h12]
  · refine execIdx_of_header_error (e := unsupportedContainer 8) ?_
    rw [containerHeader_eq, if_neg (by omega), hkind, Option.elim_some, if_neg (by omega), if_neg h12.not_gt,
      if_neg hwave]

/-! ### IDX without error -/

/-- Records above the last one written are as they were. -/
theorem State.indexed_descRecord_above {s : State} {k : ContainerKind} {rs : List DescRecord} {j : Nat}
    (hj : rs.length ≤ j) : (s.indexed k rs).descRecord j = s.descRecord j :=
  (s.storeRecords_descRecord rs j).trans (dif_neg (by omega))

/-- Settles O25: every record takes 8 bytes past the container header, so the table never fills. -/
theorem idxIndexesContainer : Obligations.IdxIndexesContainer := by
  intro k s hs hroom
  obtain ⟨rs, hrs⟩ : ∃ rs, s.walkAll (isBigEndianKind k) = .ok rs := walk_completes (by omega)
  have hcount : 8 * rs.length ≤ s.len - 12 := walk_ok_length hrs
  have hnDesc : (s.indexed k rs).completed.idx.nDesc.toNat = rs.length := State.indexed_nDesc (by omega)
  refine ⟨_, execIdx_of_records hs hrs, rfl, ?_, rfl, by omega,
    fun j hj => State.indexed_descRecord_above (k := k) (hnDesc.symm.trans_le hj), State.completed_eq_succeeded _⟩
  have hsize : (s.indexed k rs).completed.idx.size.toNat = s.u32 (isBigEndianKind k) 4 :=
    Nat.mod_eq_of_lt (s.u32_lt _ _)
  rw [hsize, s.u32_eq_bytesAt, beq_rifx_eq_isBigEndianKind]

/-! ### Two machines with the same bytes below LEN (R158) -/

/-- The two machines have the same LEN, the same bytes below it and the same number of records in DESC. -/
structure State.SameContainer (s t : State) : Prop where
  len : s.len = t.len
  bufByte : ∀ a, a < s.len → s.bufByte a = t.bufByte a
  nDesc : s.params.nDesc = t.params.nDesc

namespace State.SameContainer

variable {s t : State} (h : s.SameContainer t)
include h

theorem bufBytes {a n : Nat} (hin : a + n ≤ s.len) : s.bufBytes a n = t.bufBytes a n :=
  List.map_congr_left fun k hk => h.bufByte (a + k) (by have := List.mem_range.mp hk; omega)

theorem memRead (a n : Nat) : s.memRead a n = t.memRead a n := by
  by_cases hin : a + n ≤ s.len
  · rw [memRead_ok hin, memRead_ok (h.len ▸ hin), h.bufBytes hin]
  · rw [s.memRead_outside (by omega), t.memRead_outside (by have := h.len; omega)]

theorem containerHeader : s.containerHeader = t.containerHeader := by
  unfold State.containerHeader
  rw [h.memRead, h.memRead, h.memRead]

section
variable {be : Bool} {cursor bound : Nat}

theorem u32 {a : Nat} (hin : a + 4 ≤ s.len) : s.u32 be a = t.u32 be a :=
  congrArg (fun bytes => (unpackInt (sizeType be) bytes).toNat) (h.bufBytes hin)

theorem entersList (hin : cursor + 8 ≤ s.len) : s.entersList be cursor bound = t.entersList be cursor bound := by
  unfold State.entersList
  rw [h.bufBytes (by omega), h.u32 (by omega)]

theorem childrenBound (hin : cursor + 8 ≤ s.len) :
    s.childrenBound be cursor bound = t.childrenBound be cursor bound := by
  unfold State.childrenBound
  rw [h.entersList hin, h.u32 (by omega)]

theorem nextSiblingHeader (hin : cursor + 8 ≤ s.len) :
    s.nextSiblingHeader be cursor = t.nextSiblingHeader be cursor :=
  congrArg (nextHeader (cursor + 8)) (h.u32 (by omega))

end

end State.SameContainer

/-- A format tag that is read lies below the bound (R147). -/
theorem State.entersList_room {s : State} {be : Bool} {cursor bound : Nat} (h : s.entersList be cursor bound = true) :
    s.tagAt cursor = 0x5453494C ∧ cursor + 12 ≤ min (cursor + 8 + s.u32 be (cursor + 4)) bound := by
  obtain ⟨htag, hroom⟩ := Bool.and_eq_true_iff.mp h
  exact ⟨(State.bufBytes_eq_tag_iff rfl).mp (of_decide_eq_true htag), of_decide_eq_true hroom⟩

section
variable {s t : State} (h : s.SameContainer t)
include h

theorem State.SameContainer.headerRecord {be : Bool} {cursor bound : Nat} {parent : Option Nat} {depth : Nat}
    (hin : cursor + 8 ≤ bound) (hbound : bound ≤ s.len) :
    s.headerRecord be cursor bound parent depth = t.headerRecord be cursor bound parent depth := by
  unfold State.headerRecord
  rw [← h.entersList (by omega), ← h.bufBytes (a := cursor) (by omega), ← h.u32 (by omega)]
  cases hlist : s.entersList be cursor bound with
  | false => rfl
  | true =>
    obtain ⟨-, hroom⟩ := State.entersList_room hlist
    rw [h.bufBytes (a := cursor + 8) (by omega)]

/-- Every byte the walk reads lies below its bound (R142). -/
theorem State.SameContainer.walk {be : Bool} {f cursor bound : Nat} {parent : Option Nat} {depth n : Nat}
    (hbound : bound ≤ s.len) : walk s be f cursor bound parent depth n = walk t be f cursor bound parent depth n := by
  induction f generalizing cursor bound parent depth n with
  | zero => rfl
  | succ f ih =>
    by_cases hb : bound < cursor + 8
    · rw [walk_stop hb, walk_stop hb]
    have hb : cursor + 8 ≤ bound := not_lt.mp hb
    by_cases hn : s.params.nDesc ≤ n
    · rw [walk_tableFull hb hn, walk_tableFull hb (h.nDesc ▸ hn)]
    have hchildren := s.childrenBound_le_bound be cursor bound
    rw [walk_header hb (by omega), walk_header hb (by have := h.nDesc; omega), ← h.childrenBound (by omega),
      ← h.nextSiblingHeader (by omega), ← h.headerRecord hb hbound, ih (by omega)]
    simp only [ih hbound]

theorem State.SameContainer.walkAll (be : Bool) : s.walkAll be = t.walkAll be :=
  calc
    s.walkAll be = Machine.walk t be s.len 12 s.len none 0 0 := h.walk le_rfl
    _ = t.walkAll be := by rw [h.len]; rfl

theorem State.SameContainer.isContainer {k : ContainerKind} (hs : s.IsContainer k) : t.IsContainer k :=
  isContainer_of_containerHeader (h.containerHeader ▸ hs.containerHeader)

end

/-- IDX writes no byte of BUF. -/
theorem State.indexed_bufByte {s : State} {k : ContainerKind} {rs : List DescRecord} (a : Nat) :
    (s.indexed k rs).completed.bufByte a = s.bufByte a := rfl

/-- Settles O32: the header and the walk read nothing but bytes below LEN, LEN and N_DESC. -/
theorem idxDependsOnBufferAlone : Obligations.IdxDependsOnBufferAlone := by
  intro s t hlen hbuf hdesc
  have h : s.SameContainer t := ⟨hlen, hbuf, hdesc⟩
  cases hheader : s.containerHeader with
  | error e =>
    refine ⟨_, _, execIdx_of_header_error hheader, execIdx_of_header_error (h.containerHeader ▸ hheader), rfl, rfl,
      fun hok => ?_, fun a => rfl⟩
    rw [← State.raised_eq_failed, State.raised_err] at hok
    cases hok
  | ok p =>
    obtain ⟨k, size⟩ := p
    have hs := isContainer_of_containerHeader hheader
    have ht := h.isContainer hs
    cases hwalk : s.walkAll (isBigEndianKind k) with
    | error e =>
      refine ⟨_, _, execIdx_of_walk_error hs hwalk, execIdx_of_walk_error ht (h.walkAll _ ▸ hwalk), rfl, rfl,
        fun hok => ?_, fun a => rfl⟩
      rw [State.raised_err] at hok
      cases hok
    | ok rs =>
      have hle := walkAll_length hwalk
      have hidx : s.indexRegs k rs.length = t.indexRegs k rs.length := by
        unfold State.indexRegs
        rw [h.u32 (by have := hs.1; omega)]
      have hcount : (s.indexed k rs).completed.idx.nDesc.toNat ≤ rs.length := Nat.mod_le _ _
      refine ⟨_, _, execIdx_of_records hs hwalk, execIdx_of_records ht (h.walkAll _ ▸ hwalk), rfl, rfl,
        fun _ => ⟨hidx, fun i hi => ?_⟩, State.indexed_bufByte⟩
      have hi : i < rs.length := hi.trans_le hcount
      calc
        (s.indexed k rs).descRecord i = rs[i] := State.indexed_descRecord hi
        _ = (t.indexed k rs).descRecord i := (State.indexed_descRecord hi).symm

end Sys2Proof.Machine
end

section
/-! PROOF support for O27 to O30 (41_chunk_indexer.md R141 to R151): the fields of a record, and the tree of levels that
the records in DESC are after IDX. `State.Level` says of BUF and DESC of one state what the walk of one level left
there; every fact about the records is an induction over it. -/

namespace Sys2Proof.Machine

/-! ### The fields of a record (R150) -/

theorem parentWord_some_toNat {p : Nat} (h : p < 2 ^ 32) : (parentWord (some p)).toNat = p :=
  Nat.mod_eq_of_lt h

section
variable (isList fmtValid : Bool) (depth : Nat)

theorem descFlags_toNat :
    (descFlags isList fmtValid depth).toNat = isList.toNat + 2 * fmtValid.toNat + 256 * min depth 255 := by
  have hlist := isList.toNat_lt
  have hvalid := fmtValid.toNat_lt
  rw [descFlags, BitVec.toNat_ofNat]
  omega

theorem descFlags_bit_zero : (descFlags isList fmtValid depth).getLsbD 0 = isList := by
  have hlist := isList.toNat_lt
  rw [eq_comm, eq_getLsbD_iff, descFlags_toNat]
  omega

theorem descFlags_bit_one : (descFlags isList fmtValid depth).getLsbD 1 = fmtValid := by
  have hlist := isList.toNat_lt
  have hvalid := fmtValid.toNat_lt
  rw [eq_comm, eq_getLsbD_iff, descFlags_toNat]
  omega

end

section
variable (s : State) (be : Bool) (header bound : Nat) (parent : Option Nat) (depth : Nat)

theorem State.headerRecord_start_toNat (h : header + 8 < 2 ^ 32) :
    (s.headerRecord be header bound parent depth).start.toNat = header + 8 :=
  Nat.mod_eq_of_lt h

theorem State.headerRecord_id : (s.headerRecord be header bound parent depth).id.toNat = s.tagAt header :=
  s.tagWord_bufBytes_toNat header

theorem State.headerRecord_size :
    (s.headerRecord be header bound parent depth).size.toNat = s.u32 be (header + 4) :=
  Nat.mod_eq_of_lt (s.u32_lt be _)

/-- END_LO and END_HI hold the end of the data whole (R144). -/
theorem State.headerRecord_dataEnd (h : header + 8 < 2 ^ 32) :
    (s.headerRecord be header bound parent depth).dataEnd = header + 8 + s.u32 be (header + 4) := by
  have hsize := s.u32_lt be (header + 4)
  have hlo : (s.headerRecord be header bound parent depth).endLo =
      BitVec.ofNat 32 (header + 8 + s.u32 be (header + 4)) := rfl
  have hhi : (s.headerRecord be header bound parent depth).endHi =
      BitVec.ofNat 32 ((header + 8 + s.u32 be (header + 4)) / 2 ^ 32) := rfl
  rw [DescRecord.dataEnd, hlo, hhi, BitVec.toNat_ofNat, BitVec.toNat_ofNat]
  omega

theorem State.headerRecord_nextOffset (h : header + 8 < 2 ^ 32) :
    (s.headerRecord be header bound parent depth).nextOffset = s.nextSiblingHeader be header := by
  rw [DescRecord.nextOffset, s.headerRecord_dataEnd be header bound parent depth h, s.headerRecord_size]
  rfl

theorem State.headerRecord_parent : (s.headerRecord be header bound parent depth).parent = parentWord parent := rfl

theorem State.headerRecord_flags :
    (s.headerRecord be header bound parent depth).flags =
      descFlags (decide (s.tagAt header = 0x5453494C)) (s.entersList be header bound) depth := by
  have htag : s.bufBytes header 4 = tagList ↔ s.tagAt header = 0x5453494C := State.bufBytes_eq_tag_iff rfl
  unfold State.headerRecord chunkRecord
  simp only [htag]
  cases s.entersList be header bound <;> rfl

theorem State.headerRecord_isList :
    (s.headerRecord be header bound parent depth).isList = decide (s.tagAt header = 0x5453494C) := by
  rw [DescRecord.isList, s.headerRecord_flags, descFlags_bit_zero]

theorem State.headerRecord_fmtValid :
    (s.headerRecord be header bound parent depth).fmtValid = s.entersList be header bound := by
  rw [DescRecord.fmtValid, s.headerRecord_flags, descFlags_bit_one]

theorem State.headerRecord_depth : (s.headerRecord be header bound parent depth).depth = min depth 255 := by
  have hlist := (decide (s.tagAt header = 0x5453494C)).toNat_lt
  have hvalid := (s.entersList be header bound).toNat_lt
  rw [DescRecord.depth, s.headerRecord_flags, descFlags_toNat]
  omega

theorem State.headerRecord_listFmt :
    (s.headerRecord be header bound parent depth).listFmt =
      if s.entersList be header bound then tagWord (s.bufBytes (header + 8) 4) else 0 := by
  unfold State.headerRecord chunkRecord
  cases s.entersList be header bound <;> rfl

/-- The bound of a LIST's children is the smaller of its own end and its level's bound (R147). -/
theorem State.childrenBound_of_enters (h : s.entersList be header bound = true) :
    s.childrenBound be header bound = min (header + 8 + s.u32 be (header + 4)) bound :=
  if_pos h

/-- Only below a LIST with its format tag can a child's header stand (R148). -/
theorem State.entersList_of_childrenBound_pos (h : 0 < s.childrenBound be header bound) :
    s.entersList be header bound = true := by
  by_contra hno
  rw [State.childrenBound, if_neg hno] at h
  omega

end

/-! ### The levels of the tree (R147, R151) -/

/-- Records `n` to `m - 1` of DESC describe the chunks from `cursor` on of one level of BUF, each followed by those of
its own children: what the walk of R141 left there. -/
inductive State.Level (s : State) (be : Bool) :
    (cursor bound : Nat) → (parent : Option Nat) → (depth n m : Nat) → Prop
  | stop {cursor bound : Nat} {parent : Option Nat} {depth n : Nat} (hstop : bound < cursor + 8) :
      s.Level be cursor bound parent depth n n
  | chunk {cursor bound : Nat} {parent : Option Nat} {depth n k m : Nat} (hroom : cursor + 8 ≤ bound)
      (hrecord : s.descRecord n = s.headerRecord be cursor bound parent depth)
      (hchildren : s.Level be (cursor + 12) (s.childrenBound be cursor bound) (some n) (depth + 1) (n + 1) k)
      (hrest : s.Level be (s.nextSiblingHeader be cursor) bound parent depth k m) :
      s.Level be cursor bound parent depth n m

/-- A walk with fuel enough whose records stand in DESC has left a level there. -/
theorem level_of_walk {s : State} {be : Bool} {f cursor bound : Nat} {parent : Option Nat} {depth n : Nat}
    {rs : List DescRecord} (hfuel : bound < cursor + f) (h : walk s be f cursor bound parent depth n = .ok rs)
    (hdesc : ∀ i (hi : i < rs.length), s.descRecord (n + i) = rs[i]) :
    s.Level be cursor bound parent depth n (n + rs.length) := by
  induction f generalizing cursor bound parent depth n rs with
  | zero => cases h; exact .stop (by omega)
  | succ f ih =>
    rcases walk_ok_cases h with ⟨hb, rfl⟩ | ⟨hb, -, children, rest, hc, hr, rfl⟩
    · exact .stop hb
    have hle := s.childrenBound_le_bound be cursor bound
    have hmove := s.le_nextSiblingHeader be cursor
    have hchildren := ih (by omega) hc fun i hi => by
      have hd := hdesc (i + 1) (by simp; omega)
      rw [show n + 1 + i = n + (i + 1) by omega, hd, List.getElem_cons_succ, List.getElem_append_left hi]
    have hrest := ih (by omega) hr fun i hi => by
      have hd := hdesc (children.length + i + 1) (by simp; omega)
      rw [show n + 1 + children.length + i = n + (children.length + i + 1) by omega, hd, List.getElem_cons_succ,
        List.getElem_append_right (by omega)]
      simp
    have hcount : n + 1 + children.length + rest.length =
        n + (s.headerRecord be cursor bound parent depth :: (children ++ rest)).length := by
      simp only [List.length_cons, List.length_append]
      omega
    exact hcount ▸ .chunk hb (hdesc 0 (by simp)) hchildren hrest

namespace State.Level

section
variable {s : State} {be : Bool} {cursor bound : Nat} {parent : Option Nat} {depth n m i j : Nat}

theorem le (h : s.Level be cursor bound parent depth n m) : n ≤ m := by
  induction h with
  | stop => exact le_rfl
  | chunk _ _ _ _ ihc ihr => omega

/-- The walk of a level stops only where fewer than 8 bytes remain (R149). -/
theorem bound_lt_of_empty (h : s.Level be cursor bound parent depth n n) : bound < cursor + 8 := by
  cases h with
  | stop hstop => exact hstop
  | chunk _ _ hc hr =>
    have hle := hc.le
    have hle' := hr.le
    omega

/-- The first record of a level is that of the chunk at its cursor. -/
theorem first_record (h : s.Level be cursor bound parent depth n m) (hn : n < m) :
    s.descRecord n = s.headerRecord be cursor bound parent depth := by
  cases h with
  | stop => omega
  | chunk _ hrecord => exact hrecord

theorem first_start (h : s.Level be cursor bound parent depth n m) (hbound : bound < 2 ^ 32) (hn : n < m) :
    (s.descRecord n).start.toNat = cursor + 8 := by
  cases h with
  | stop => omega
  | chunk hroom hrecord => rw [hrecord, s.headerRecord_start_toNat be cursor bound parent depth (by omega)]

theorem first_parent (h : s.Level be cursor bound parent depth n m) (hn : n < m) :
    (s.descRecord n).parent = parentWord parent :=
  h.first_record hn ▸ s.headerRecord_parent be cursor bound parent depth

/-- Every record of a level comes from a header between the cursor and the level's bound (R142, R144). -/
theorem exists_header (h : s.Level be cursor bound parent depth n m) (hi : n ≤ i) (him : i < m) :
    ∃ header b p d, cursor ≤ header ∧ header + 8 ≤ b ∧ b ≤ bound ∧
      s.descRecord i = s.headerRecord be header b p d := by
  induction h with
  | stop => omega
  | @chunk cursor bound parent depth n k m hroom hrecord hc hr ihc ihr =>
    have hle := s.childrenBound_le_bound be cursor bound
    have hmove := s.le_nextSiblingHeader be cursor
    rcases Nat.eq_or_lt_of_le hi with rfl | hi
    · exact ⟨cursor, bound, parent, depth, le_rfl, hroom, le_rfl, hrecord⟩
    by_cases hik : i < k
    · obtain ⟨header, b, p, d, hlow, hin, hb, heq⟩ := ihc hi hik
      exact ⟨header, b, p, d, by omega, hin, by omega, heq⟩
    · obtain ⟨header, b, p, d, hlow, hin, hb, heq⟩ := ihr (by omega) him
      exact ⟨header, b, p, d, by omega, hin, by omega, heq⟩

/-- A record's data start between the cursor's and the level's bound. -/
theorem start_mem (h : s.Level be cursor bound parent depth n m) (hbound : bound < 2 ^ 32) (hi : n ≤ i) (him : i < m) :
    cursor + 8 ≤ (s.descRecord i).start.toNat ∧ (s.descRecord i).start.toNat ≤ bound := by
  obtain ⟨header, b, p, d, hlow, hin, hb, heq⟩ := h.exists_header hi him
  rw [heq, s.headerRecord_start_toNat be header b p d (by omega)]
  omega

/-- Children stand only below a LIST whose format tag was read. -/
theorem enters_of_child {p : Option Nat} {d : Nat}
    (h : s.Level be (cursor + 12) (s.childrenBound be cursor bound) p d n m) (hi : n ≤ i) (him : i < m) :
    s.entersList be cursor bound = true := by
  obtain ⟨header, b, -, -, hlow, hin, hb, -⟩ := h.exists_header hi him
  exact s.entersList_of_childrenBound_pos be cursor bound (by omega)

/-- Data starts rise by a header's 8 bytes or more from record to record (R151). -/
theorem start_add_eight_le (h : s.Level be cursor bound parent depth n m) (hbound : bound < 2 ^ 32) (hi : n ≤ i)
    (hij : i < j) (hjm : j < m) : (s.descRecord i).start.toNat + 8 ≤ (s.descRecord j).start.toNat := by
  induction h with
  | stop => omega
  | @chunk cursor bound parent depth n k m hroom hrecord hc hr ihc ihr =>
    have hle := s.childrenBound_le_bound be cursor bound
    have hnext := s.childrenBound_le_next be cursor bound
    have hmove := s.le_nextSiblingHeader be cursor
    have hchild := fun hn hk => hc.start_mem (i := j) (by omega) hn hk
    have hlater := fun hk => hr.start_mem (i := j) hbound hk hjm
    rcases Nat.eq_or_lt_of_le hi with rfl | hi
    · rw [hrecord, s.headerRecord_start_toNat be cursor bound parent depth (by omega)]
      by_cases hjk : j < k
      · have hstart := hchild hij hjk
        omega
      · have hstart := hlater (by omega)
        omega
    by_cases hik : k ≤ i
    · exact ihr hbound hik hjm
    by_cases hjk : j < k
    · exact ihc (by omega) hi hjk
    · have hstart := hc.start_mem (by omega) hi (by omega)
      have hstart' := hlater (by omega)
      omega

end

end State.Level

/-- Record `p` is a LIST with its format tag around the chunk of record `r` (R147, R155). -/
structure DescRecord.Encloses (p r : DescRecord) : Prop where
  isList : p.isList = true
  fmtValid : p.fmtValid = true
  afterTag : p.start.toNat + 12 ≤ r.start.toNat
  within : r.start.toNat ≤ p.dataEnd
  depth : r.depth = min (p.depth + 1) 255

namespace State.Level

section
variable {s : State} {be : Bool} {cursor bound : Nat} {parent : Option Nat} {depth n m i : Nat}

/-- A record stands at the level itself, or its PARENT is an earlier record of the level that encloses it. -/
theorem parent_cases (h : s.Level be cursor bound parent depth n m) (hbound : bound < 2 ^ 32) (hm : m < 2 ^ 32)
    (hi : n ≤ i) (him : i < m) :
    ((s.descRecord i).parent = parentWord parent ∧ (s.descRecord i).depth = min depth 255) ∨
      (n ≤ (s.descRecord i).parent.toNat ∧ (s.descRecord i).parent.toNat < i ∧
        (s.descRecord (s.descRecord i).parent.toNat).Encloses (s.descRecord i)) := by
  induction h with
  | stop => omega
  | @chunk cursor bound parent depth n k m hroom hrecord hc hr ihc ihr =>
    have hle := s.childrenBound_le_bound be cursor bound
    have hkm := hr.le
    rcases Nat.eq_or_lt_of_le hi with rfl | hi
    · rw [hrecord]
      exact .inl ⟨rfl, s.headerRecord_depth be cursor bound parent depth⟩
    by_cases hik : k ≤ i
    · rcases ihr hbound hm hik him with hown | ⟨hlow, henc⟩
      · exact .inl hown
      · exact .inr ⟨by have := hc.le; omega, henc⟩
    have hik : i < k := not_le.mp hik
    rcases ihc (by omega) (by omega) hi hik with ⟨hparent, hdepth⟩ | ⟨hlow, henc⟩
    · have henters := hc.enters_of_child hi hik
      obtain ⟨htag, -⟩ := State.entersList_room henters
      obtain ⟨hlow, hhigh⟩ := hc.start_mem (by omega) hi hik
      have hheader : cursor + 8 < 2 ^ 32 := by omega
      rw [s.childrenBound_of_enters be cursor bound henters] at hhigh
      have hn : (s.descRecord i).parent.toNat = n := by rw [hparent, parentWord_some_toNat (by omega)]
      refine .inr ⟨hn.ge, by omega, ?_⟩
      rw [hn, hrecord]
      exact {
        isList := by rw [s.headerRecord_isList, decide_eq_true htag]
        fmtValid := by rw [s.headerRecord_fmtValid, henters]
        afterTag := by rw [s.headerRecord_start_toNat be cursor bound parent depth hheader]; omega
        within := by rw [s.headerRecord_dataEnd be cursor bound parent depth hheader]; omega
        depth := by rw [hdepth, s.headerRecord_depth]; omega }
    · exact .inr ⟨by omega, henc⟩

/-- The PARENT of a record is that of its level, or an earlier record of the level. -/
theorem parent_mem (h : s.Level be cursor bound parent depth n m) (hbound : bound < 2 ^ 32) (hm : m < 2 ^ 32)
    (hi : n ≤ i) (him : i < m) :
    (s.descRecord i).parent.toNat = (parentWord parent).toNat ∨
      (n ≤ (s.descRecord i).parent.toNat ∧ (s.descRecord i).parent.toNat < i) := by
  rcases h.parent_cases hbound hm hi him with ⟨hparent, -⟩ | ⟨hlow, hlt, -⟩
  · exact .inl (congrArg BitVec.toNat hparent)
  · exact .inr ⟨hlow, hlt⟩

end

end State.Level

/-! ### The bound of a level (R147) -/

/-- `bound` is the bound of the level of each record from `n` on whose PARENT is `parent`. -/
def State.BoundsLevel (s : State) (parent : Option Nat) (n bound : Nat) : Prop :=
  ∀ i f, n ≤ i → i < f → (s.descRecord i).parent = parentWord parent → s.levelBound f i = bound

section
variable {s : State} {be : Bool} {cursor bound : Nat} {parent : Option Nat} {depth n k : Nat}

theorem State.levelBound_succ (f i : Nat) : s.levelBound (f + 1) i =
    if (s.descRecord i).parent = 0xFFFFFFFF then s.len
    else min (s.descRecord (s.descRecord i).parent.toNat).dataEnd (s.levelBound f (s.descRecord i).parent.toNat) := rfl

theorem State.boundsLevel_top : s.BoundsLevel none 0 s.len := by
  intro i f _ hf hparent
  obtain ⟨f, rfl⟩ := Nat.exists_eq_succ_of_ne_zero (by omega : f ≠ 0)
  exact if_pos hparent

theorem State.BoundsLevel.mono (h : s.BoundsLevel parent n bound) (hk : n ≤ k) : s.BoundsLevel parent k bound :=
  fun i f hi => h i f (hk.trans hi)

/-- Below a LIST the bound is the smaller of its end and its own level's bound. -/
theorem State.BoundsLevel.children (h : s.BoundsLevel parent n bound)
    (hrecord : s.descRecord n = s.headerRecord be cursor bound parent depth)
    (henters : s.entersList be cursor bound = true) (hheader : cursor + 8 < 2 ^ 32) (hn : n + 1 < 2 ^ 32) :
    s.BoundsLevel (some n) (n + 1) (s.childrenBound be cursor bound) := by
  intro i f hi hf hparent
  obtain ⟨f, rfl⟩ := Nat.exists_eq_succ_of_ne_zero (by omega : f ≠ 0)
  have htoNat : (s.descRecord i).parent.toNat = n := by rw [hparent, parentWord_some_toNat (by omega)]
  have hnotTop : (s.descRecord i).parent ≠ 0xFFFFFFFF := fun htop => by
    rw [htop] at htoNat
    simp at htoNat
    omega
  calc
    s.levelBound (f + 1) i = min (s.descRecord n).dataEnd (s.levelBound f n) := by
      rw [State.levelBound_succ, if_neg hnotTop, htoNat]
    _ = min (cursor + 8 + s.u32 be (cursor + 4)) bound := by
      rw [h n f le_rfl (by omega) (hrecord ▸ s.headerRecord_parent be cursor bound parent depth), hrecord,
        s.headerRecord_dataEnd be cursor bound parent depth hheader]
    _ = s.childrenBound be cursor bound := (s.childrenBound_of_enters be cursor bound henters).symm

end

/-! ### One record among all -/

/-- Where a record's chunk stands in the tree: its header, its level, and the records at which its children and its
level end. -/
structure ChunkNode where
  header : Nat
  bound : Nat
  parent : Option Nat
  depth : Nat
  childEnd : Nat
  levelEnd : Nat

/-- Record `i` is the one of the node `x`, and among records `n` to `m - 1` it has no other children and later siblings
than those of the two levels after it. -/
structure State.NodeAt (s : State) (be : Bool) (n m i : Nat) (x : ChunkNode) : Prop where
  room : x.header + 8 ≤ x.bound
  bound_lt : x.bound < 2 ^ 32
  record : s.descRecord i = s.headerRecord be x.header x.bound x.parent x.depth
  children : s.Level be (x.header + 12) (s.childrenBound be x.header x.bound) (some i) (x.depth + 1) (i + 1) x.childEnd
  rest : s.Level be (s.nextSiblingHeader be x.header) x.bound x.parent x.depth x.childEnd x.levelEnd
  levelEnd_le : x.levelEnd ≤ m
  levelBound : ∀ f, i < f → s.levelBound f i = x.bound
  child_mem : ∀ c, n ≤ c → c < m → (s.descRecord c).parent.toNat = i → i < c ∧ c < x.childEnd
  sibling_mem : ∀ c, i < c → c < m → (s.descRecord c).parent = (s.descRecord i).parent →
    x.childEnd ≤ c ∧ c < x.levelEnd

/-- Every record of a level has its node. -/
theorem State.Level.exists_node {s : State} {be : Bool} {cursor bound : Nat} {parent : Option Nat} {depth n m i : Nat}
    (h : s.Level be cursor bound parent depth n m) (hbound : bound < 2 ^ 32) (hm : m < 2 ^ 32)
    (hparent : (parentWord parent).toNat < n ∨ m ≤ (parentWord parent).toNat) (hlevel : s.BoundsLevel parent n bound)
    (hi : n ≤ i) (him : i < m) : ∃ x, s.NodeAt be n m i x := by
  induction h with
  | stop => omega
  | @chunk cursor bound parent depth n k m hroom hrecord hc hr ihc ihr =>
    have hle := s.childrenBound_le_bound be cursor bound
    have hnk := hc.le
    have hkm := hr.le
    have hparent_n : (s.descRecord n).parent = parentWord parent :=
      hrecord ▸ s.headerRecord_parent be cursor bound parent depth
    have htoNat_n := congrArg BitVec.toNat hparent_n
    have hchild : ∀ c, n < c → c < k → n ≤ (s.descRecord c).parent.toNat ∧ (s.descRecord c).parent.toNat < c := by
      intro c hnc hck
      have hmem := hc.parent_mem (by omega) (by omega) hnc hck
      rw [parentWord_some_toNat (by omega)] at hmem
      omega
    have hlater : ∀ c, k ≤ c → c < m → (s.descRecord c).parent.toNat = (parentWord parent).toNat ∨
        (k ≤ (s.descRecord c).parent.toNat ∧ (s.descRecord c).parent.toNat < c) :=
      fun c hkc hcm => hr.parent_mem hbound hm hkc hcm
    rcases Nat.eq_or_lt_of_le hi with rfl | hi
    · refine ⟨⟨cursor, bound, parent, depth, k, m⟩, hroom, hbound, hrecord, hc, hr, le_rfl,
        fun f hf => hlevel n f le_rfl hf hparent_n, fun c hnc hcm hp => ?_, fun c hnc hcm hp => ?_⟩
      · have hlater := hlater c
        show n < c ∧ c < k
        rcases Nat.eq_or_lt_of_le hnc with rfl | hnc <;> omega
      · have htoNat := congrArg BitVec.toNat hp
        have hchild := hchild c hnc
        show k ≤ c ∧ c < m
        omega
    by_cases hik : i < k
    · have henters := hc.enters_of_child hi hik
      obtain ⟨x, hx⟩ := ihc (by omega) (by omega) (by rw [parentWord_some_toNat (by omega)]; omega)
        (hlevel.children hrecord henters (by omega) (by omega)) hi hik
      have hparent_i := hchild i hi hik
      refine ⟨x, { hx with
        levelEnd_le := hx.levelEnd_le.trans hkm
        child_mem := fun c hnc hcm hp => ?_
        sibling_mem := fun c hic hcm hp => ?_ }⟩
      · have hck := hlater c
        exact hx.child_mem c (by rcases Nat.eq_or_lt_of_le hnc with rfl | hnc <;> omega) (by omega) hp
      · have htoNat := congrArg BitVec.toNat hp
        have hck := hlater c
        exact hx.sibling_mem c hic (by omega) hp
    · obtain ⟨x, hx⟩ := ihr hbound hm (by omega) (hlevel.mono (by omega)) (by omega) him
      refine ⟨x, { hx with child_mem := fun c hnc hcm hp => ?_ }⟩
      have hnc' := hchild c
      exact hx.child_mem c (by rcases Nat.eq_or_lt_of_le hnc with rfl | hnc <;> omega) hcm hp

end Sys2Proof.Machine
end

section
/-! PROOF of O27 to O30 (41_chunk_indexer.md R141 to R151): IDX without error leaves the level of the whole container in
DESC, and each statement reads it off that level or off the node of one record. -/

namespace Sys2Proof.Machine

section
variable {s u : State}

theorem State.bytesAt_congr (h : ∀ a, u.bufByte a = s.bufByte a) (a n : Nat) (be : Bool) :
    u.bytesAt a n be = s.bytesAt a n be := by
  simp only [State.bytesAt, h]

/-- IDX without error has indexed a container (R141). -/
theorem execIdx_ok_cases (h : exec .idx s = .next u) (herr : u.err = false) :
    ∃ k rs, s.walkAll (isBigEndianKind k) = .ok rs ∧ u = (s.indexed k rs).completed := by
  rcases execIdx_cases h with ⟨e, -, rfl⟩ | ⟨k, size, e, -, -, rfl⟩ | ⟨k, size, rs, hheader, hrs, -⟩
  · rw [State.raised_err] at herr
    cases herr
  · rw [State.raised_err] at herr
    cases herr
  · have hu := execIdx_of_records (isContainer_of_containerHeader hheader) hrs
    exact ⟨k, rs, hrs, Host.Outcome.next.inj (h.symm.trans hu)⟩

/-- What IDX without error leaves in DESC, in a BUF that it has not changed: the level of the whole container. -/
structure IndexedFrom (s u : State) : Prop where
  level : u.Level (u.idx.kind == 1) 12 u.len none 0 0 u.idx.nDesc.toNat
  len : u.len = s.len
  bufByte : ∀ a, u.bufByte a = s.bufByte a

theorem indexedFrom_of_execIdx (h : exec .idx s = .next u) (herr : u.err = false) : IndexedFrom s u := by
  obtain ⟨k, rs, hrs, rfl⟩ := execIdx_ok_cases h herr
  have hsame : s.SameContainer (s.indexed k rs).completed := ⟨rfl, fun _ _ => rfl, rfl⟩
  have hcount : (s.indexed k rs).completed.idx.nDesc.toNat = 0 + rs.length := by
    have hlength : 8 * rs.length ≤ s.len - 12 := walk_ok_length hrs
    rw [Nat.zero_add]
    exact State.indexed_nDesc (by omega)
  refine ⟨?_, rfl, fun _ => rfl⟩
  rw [hcount, show ((s.indexed k rs).completed.idx.kind == 1) = _ from code_beq_one_eq_isBigEndianKind k]
  refine level_of_walk (by omega) ((hsame.walkAll _).symm.trans hrs) fun i hi => ?_
  rw [Nat.zero_add]
  exact State.indexed_descRecord (k := k) hi

end

namespace IndexedFrom

variable {s u : State} (h : IndexedFrom s u)
include h

theorem tagAt (a : Nat) : u.tagAt a = s.tagAt a :=
  State.bytesAt_congr h.bufByte a 4 false

theorem exists_node {i : Nat} (hi : i < u.idx.nDesc.toNat) :
    ∃ x, u.NodeAt (u.idx.kind == 1) 0 u.idx.nDesc.toNat i x :=
  h.level.exists_node u.len_lt u.idx.nDesc.isLt (.inr (Nat.le_of_lt_succ u.idx.nDesc.isLt)) State.boundsLevel_top
    (Nat.zero_le i) hi

end IndexedFrom

namespace State.NodeAt

section
variable {u : State} {be : Bool} {n m i : Nat} {x : ChunkNode} (h : u.NodeAt be n m i x)
include h

theorem header_lt : x.header + 8 < 2 ^ 32 :=
  h.room.trans_lt h.bound_lt

theorem parent : (u.descRecord i).parent = parentWord x.parent :=
  h.record ▸ u.headerRecord_parent be x.header x.bound x.parent x.depth

theorem start : (u.descRecord i).start.toNat = x.header + 8 :=
  h.record ▸ u.headerRecord_start_toNat be x.header x.bound x.parent x.depth h.header_lt

theorem nextOffset : (u.descRecord i).nextOffset = u.nextSiblingHeader be x.header :=
  h.record ▸ u.headerRecord_nextOffset be x.header x.bound x.parent x.depth h.header_lt

theorem dataEnd : (u.descRecord i).dataEnd = x.header + 8 + u.u32 be (x.header + 4) :=
  h.record ▸ u.headerRecord_dataEnd be x.header x.bound x.parent x.depth h.header_lt

theorem isList : (u.descRecord i).isList = decide (u.tagAt x.header = 0x5453494C) :=
  h.record ▸ u.headerRecord_isList be x.header x.bound x.parent x.depth

theorem fmtValid : (u.descRecord i).fmtValid = u.entersList be x.header x.bound :=
  h.record ▸ u.headerRecord_fmtValid be x.header x.bound x.parent x.depth

/-! #### The next sibling -/

theorem childEnd_le_levelEnd : x.childEnd ≤ x.levelEnd := h.rest.le

/-- Where the level goes on, its next record is the next sibling. -/
theorem nextSibling_childEnd (hlt : x.childEnd < x.levelEnd) : u.NextSibling m i x.childEnd := by
  refine ⟨h.children.le, hlt.trans_le h.levelEnd_le, (h.rest.first_parent hlt).trans h.parent.symm,
    fun k hik hk hp => ?_⟩
  have hmem := h.sibling_mem k hik (by have := h.levelEnd_le; omega) hp
  omega

/-- No other record is. -/
theorem eq_childEnd_of_nextSibling {j : Nat} (hj : u.NextSibling m i j) :
    j = x.childEnd ∧ x.childEnd < x.levelEnd := by
  obtain ⟨hij, hjm, hparent, hnone⟩ := hj
  obtain ⟨hle, hlt⟩ := h.sibling_mem j hij hjm hparent
  have hlevel : x.childEnd < x.levelEnd := hle.trans_lt hlt
  have hfirst := (h.rest.first_parent hlevel).trans h.parent.symm
  exact ⟨(hle.eq_of_not_lt fun hbetween => hnone _ h.children.le hbetween hfirst).symm, hlevel⟩

theorem start_of_nextSibling {j : Nat} (hj : u.NextSibling m i j) :
    (u.descRecord j).start.toNat = (u.descRecord i).nextOffset + 8 := by
  obtain ⟨rfl, hlt⟩ := h.eq_childEnd_of_nextSibling hj
  rw [h.rest.first_start h.bound_lt hlt, h.nextOffset]

theorem bound_lt_of_last (hlast : ∀ j, ¬ u.NextSibling m i j) : x.bound < (u.descRecord i).nextOffset + 8 := by
  have hend : x.childEnd = x.levelEnd :=
    h.childEnd_le_levelEnd.eq_of_not_lt fun hlt => hlast _ (h.nextSibling_childEnd hlt)
  rw [h.nextOffset]
  exact (hend ▸ h.rest).bound_lt_of_empty

/-! #### The children -/

theorem childrenBound_lt : u.childrenBound be x.header x.bound < 2 ^ 32 :=
  (u.childrenBound_le_bound be x.header x.bound).trans_lt h.bound_lt

theorem first_child_start (hlt : i + 1 < x.childEnd) :
    (u.descRecord (i + 1)).start.toNat = (u.descRecord i).start.toNat + 12 := by
  rw [h.children.first_start h.childrenBound_lt hlt, h.start]

theorem first_child_parent (hlt : i + 1 < x.childEnd) (hi : i < 2 ^ 32) : (u.descRecord (i + 1)).parent.toNat = i := by
  rw [h.children.first_parent hlt, parentWord_some_toNat hi]

/-- A LIST has its format tag exactly where the tag lies below the children's bound (R148, R154). -/
theorem fmtValid_iff (hlist : (u.descRecord i).isList = true) :
    (u.descRecord i).fmtValid = true ↔
      (u.descRecord i).start.toNat + 4 ≤ min (u.descRecord i).dataEnd x.bound := by
  have htag : u.bufBytes x.header 4 = tagList :=
    (State.bufBytes_eq_tag_iff rfl).mpr (of_decide_eq_true (h.isList ▸ hlist))
  rw [h.fmtValid, h.start, h.dataEnd, State.entersList, decide_eq_true htag, Bool.true_and, decide_eq_true_iff]

theorem bound_lt_of_childless (hvalid : (u.descRecord i).fmtValid = true) (hnone : x.childEnd ≤ i + 1) :
    min (u.descRecord i).dataEnd x.bound < (u.descRecord i).start.toNat + 12 := by
  have henters : u.entersList be x.header x.bound = true := h.fmtValid ▸ hvalid
  have hend : x.childEnd = i + 1 := Nat.le_antisymm hnone h.children.le
  have hstop := (hend ▸ h.children).bound_lt_of_empty
  rw [u.childrenBound_of_enters be x.header x.bound henters] at hstop
  rw [h.dataEnd, h.start]
  omega

end

end State.NodeAt

/-! ### The statements -/

/-- Settles O27: the record of a header, field by field. -/
theorem idxRecordsMatchHeaders : Obligations.IdxRecordsMatchHeaders := by
  intro s u hexec herr i hi
  have h := indexedFrom_of_execIdx hexec herr
  obtain ⟨header, bound, parent, depth, hlow, hin, hbound, hrecord⟩ := h.level.exists_header (Nat.zero_le i) hi
  have hheader : header + 8 < 2 ^ 32 := (hin.trans hbound).trans_lt u.len_lt
  have hlen := h.len
  simp only [hrecord]
  refine ⟨header, hlow, by omega, u.headerRecord_start_toNat _ header bound parent depth hheader,
    (u.headerRecord_id ..).trans (h.tagAt header), ?_, ?_, ?_, fun hvalid => ?_, fun hvalid => ?_, ?_, ?_⟩
  · rw [u.headerRecord_size, u.u32_eq_bytesAt, State.bytesAt_congr h.bufByte]
  · rw [u.headerRecord_dataEnd _ header bound parent depth hheader, u.headerRecord_size]
  · rw [u.headerRecord_isList, h.tagAt, decide_eq_true_iff]
  · rw [u.headerRecord_fmtValid] at hvalid
    obtain ⟨htag, hroom⟩ := State.entersList_room hvalid
    refine ⟨by rw [u.headerRecord_isList, decide_eq_true htag], by omega, ?_⟩
    rw [u.headerRecord_listFmt, if_pos hvalid, u.tagWord_bufBytes_toNat, h.tagAt]
  · rw [u.headerRecord_fmtValid] at hvalid
    rw [u.headerRecord_listFmt, hvalid]
    rfl
  · rw [u.headerRecord_depth]
    omega
  · rw [u.headerRecord_isList, u.headerRecord_fmtValid, u.headerRecord_depth, u.headerRecord_flags]
    exact descFlags_toNat _ _ depth

/-- Settles O28: the order of the headers, and each record's own level or its enclosing LIST. -/
theorem idxParentBeforeChild : Obligations.IdxParentBeforeChild := by
  intro s u hexec herr
  have h := indexedFrom_of_execIdx hexec herr
  refine ⟨fun i j hij hj => h.level.start_add_eight_le u.len_lt (Nat.zero_le i) hij hj, fun i hi => ?_⟩
  rcases h.level.parent_cases u.len_lt u.idx.nDesc.isLt (Nat.zero_le i) hi with ⟨htop, hdepth⟩ | ⟨-, hlt, henc⟩
  · exact .inl ⟨htop, hdepth⟩
  · exact .inr ⟨hlt, henc.isList, henc.fmtValid, henc.afterTag, henc.within, henc.depth⟩

/-- Settles O29: where the two levels after a record begin. -/
theorem idxNextSiblingAfterPadding : Obligations.IdxNextSiblingAfterPadding := by
  intro s u hexec herr
  have h := indexedFrom_of_execIdx hexec herr
  refine ⟨fun hn => ⟨h.level.first_start u.len_lt hn, h.level.first_parent hn⟩, fun p hp hparent => ?_,
    fun p c hpc hc hparent => ?_, fun i j hij => ?_⟩
  · obtain ⟨x, hx⟩ := h.exists_node (i := p) (by omega)
    exact hx.first_child_start (hx.child_mem (p + 1) (Nat.zero_le _) hp hparent).2
  · obtain ⟨x, hx⟩ := h.exists_node (i := p) (by omega)
    have hmem := hx.child_mem c (Nat.zero_le _) hc hparent
    exact hx.first_child_parent (by omega) (by have := u.idx.nDesc.isLt; omega)
  · obtain ⟨x, hx⟩ := h.exists_node (i := i) (hij.1.trans hij.2.1)
    exact hx.start_of_nextSibling hij

/-- Settles O30: where the two levels after a record end. -/
theorem idxWalksToEveryBound : Obligations.IdxWalksToEveryBound := by
  intro s u hexec herr
  have h := indexedFrom_of_execIdx hexec herr
  refine ⟨fun hn => ?_, fun i hi => ?_, fun i hi hlast => ?_, fun p hp hlist => ?_⟩
  · have hempty : u.Level (u.idx.kind == 1) 12 u.len none 0 0 0 := hn ▸ h.level
    exact h.len ▸ hempty.bound_lt_of_empty
  · obtain ⟨x, hx⟩ := h.exists_node hi
    rw [hx.levelBound _ (Nat.lt_succ_self i), hx.start]
    exact hx.room
  · obtain ⟨x, hx⟩ := h.exists_node hi
    rw [hx.levelBound _ (Nat.lt_succ_self i)]
    exact hx.bound_lt_of_last hlast
  · obtain ⟨x, hx⟩ := h.exists_node hp
    rw [hx.levelBound _ (Nat.lt_succ_self p)]
    refine ⟨hx.fmtValid_iff hlist, fun hvalid hnone => hx.bound_lt_of_childless hvalid ?_⟩
    by_contra hlt
    have hend := hx.childEnd_le_levelEnd
    have hm := hx.levelEnd_le
    exact hnone (p + 1) (by omega) (hx.first_child_parent (by omega) (by have := u.idx.nDesc.isLt; omega))

end Sys2Proof.Machine
end

section
/-! PROOF support for the family of 42_header_builder.md: which shape a code selects, what the width check answers, and
from the two how HDR ends. -/

namespace Sys2Proof.Machine

/-! ### Bit-depth codes (R79, R80) -/

theorem isIntCode_iff {c : Nat} : isIntCode c = true ↔ 8 ≤ c ∧ c ≤ 53 := by simp [isIntCode]

theorem isFloatCode_iff {c : Nat} : isFloatCode c = true ↔ c = 0xA0 ∨ c = 64 := by
  simp [isFloatCode, codeF32, codeF64]

theorem isStandardCode_iff {c : Nat} : isStandardCode c = true ↔ c ∈ [8, 16, 24, 32, 0xA0, 64] := by
  simp [isStandardCode, codeF32, codeF64, or_assoc]

theorem validForHdr_iff {c : Nat} :
    validForHdr c = true ↔ c = 4 ∨ (8 ≤ c ∧ c ≤ 53) ∨ c ∈ [64, 0x81, 0x82, 0xA0] := by
  simp only [validForHdr, validForCvt, Bool.or_eq_true, isIntCode_iff, isFloatCode_iff, beq_iff_eq, codeAdpcm, codeAlaw,
    codeMulaw, List.mem_cons, List.not_mem_nil]
  tauto

/-- The codes that shapes 1 and 2 leave to shapes 3 and 4. -/
def IsPcmCode (c : Nat) : Prop := isIntCode c = true ∨ c = 64 ∨ c = 0xA0

section
variable {c : Nat}

theorem IsPcmCode.validForHdr (h : IsPcmCode c) : validForHdr c = true := by
  rw [IsPcmCode, isIntCode_iff] at h
  simp only [validForHdr_iff, List.mem_cons]
  tauto

theorem IsPcmCode.not_compressed (h : IsPcmCode c) : c ≠ codeAdpcm ∧ c ≠ codeAlaw ∧ c ≠ codeMulaw := by
  rw [IsPcmCode, isIntCode_iff] at h
  simp only [codeAdpcm, codeAlaw, codeMulaw]
  omega

theorem IsPcmCode.codeBits_eq (h : IsPcmCode c) : codeBits c = if c = 0xA0 then 32 else c := by
  obtain ⟨-, halaw, hmulaw⟩ := h.not_compressed
  exact if_neg (not_or.mpr ⟨halaw, hmulaw⟩)

end

/-! ### The shape a code selects (R171) -/

section
variable {depth : Nat} {s : State}

theorem headerFields_cases (depth : Nat) (s : State) :
    (depth = codeAdpcm ∧ headerFields depth s = shapeAdpcm s) ∨
    (depth = codeAlaw ∧ headerFields depth s = shapeCompanded 6 s) ∨
    (depth = codeMulaw ∧ headerFields depth s = shapeCompanded 7 s) ∨
    ((depth ≠ codeAdpcm ∧ depth ≠ codeAlaw ∧ depth ≠ codeMulaw) ∧
      headerFields depth s = if depth ∈ [8, 16, 24, 32, 0xA0, 64] ∧ s.ch.toNat ≤ 2 then shapePlain depth s
        else shapeExtensible depth s) := by
  have hext : (!isStandardCode depth || decide (2 < s.ch.toNat)) = true ↔
      ¬ (depth ∈ [8, 16, 24, 32, 0xA0, 64] ∧ s.ch.toNat ≤ 2) := by
    rw [Bool.or_eq_true, Bool.not_eq_true', ← Bool.not_eq_true, isStandardCode_iff, decide_eq_true_iff, not_and_or,
      not_le]
  by_cases hadpcm : depth = codeAdpcm
  · exact .inl ⟨hadpcm, if_pos hadpcm⟩
  by_cases halaw : depth = codeAlaw
  · exact .inr (.inl ⟨halaw, by rw [headerFields, if_neg hadpcm, if_pos halaw]⟩)
  by_cases hmulaw : depth = codeMulaw
  · exact .inr (.inr (.inl ⟨hmulaw, by rw [headerFields, if_neg hadpcm, if_neg halaw, if_pos hmulaw]⟩))
  refine .inr (.inr (.inr ⟨⟨hadpcm, halaw, hmulaw⟩, ?_⟩))
  simp only [headerFields, if_neg hadpcm, if_neg halaw, if_neg hmulaw, hext, ite_not]

theorem IsPcmCode.headerFields_eq (h : IsPcmCode depth) (s : State) :
    headerFields depth s = if depth ∈ [8, 16, 24, 32, 0xA0, 64] ∧ s.ch.toNat ≤ 2 then shapePlain depth s
      else shapeExtensible depth s := by
  obtain ⟨hadpcm, halaw, hmulaw⟩ := h.not_compressed
  rcases headerFields_cases depth s with ⟨he, -⟩ | ⟨he, -⟩ | ⟨he, -⟩ | ⟨-, heq⟩
  · exact absurd he hadpcm
  · exact absurd he halaw
  · exact absurd he hmulaw
  · exact heq

theorem headerFields_companded (h : depth = 0x81 ∨ depth = 0x82) :
    headerFields depth s = shapeCompanded (if depth = 0x81 then 6 else 7) s := by
  rcases h with rfl | rfl
  · rfl
  · rfl

/-- Every shape but ADPCM's takes byte rate and block align from the registers (R172). -/
theorem headerFields_common (h : depth ≠ codeAdpcm) :
    (headerFields depth s).byteRate = s.ch.toNat * s.bps.toNat * s.rate.toNat ∧
      (headerFields depth s).bAlign = s.ch.toNat * s.bps.toNat := by
  rcases headerFields_cases depth s with ⟨he, -⟩ | ⟨-, heq⟩ | ⟨-, heq⟩ | ⟨-, heq⟩
  · exact absurd he h
  · exact heq ▸ ⟨rfl, rfl⟩
  · exact heq ▸ ⟨rfl, rfl⟩
  · split_ifs at heq
    · exact heq ▸ ⟨rfl, rfl⟩
    · exact heq ▸ ⟨rfl, rfl⟩

theorem headerFields_riff (h : depth ≠ codeAdpcm) :
    (headerFields depth s).riff = (if depth ∈ [0x81, 0x82] then 52
      else if depth ∈ [8, 16, 24, 32, 0xA0, 64] ∧ s.ch.toNat ≤ 2 then 36 else 60) + paddedPayload s := by
  rcases headerFields_cases depth s with ⟨he, -⟩ | ⟨rfl, heq⟩ | ⟨rfl, heq⟩ | ⟨⟨-, halaw, hmulaw⟩, heq⟩
  · exact absurd he h
  · exact heq ▸ rfl
  · exact heq ▸ rfl
  · have hno : depth ∉ [0x81, 0x82] := by
      simp only [List.mem_cons, List.not_mem_nil, or_false, not_or]
      exact ⟨halaw, hmulaw⟩
    rw [heq, if_neg hno]
    split_ifs
    · rfl
    · rfl

theorem paddedPayload_even (s : State) : paddedPayload s % 2 = 0 := by
  unfold paddedPayload
  omega

/-- R177, shape by shape. -/
theorem headerFields_riff_counts_chunks (depth : Nat) (s : State) :
    (headerFields depth s).riff = 4 + (8 + (headerFields depth s).fmtSize) +
      (if (headerFields depth s).fact = true then 8 + 4 else 0) + 8 + paddedPayload s := by
  rcases headerFields_cases depth s with ⟨-, heq⟩ | ⟨-, heq⟩ | ⟨-, heq⟩ | ⟨-, heq⟩
  · exact heq ▸ rfl
  · exact heq ▸ rfl
  · exact heq ▸ rfl
  · split_ifs at heq
    · exact heq ▸ rfl
    · exact heq ▸ rfl

theorem headerFields_riff_even (depth : Nat) (s : State) : (headerFields depth s).riff % 2 = 0 := by
  have hsize := headerFields_riff_counts_chunks depth s
  have hpad := paddedPayload_even s
  obtain ⟨hfmt, -⟩ := headerFields_extension depth s
  simp only [List.mem_cons, List.not_mem_nil, or_false] at hfmt
  split_ifs at hsize <;> omega

end

/-! ### The width check (R178) -/

/-- ADPCM's byte rate is a fixed number (R173). -/
theorem shapeAdpcm_rate_fits (s : State) : (shapeAdpcm s).byteRate < 2 ^ 32 := by
  show 4055 < 2 ^ 32
  decide

/-- ADPCM's block align is a fixed number (R173). -/
theorem shapeAdpcm_align_fits (s : State) : (shapeAdpcm s).bAlign < 2 ^ 16 := by
  show 256 < 2 ^ 16
  decide

/-- Each checked field fits its register. -/
def HeaderFields.Fits (f : HeaderFields) : Prop :=
  f.byteRate < 2 ^ 32 ∧ f.bAlign < 2 ^ 16 ∧ f.riff < 2 ^ 32 ∧ f.factLen < 2 ^ 32

section
variable {f : HeaderFields}

theorem checkWidths_byteRate (h : 2 ^ 32 ≤ f.byteRate) : checkWidths f = .error (overflow 25) := if_pos h

theorem checkWidths_bAlign (hrate : f.byteRate < 2 ^ 32) (h : 2 ^ 16 ≤ f.bAlign) :
    checkWidths f = .error (overflow 26) := by
  rw [checkWidths, if_neg hrate.not_ge, if_pos h]
  rfl

theorem checkWidths_riff (hrate : f.byteRate < 2 ^ 32) (halign : f.bAlign < 2 ^ 16) (h : 2 ^ 32 ≤ f.riff) :
    checkWidths f = .error (overflow 20) := by
  rw [checkWidths, if_neg hrate.not_ge, if_neg halign.not_ge, if_pos h]
  rfl

theorem checkWidths_factLen (hrate : f.byteRate < 2 ^ 32) (halign : f.bAlign < 2 ^ 16) (hriff : f.riff < 2 ^ 32)
    (h : 2 ^ 32 ≤ f.factLen) : checkWidths f = .error (overflow 36) := by
  rw [checkWidths, if_neg hrate.not_ge, if_neg halign.not_ge, if_neg hriff.not_ge, if_pos h]
  rfl

theorem checkWidths_eq_ok_iff : checkWidths f = .ok f ↔ f.Fits := by
  constructor
  · intro hok
    unfold checkWidths at hok
    split_ifs at hok with hrate halign hriff hfact
    exact ⟨not_le.mp hrate, not_le.mp halign, not_le.mp hriff, not_le.mp hfact⟩
  · rintro ⟨hrate, halign, hriff, hfact⟩
    rw [checkWidths, if_neg hrate.not_ge, if_neg halign.not_ge, if_neg hriff.not_ge, if_neg hfact.not_ge]

end

/-! ### How HDR ends -/

section
variable {depth : Nat} {k : ContainerKind} {s : State}

theorem exec_hdr_of_invalid (h : validForHdr depth = false) : exec (.hdr depth k) s = .next (s.failed 4 depth) := by
  obtain ⟨u, hu⟩ := execHdr_next s depth k
  refine hu.trans (congrArg _ ?_)
  rcases execHdr_cases hu with ⟨-, rfl⟩ | ⟨hv, -⟩
  · exact State.raised_eq_failed ..
  · exact absurd hv (by simp [h])

theorem exec_hdr_of_overflow (hv : validForHdr depth = true) {n : Nat}
    (h : checkWidths (headerFields depth s) = .error (overflow n)) :
    exec (.hdr depth k) s = .next (s.failed 5 n) := by
  obtain ⟨u, hu⟩ := execHdr_next s depth k
  refine hu.trans (congrArg _ ?_)
  rcases execHdr_cases hu with ⟨hno, -⟩ | ⟨-, ⟨e, he, rfl⟩ | ⟨hok, -⟩⟩
  · exact absurd hv (by simp [hno])
  · obtain rfl : overflow n = e := Except.error.inj (h.symm.trans he)
    exact State.raised_eq_failed ..
  · cases h.symm.trans hok

theorem exec_hdr_of_fits (hv : validForHdr depth = true) (h : (headerFields depth s).Fits) :
    exec (.hdr depth k) s =
      .next (State.succeeded { s with hdr := headerRegs (headerFields depth s) k s }) := by
  obtain ⟨u, hu⟩ := execHdr_next s depth k
  refine hu.trans (congrArg _ ?_)
  rcases execHdr_cases hu with ⟨hno, -⟩ | ⟨-, ⟨e, he, -⟩ | ⟨-, rfl⟩⟩
  · exact absurd hv (by simp [hno])
  · cases he.symm.trans (checkWidths_eq_ok_iff.mpr h)
  · exact State.completed_eq_succeeded _

end

/-! ### The registers in 32-bit arithmetic -/

theorem ofNat_add_paddedPayload (base : Nat) (s : State) :
    BitVec.ofNat 32 (base + paddedPayload s) = BitVec.ofNat 32 base + s.payLen + s.payLen % 2 := by
  apply BitVec.eq_of_toNat_eq
  simp [paddedPayload, Nat.add_assoc]

theorem ofNat_channelMask (ch : BitVec 16) :
    BitVec.ofNat 32 (channelMask ch.toNat) = if ch = 1 then 4 else if ch = 2 then 3 else if ch = 4 then 0x33
      else if ch = 6 then 0x3F else if ch = 8 then 0x63F else 0 := by
  simp only [channelMask, BitVec.toNat_eq, apply_ite (BitVec.ofNat 32)]
  rfl

theorem ofNat_plainFormat (depth : Nat) :
    BitVec.ofNat 16 (if isFloatCode depth then 3 else 1) =
      if (if depth = 0xA0 then 32 else depth) = 64 ∨ depth = 0xA0 then 3 else 1 := by
  have hiff : isFloatCode depth = true ↔ (if depth = 0xA0 then 32 else depth) = 64 ∨ depth = 0xA0 := by
    rw [isFloatCode_iff]
    split_ifs with h
    · simp [h]
    · exact or_comm
  simp only [hiff, apply_ite (BitVec.ofNat 16)]
  rfl

/-! ### What the registers read back -/

section
variable {f : HeaderFields} (k : ContainerKind) (s : State)

theorem headerRegs_riffSize (h : f.Fits) : (headerRegs f k s).riffSize.toNat = f.riff := by
  obtain ⟨-, -, hriff, -⟩ := h
  exact Nat.mod_eq_of_lt hriff

theorem headerRegs_fact_eq_one_iff : (headerRegs f k s).fact = 1 ↔ f.fact = true := by
  show BitVec.ofBool f.fact = 1 ↔ f.fact = true
  cases f.fact <;> decide

end

/-! ### The statements -/

/-- Settles O36: the code check, then the width check on the fields of the selected shape. -/
theorem hdrErrors : Obligations.HdrErrors := by
  intro depth k s
  refine ⟨fun ⟨hadpcm, hint, hrest⟩ => exec_hdr_of_invalid ?_, fun hcode => ?_, fun hriff => ?_, fun hriff hfact => ?_⟩
  · rw [← Bool.not_eq_true, validForHdr_iff]
    exact not_or.mpr ⟨hadpcm, not_or.mpr ⟨hint, hrest⟩⟩
  · have hv : validForHdr depth = true := validForHdr_iff.mpr (.inr hcode)
    have hadpcm : depth ≠ codeAdpcm := by
      rintro rfl
      exact absurd hcode (by decide)
    obtain ⟨hrate, halign⟩ := headerFields_common (s := s) hadpcm
    refine ⟨fun h => exec_hdr_of_overflow hv (checkWidths_byteRate (hrate ▸ h)),
      fun hr h => exec_hdr_of_overflow hv (checkWidths_bAlign (hrate ▸ hr) (halign ▸ h)),
      fun hr ha h => exec_hdr_of_overflow hv (checkWidths_riff (hrate ▸ hr) (halign ▸ ha) ?_)⟩
    rw [headerFields_riff hadpcm, paddedPayload, ← Nat.add_assoc]
    exact h
  · exact exec_hdr_of_overflow rfl (checkWidths_riff (shapeAdpcm_rate_fits s) (shapeAdpcm_align_fits s)
      (hriff.trans_eq (Nat.add_assoc ..)))
  · exact exec_hdr_of_overflow rfl (checkWidths_factLen (shapeAdpcm_rate_fits s) (shapeAdpcm_align_fits s)
      ((Nat.add_assoc ..).symm.trans_lt hriff) hfact)

/-- Settles O33: the plain and the extensible shape. -/
theorem hdrPcmFields : Obligations.HdrPcmFields := by
  intro depth k s (hcode : IsPcmCode depth) hrate halign
  refine ⟨fun hstd hch hriff => ?_, fun hext hriff => ?_⟩
  · have heq : headerFields depth s = shapePlain depth s := (hcode.headerFields_eq s).trans (if_pos ⟨hstd, hch⟩)
    have hfits : (headerFields depth s).Fits :=
      heq ▸ ⟨hrate, halign, (Nat.add_assoc ..).symm.trans_lt hriff, Nat.two_pow_pos 32⟩
    rw [exec_hdr_of_fits hcode.validForHdr hfits, heq]
    simp only [headerRegs, shapePlain, ofNat_add_paddedPayload, hcode.codeBits_eq, ofNat_plainFormat]
    rfl
  · have heq : headerFields depth s = shapeExtensible depth s :=
      (hcode.headerFields_eq s).trans (if_neg fun ⟨hstd, hch⟩ => hext.elim (absurd hstd) hch.not_gt)
    have hfits : (headerFields depth s).Fits :=
      heq ▸ ⟨hrate, halign, (Nat.add_assoc ..).symm.trans_lt hriff, Nat.two_pow_pos 32⟩
    rw [exec_hdr_of_fits hcode.validForHdr hfits, heq]
    simp only [headerRegs, shapeExtensible, ofNat_add_paddedPayload, hcode.codeBits_eq, ofNat_channelMask]
    rfl

/-- Settles O34: the two shapes with a `fact` chunk. -/
theorem hdrCompressedFields : Obligations.HdrCompressedFields := by
  intro k s
  refine ⟨fun hfact => ?_, fun depth hdepth hrate halign hriff => ?_⟩
  · have hriff : 52 + paddedPayload s < 2 ^ 32 := by
      unfold paddedPayload
      omega
    have heq : headerFields 4 s = shapeAdpcm s := rfl
    have hfits : (headerFields 4 s).Fits := ⟨shapeAdpcm_rate_fits s, shapeAdpcm_align_fits s, hriff, hfact⟩
    have hlen : BitVec.ofNat 32 (2 * s.payLen.toNat) = 2 * s.payLen := by simp [BitVec.ofNat_mul]
    rw [exec_hdr_of_fits rfl hfits, heq]
    simp only [headerRegs, shapeAdpcm, ofNat_add_paddedPayload, hlen]
    rfl
  · have hv : validForHdr depth = true := by rcases hdepth with rfl | rfl <;> rfl
    have heq : headerFields depth s = shapeCompanded (if depth = 0x81 then 6 else 7) s := headerFields_companded hdepth
    have hfits : (headerFields depth s).Fits :=
      heq ▸ ⟨hrate, halign, (Nat.add_assoc ..).symm.trans_lt hriff, s.payLen.isLt⟩
    rw [exec_hdr_of_fits hv hfits, heq]
    simp only [headerRegs, shapeCompanded, ofNat_add_paddedPayload, BitVec.ofNat_toNat, BitVec.setWidth_eq,
      apply_ite (BitVec.ofNat 16)]
    rfl

/-- Settles O35: the size of the selected shape, which the width check has found to fit. -/
theorem hdrSizeCountsChunks : Obligations.HdrSizeCountsChunks := by
  intro depth k s u hexec herr
  rcases execHdr_cases hexec with ⟨-, rfl⟩ | ⟨-, ⟨e, -, rfl⟩ | ⟨hok, rfl⟩⟩
  · exact absurd herr (by simp)
  · exact absurd herr (by simp)
  · have hfits : (headerFields depth s).Fits := checkWidths_eq_ok_iff.mp hok
    simp only [State.completed_hdr, headerRegs_riffSize _ _ hfits, headerRegs_fmtSize, headerRegs_fact_eq_one_iff]
    exact ⟨headerFields_riff_counts_chunks depth s, headerFields_riff_even depth s⟩

end Sys2Proof.Machine
end

section
/-! PROOF of O37, O38 and O43, and support for O42 (43_bitdepth_converter.md R201, R215, R216): how CVT ends, and its
element loop element by element. -/

namespace Sys2Proof.Machine

/-! ### How CVT ends (R83, R54) -/

section
variable {a b : Nat} {s : State}

theorem exec_cvt_of_invalid_from (ha : validForCvt a = false) : exec (.cvt a b) s = .next (s.failed 4 a) := by
  obtain ⟨u, hu⟩ := execCvt_next s a b
  refine hu.trans (congrArg _ ?_)
  rcases execCvt_cases hu with ⟨-, rfl⟩ | ⟨hv, -⟩ | ⟨hv, -⟩ | ⟨hv, -⟩ | ⟨hv, -⟩
  · exact State.raised_eq_failed ..
  all_goals simp [ha] at hv

theorem exec_cvt_of_invalid_to (ha : validForCvt a = true) (hb : validForCvt b = false) :
    exec (.cvt a b) s = .next (s.failed 4 b) := by
  obtain ⟨u, hu⟩ := execCvt_next s a b
  refine hu.trans (congrArg _ ?_)
  rcases execCvt_cases hu with ⟨hv, -⟩ | ⟨-, -, rfl⟩ | ⟨-, hv, -⟩ | ⟨-, hv, -⟩ | ⟨-, hv, -⟩
  case inr.inl => exact State.raised_eq_failed ..
  all_goals simp [ha, hb] at hv

section
variable (ha : validForCvt a = true) (hb : validForCvt b = true)
include ha hb

/-- CVT of valid codes ends in the first check of a range that fails, or as its element loop does. -/
theorem exec_cvt_of_valid : ∃ u, exec (.cvt a b) s = .next u ∧
    ((s.srcOutside s.cnt.toNat ∧ u = s.failed 17 s.src.toNat) ∨
      (¬ s.srcOutside s.cnt.toNat ∧ s.dstOutside s.cnt.toNat ∧ u = s.failed 17 s.dst.toNat) ∨
      (¬ s.srcOutside s.cnt.toNat ∧ ¬ s.dstOutside s.cnt.toNat ∧
        ((∃ e, cvtLoop a b s.cnt.toNat 0 s = .error e ∧
            u = (s.freeCells s.dst.toNat s.cnt.toNat).failed e.kind.code e.info) ∨
          (∃ w, cvtLoop a b s.cnt.toNat 0 s = .ok w ∧ u = (w.setRcnt s.cnt.toNat).succeeded)))) := by
  obtain ⟨u, hu⟩ := execCvt_next s a b
  refine ⟨u, hu, ?_⟩
  rcases execCvt_cases hu with ⟨hv, -⟩ | ⟨-, hv, -⟩ | ⟨-, -, hout, rfl⟩ | ⟨-, -, hin, hout, rfl⟩ |
    ⟨-, -, hsrc, hdst, ⟨e, he, rfl⟩ | ⟨w, hw, rfl⟩⟩
  · simp [ha] at hv
  · simp [hb] at hv
  · exact .inl ⟨hout, State.raised_eq_failed ..⟩
  · exact .inr (.inl ⟨hin, hout, State.raised_eq_failed ..⟩)
  · exact .inr (.inr ⟨hsrc, hdst, .inl ⟨e, he, State.raised_eq_failed ..⟩⟩)
  · exact .inr (.inr ⟨hsrc, hdst, .inr ⟨w, hw, State.completed_eq_succeeded _⟩⟩)

theorem exec_cvt_srcOutside (h : s.srcOutside s.cnt.toNat) : exec (.cvt a b) s = .next (s.failed 17 s.src.toNat) := by
  obtain ⟨u, hu, ⟨-, rfl⟩ | ⟨hin, -⟩ | ⟨hin, -⟩⟩ := exec_cvt_of_valid (s := s) ha hb
  · exact hu
  all_goals exact absurd h hin

theorem exec_cvt_dstOutside (hsrc : ¬ s.srcOutside s.cnt.toNat) (h : s.dstOutside s.cnt.toNat) :
    exec (.cvt a b) s = .next (s.failed 17 s.dst.toNat) := by
  obtain ⟨u, hu, ⟨hout, -⟩ | ⟨-, -, rfl⟩ | ⟨-, hin, -⟩⟩ := exec_cvt_of_valid (s := s) ha hb
  · exact absurd hout hsrc
  · exact hu
  · exact absurd h hin

section
variable (hsrc : s.src.toNat + s.cnt.toNat ≤ s.params.smpSize) (hdst : s.dst.toNat + s.cnt.toNat ≤ s.params.smpSize)
include hsrc hdst

theorem exec_cvt_of_loop_error {e : Error} (h : cvtLoop a b s.cnt.toNat 0 s = .error e) :
    exec (.cvt a b) s = .next ((s.freeCells s.dst.toNat s.cnt.toNat).failed e.kind.code e.info) := by
  obtain ⟨u, hu, ⟨hout, -⟩ | ⟨-, hout, -⟩ | ⟨-, -, ⟨e', he, rfl⟩ | ⟨w, hw, -⟩⟩⟩ :=
    exec_cvt_of_valid (s := s) ha hb
  · exact absurd hout hsrc.not_gt
  · exact absurd hout hdst.not_gt
  · obtain rfl : e = e' := Except.error.inj (h.symm.trans he)
    exact hu
  · cases h.symm.trans hw

theorem exec_cvt_of_loop_ok {w : State} (h : cvtLoop a b s.cnt.toNat 0 s = .ok w) :
    exec (.cvt a b) s = .next (w.setRcnt s.cnt.toNat).succeeded := by
  obtain ⟨u, hu, ⟨hout, -⟩ | ⟨-, hout, -⟩ | ⟨-, -, ⟨e', he, -⟩ | ⟨w', hw, rfl⟩⟩⟩ :=
    exec_cvt_of_valid (s := s) ha hb
  · exact absurd hout hsrc.not_gt
  · exact absurd hout hdst.not_gt
  · cases h.symm.trans he
  · obtain rfl : w = w' := Except.ok.inj (h.symm.trans hw)
    exact hu

end

end

end

/-! ### The element loop, one element more at its end -/

section
variable {a b n i : Nat} {s t u : State} {e : Error}

theorem cvtLoop_succ_of_cell_ok {c : Cell}
    (h : cvtCell a b (Config.freeCvtCell s.serial i) i (s.smpCell (s.src.toNat + i)) = .ok c) :
    cvtLoop a b (n + 1) i s = cvtLoop a b n (i + 1) (s.storeCells (s.dst.toNat + i) [c]) := by
  rw [cvtLoop, h]

theorem cvtLoop_succ_of_cell_error
    (h : cvtCell a b (Config.freeCvtCell s.serial i) i (s.smpCell (s.src.toNat + i)) = .error e) :
    cvtLoop a b (n + 1) i s = .error e := by
  rw [cvtLoop, h]

/-- Elements run after others continue from the state those left. -/
theorem cvtLoop_add_of_ok (h : cvtLoop a b n i s = .ok t) (m : Nat) :
    cvtLoop a b (n + m) i s = cvtLoop a b m (i + n) t := by
  induction n generalizing i s with
  | zero => cases h; rw [Nat.zero_add, Nat.add_zero]
  | succ n ih =>
    rw [Nat.succ_add]
    cases hc : cvtCell a b (Config.freeCvtCell s.serial i) i (s.smpCell (s.src.toNat + i)) with
    | error e => cases (cvtLoop_succ_of_cell_error hc).symm.trans h
    | ok c =>
      rw [cvtLoop_succ_of_cell_ok hc] at h ⊢
      rw [ih h, Nat.add_right_comm, Nat.add_assoc]

theorem cvtLoop_add_of_error (h : cvtLoop a b n i s = .error e) (m : Nat) : cvtLoop a b (n + m) i s = .error e := by
  induction n generalizing i s with
  | zero => cases h
  | succ n ih =>
    rw [Nat.succ_add]
    cases hc : cvtCell a b (Config.freeCvtCell s.serial i) i (s.smpCell (s.src.toNat + i)) with
    | error e' => rwa [cvtLoop_succ_of_cell_error hc] at h ⊢
    | ok c =>
      rw [cvtLoop_succ_of_cell_ok hc] at h ⊢
      exact ih h

/-- After `n` elements only the first `n` cells from DST on can differ. -/
theorem cvtLoop_smpCell_outside (h : cvtLoop a b n 0 s = .ok t) {j : Nat}
    (hj : j < s.dst.toNat ∨ s.dst.toNat + n ≤ j) : t.smpCell j = s.smpCell j := by
  obtain ⟨l, hl, rfl⟩ := cvtLoop_ok h
  rw [State.storeCells_smpCell, dif_neg (by omega)]

/-- One element more converts the cell it finds, and fails or stores as that conversion does. -/
theorem cvtLoop_succ_last (h : cvtLoop a b n 0 s = .ok t) :
    (∀ e, cvtCell a b (Config.freeCvtCell s.serial n) n (t.smpCell (s.src.toNat + n)) = .error e →
      cvtLoop a b (n + 1) 0 s = .error e) ∧
    (∀ c, cvtCell a b (Config.freeCvtCell s.serial n) n (t.smpCell (s.src.toNat + n)) = .ok c →
      cvtLoop a b (n + 1) 0 s = .ok (t.storeCells (s.dst.toNat + n) [c])) := by
  have hadd := cvtLoop_add_of_ok h 1
  rw [Nat.zero_add] at hadd
  obtain ⟨l, -, rfl⟩ := cvtLoop_ok h
  rw [hadd]
  exact ⟨fun e he => cvtLoop_succ_of_cell_error he, fun c hc => (cvtLoop_succ_of_cell_ok hc).trans rfl⟩

/-- The last element of a loop that ends without error. -/
theorem cvtLoop_succ_ok (h : cvtLoop a b (n + 1) 0 s = .ok u) : ∃ t c, cvtLoop a b n 0 s = .ok t ∧
    cvtCell a b (Config.freeCvtCell s.serial n) n (t.smpCell (s.src.toNat + n)) = .ok c ∧
    u = t.storeCells (s.dst.toNat + n) [c] := by
  cases ht : cvtLoop a b n 0 s with
  | error e => cases (cvtLoop_add_of_error ht 1).symm.trans h
  | ok t =>
    obtain ⟨herror, hok⟩ := cvtLoop_succ_last ht
    cases hc : cvtCell a b (Config.freeCvtCell s.serial n) n (t.smpCell (s.src.toNat + n)) with
    | error e => cases (herror e hc).symm.trans h
    | ok c => exact ⟨t, c, rfl, hc, Except.ok.inj (h.symm.trans (hok c hc))⟩

/-- A loop whose every element converts what it finds ends without error. -/
theorem cvtLoop_complete (h : ∀ k < n, ∀ t, cvtLoop a b k 0 s = .ok t →
      ∃ c, cvtCell a b (Config.freeCvtCell s.serial k) k (t.smpCell (s.src.toNat + k)) = .ok c) :
    ∃ u, cvtLoop a b n 0 s = .ok u := by
  induction n with
  | zero => exact ⟨s, rfl⟩
  | succ n ih =>
    obtain ⟨t, ht⟩ := ih fun k hk => h k (hk.trans n.lt_succ_self)
    obtain ⟨c, hc⟩ := h n n.lt_succ_self t ht
    exact ⟨_, (cvtLoop_succ_last ht).2 c hc⟩

theorem State.storeCells_singleton_smpCell_self (s : State) (i : Nat) (c : Cell) : (s.storeCells i [c]).smpCell i = c := by
  rw [State.storeCells_smpCell, dif_pos (by simp)]
  simp

theorem State.storeCells_singleton_smpCell_of_ne (s : State) {i j : Nat} (c : Cell) (h : j ≠ i) :
    (s.storeCells i [c]).smpCell j = s.smpCell j := by
  rw [State.storeCells_smpCell, dif_neg (by simp; omega)]

/-- What the source cell of element `k` holds when its turn comes, in terms of the states before and after the loop: the
result of an earlier element where one was written there (R216). -/
def State.cvtSource (s u : State) (k : Nat) : Cell :=
  if s.dst.toNat ≤ s.src.toNat + k ∧ s.src.toNat + k < s.dst.toNat + k then u.smpCell (s.src.toNat + k)
  else s.smpCell (s.src.toNat + k)

/-- What element `n` finds is what stands there after the `n` elements before it. -/
theorem cvtSource_eq (h : cvtLoop a b n 0 s = .ok t) : s.cvtSource t n = t.smpCell (s.src.toNat + n) := by
  unfold State.cvtSource
  split
  · rfl
  · exact (cvtLoop_smpCell_outside h (by omega)).symm

/-- A later element writes over no result that an earlier element has read. -/
theorem cvtSource_storeCells {k : Nat} (hk : k ≤ n) (c : Cell) :
    s.cvtSource (t.storeCells (s.dst.toNat + n) [c]) k = s.cvtSource t k := by
  unfold State.cvtSource
  split
  · exact t.storeCells_singleton_smpCell_of_ne c (by omega)
  · rfl

/-- Every destination cell is the conversion of what its source cell held when its turn came (R216). -/
theorem cvtLoop_converts (h : cvtLoop a b n 0 s = .ok u) {k : Nat} (hk : k < n) :
    cvtCell a b (Config.freeCvtCell s.serial k) k (s.cvtSource u k) = .ok (u.smpCell (s.dst.toNat + k)) := by
  induction n generalizing u with
  | zero => omega
  | succ n ih =>
    obtain ⟨t, c, ht, hc, rfl⟩ := cvtLoop_succ_ok h
    rw [cvtSource_storeCells (by omega)]
    rcases Nat.lt_succ_iff_lt_or_eq.mp hk with hlt | rfl
    · rw [State.storeCells_singleton_smpCell_of_ne t c (by omega)]
      exact ih ht hlt
    · rw [State.storeCells_singleton_smpCell_self, cvtSource_eq ht]
      exact hc

/-- With no destination cell a later source, every element converts the cell of the start. -/
theorem cvtSource_of_separate (hsep : s.dst.toNat ≤ s.src.toNat ∨ s.src.toNat + n ≤ s.dst.toNat) {k : Nat}
    (hk : k < n) : s.cvtSource u k = s.smpCell (s.src.toNat + k) :=
  if_neg (by omega)

/-- The frame of a CVT that ends without error (R46, R47). -/
theorem cvtLoop_succeeded (h : cvtLoop a b s.cnt.toNat 0 s = .ok u) :
    (u.setRcnt s.cnt.toNat).succeeded = State.succeeded { s with smp := u.smp, rcnt := s.cnt } := by
  obtain ⟨l, -, rfl⟩ := cvtLoop_ok h
  rw [State.setRcnt, BitVec.ofNat_toNat, BitVec.setWidth_eq]
  rfl

/-- An element fails by Overflow or Underflow with its index (R215). -/
theorem cvtCell_error
    (h : cvtCell a b (Config.freeCvtCell s.serial i) i (s.smpCell (s.src.toNat + i)) = .error e) :
    e = overflow i ∨ e = underflow i := by
  obtain ⟨k, hk, he⟩ := cvtLoop_error (cvtLoop_succ_of_cell_error (n := 0) h)
  obtain rfl : k = 0 := by omega
  exact he

end

/-! ### The statements -/

/-- Settles O37: the ways CVT ends, and what its loop leaves where no element reads another's result. -/
theorem cvtConvertsCells : Obligations.CvtConvertsCells := by
  intro a b s
  refine ⟨exec_cvt_of_invalid_from, exec_cvt_of_invalid_to, fun ha hb => ⟨exec_cvt_srcOutside ha hb, fun hsrc =>
    ⟨exec_cvt_dstOutside ha hb hsrc.not_gt, fun hdst hsep c hcells => ?_⟩⟩⟩
  obtain ⟨w, hw⟩ : ∃ w, cvtLoop a b s.cnt.toNat 0 s = .ok w := cvtLoop_complete fun k hk t ht =>
    ⟨c k, by rw [← cvtSource_eq ht, cvtSource_of_separate hsep hk]; exact hcells k hk⟩
  refine ⟨_, exec_cvt_of_loop_ok ha hb hsrc hdst hw, fun i hi => ?_, fun j => cvtLoop_smpCell_outside hw, ?_, ?_⟩
  · have hconv := cvtLoop_converts hw hi
    rw [cvtSource_of_separate hsep hi, hcells i hi] at hconv
    exact (Except.ok.inj hconv).symm
  · rw [cvtLoop_succeeded hw]; rfl
  · rw [cvtLoop_succeeded hw]; rfl

/-- Settles O38: what each element of the loop found and made of it. -/
theorem cvtOverlapFollowsOrder : Obligations.CvtOverlapFollowsOrder := by
  intro a b s u hexec herr i hi
  rcases execCvt_cases hexec with ⟨-, rfl⟩ | ⟨-, -, rfl⟩ | ⟨-, -, -, rfl⟩ | ⟨-, -, -, -, rfl⟩ |
    ⟨-, -, -, -, ⟨e, -, rfl⟩ | ⟨w, hw, rfl⟩⟩
  case inr.inr.inr.inr.inr => exact cvtLoop_converts hw hi
  all_goals exact absurd herr (by simp)

/-- Settles O43: the elements before i convert, and element i finds the cell of the start. -/
theorem cvtCellOverflow : Obligations.CvtCellOverflow := by
  intro a b i s e ha hb hsrc hdst hsep hi hok he
  have hkind := cvtCell_error he
  obtain ⟨t, ht⟩ : ∃ t, cvtLoop a b i 0 s = .ok t := cvtLoop_complete fun k hk t ht => by
    rw [← cvtSource_eq ht, cvtSource_of_separate hsep (hk.trans hi)]
    exact hok k hk
  have hfail : cvtLoop a b s.cnt.toNat 0 s = .error e := by
    rw [← cvtSource_of_separate (u := t) hsep hi, cvtSource_eq ht] at he
    rw [← Nat.add_sub_cancel' hi]
    exact cvtLoop_add_of_error ((cvtLoop_succ_last ht).1 e he) _
  refine ⟨hkind, _, exec_cvt_of_loop_error ha hb hsrc hdst hfail, fun j => s.freeCells_smpCell_outside _ _ j, ?_⟩
  rcases hkind with rfl | rfl
  · rw [if_pos rfl]; rfl
  · rw [if_neg (by simp [overflow, underflow])]; rfl

end Sys2Proof.Machine
end

section
/-! PROOF support for O39 to O42 (00_scope.md R15): binary64 numbers as a sign and a rational magnitude. Rounding is exact
on the magnitudes that have a pattern and never goes past one, and a cell is read back from the number it holds. -/

namespace Sys2Proof.Machine

/-! ### Magnitudes that have a pattern -/

/-- Some finite binary64 pattern has the magnitude. -/
def Representable (r : ℚ) : Prop := ∃ q < binary64.infinity, binary64.magnitude q = r

theorem binary64_proper : binary64.Proper := binary64.proper_of_mem (by decide)

section
variable {f : FloatFormat} (hf : f.Proper) {num den q : Nat} (hden : 0 < den) (hq : q < f.infinity)
  (hle : (num : ℚ) / den ≤ f.magnitude q)
include hf hden hq hle

theorem FloatFormat.Proper.encode_lt_infinity : f.encode num den < f.infinity := by
  obtain ⟨half, hpos, hlast, -⟩ := hf.threshold_midpoint
  have hmono := f.magnitude_strictMono.monotone (Nat.le_sub_one_of_lt hq)
  refine lt_of_le_of_ne (min_le_right ..) fun heq => ?_
  have := (hf.encode_eq_infinity_iff num hden).mp heq
  linarith

/-- A number that is at most some magnitude of the format is not rounded past it. -/
theorem FloatFormat.Proper.encode_le : f.encode num den ≤ q := by
  by_contra! hlt
  have hmag := f.magnitude_strictMono hlt
  have hnear := (hf.encode_nearest hden (hf.encode_lt_infinity hden hq hle) q).1
  rw [abs_of_nonneg (by linarith), abs_of_nonneg (by linarith)] at hnear
  linarith

end

/-- Every multiple `k ≤ 2^53` of a power of two in the range of the exponents has a pattern. -/
theorem representable_mul_two_pow {k e : Nat} (hk : k ≤ 2 ^ 53) (he : e < 2000) :
    Representable (k * 2 ^ (e + 1) / 2 ^ 1075) := by
  obtain ⟨q, hq, hmag⟩ := binary64.exists_magnitude_eq e (k := k) hk
  refine ⟨q, ?_, hmag.trans (mul_div_assoc ..).symm⟩
  have hinf : binary64.infinity = 2047 * 2 ^ 52 := by decide
  have hfrac : binary64.fracBits = 52 := rfl
  rw [hfrac] at hq
  omega

/-- Integers of up to 53 bits scaled by a quotient of two powers of two (R212). -/
theorem representable_mul_div_two_pow {k m n : Nat} (hk : k ≤ 2 ^ 53) (hm : m ≤ 900) (hn : n ≤ 900) :
    Representable (k * 2 ^ m / 2 ^ n) := by
  have hrep := representable_mul_two_pow hk (e := 1074 + m - n) (by omega)
  have hpow : (2 : ℚ) ^ (1074 + m - n + 1) * 2 ^ n = 2 ^ m * 2 ^ 1075 := by
    rw [← pow_add, ← pow_add]
    congr 1
    omega
  have hscale : (k : ℚ) * 2 ^ m / 2 ^ n = k * 2 ^ (1074 + m - n + 1) / 2 ^ 1075 := by
    rw [div_eq_div_iff (by positivity) (by positivity), mul_assoc, mul_assoc, hpow]
  rwa [hscale]

theorem representable_two_pow {n : Nat} (hn : n ≤ 900) : Representable (2 ^ n) := by
  simpa using representable_mul_div_two_pow (k := 1) (n := 0) (by norm_num) hn (by omega)

theorem representable_natCast {k : Nat} (hk : k ≤ 2 ^ 53) : Representable k := by
  simpa using representable_mul_div_two_pow hk (m := 0) (n := 0) (by omega) (by omega)

/-! ### Finite numbers and rounded numbers -/

/-- `x` is finite, with the sign `neg` and the magnitude `m`. -/
def FVal.HasMagnitude (x : FVal) (neg : Bool) (m : ℚ) : Prop :=
  ∃ num den, x = .fin neg num den ∧ 0 < den ∧ (num : ℚ) / den = m

/-- `x` is what the number with the sign `neg` and the magnitude `m` is rounded to. -/
def FVal.Rounds (x : FVal) (neg : Bool) (m : ℚ) : Prop :=
  ∃ num den, x = binary64.round (.fin neg num den) ∧ 0 < den ∧ (num : ℚ) / den = m

theorem FVal.one_hasMagnitude (neg : Bool) : FVal.HasMagnitude (.fin neg 1 1) neg 1 :=
  ⟨1, 1, rfl, one_pos, by norm_num⟩

/-- A finite pattern is the number of its sign and its magnitude. -/
theorem FloatFormat.value_hasMagnitude (f : FloatFormat) (neg : Bool) {q : Nat} (hq : q < f.infinity) :
    (f.value (f.signBit neg + q)).HasMagnitude neg (f.magnitude q) := by
  rw [f.value_signBit_add neg (hq.trans f.infinity_lt), if_pos hq]
  exact ⟨_, _, rfl, Nat.two_pow_pos _, (f.magnitude_eq q).symm⟩

section
variable {x y : FVal} {neg neg' : Bool} {m m' r : ℚ}

/-- A magnitude that has a pattern is rounded to itself. -/
theorem FVal.Rounds.hasMagnitude (h : x.Rounds neg m) (hm : Representable m) : x.HasMagnitude neg m := by
  obtain ⟨num, den, rfl, hden, hquot⟩ := h
  obtain ⟨q, hq, rfl⟩ := hm
  obtain rfl : binary64.encode num den = q := binary64_proper.encode_of_magnitude hden hq hquot.symm
  exact binary64.value_hasMagnitude neg hq

/-- A magnitude is never rounded past one that has a pattern. -/
theorem FVal.Rounds.exists_le (h : x.Rounds neg m) (hr : Representable r) (hle : m ≤ r) :
    ∃ m' ≤ r, x.HasMagnitude neg m' := by
  obtain ⟨num, den, rfl, hden, hquot⟩ := h
  obtain ⟨q, hq, rfl⟩ := hr
  have henc := binary64_proper.encode_le hden hq (hquot.trans_le hle)
  exact ⟨_, binary64.magnitude_strictMono.monotone henc, binary64.value_hasMagnitude neg (henc.trans_lt hq)⟩

theorem FVal.HasMagnitude.nonneg (h : x.HasMagnitude neg m) : 0 ≤ m := by
  obtain ⟨num, den, -, -, rfl⟩ := h
  positivity

theorem FVal.HasMagnitude.isPos_eq (h : x.HasMagnitude neg m) : x.isPos = (!neg && decide (0 < m)) := by
  obtain ⟨num, den, rfl, hden, rfl⟩ := h
  have hpos : (0 : ℚ) < num / den ↔ 0 < num := by
    rw [div_pos_iff_of_pos_right (by exact_mod_cast hden)]
    exact Nat.cast_pos
  simp only [FVal.isPos, hpos]

theorem FVal.HasMagnitude.trunc_eq (h : x.HasMagnitude neg m) :
    x.trunc = some (if neg then -(⌊m⌋₊ : Int) else ⌊m⌋₊) := by
  obtain ⟨num, den, rfl, -, rfl⟩ := h
  rw [Nat.floor_div_eq_div]
  rfl

theorem FVal.HasMagnitude.fmul_rounds (hx : x.HasMagnitude neg m) (hy : y.HasMagnitude neg' m') :
    (fmul x y).Rounds (neg != neg') (m * m') := by
  obtain ⟨a, b, rfl, hb, rfl⟩ := hx
  obtain ⟨c, d, rfl, hd, rfl⟩ := hy
  exact ⟨a * c, b * d, rfl, Nat.mul_pos hb hd, by push_cast; exact (div_mul_div_comm ..).symm⟩

theorem FVal.HasMagnitude.fdiv_rounds (hx : x.HasMagnitude neg m) (hy : y.HasMagnitude neg' m') (hpos : 0 < m') :
    (fdiv x y).Rounds (neg != neg') (m / m') := by
  obtain ⟨a, b, rfl, hb, rfl⟩ := hx
  obtain ⟨c, d, rfl, hd, rfl⟩ := hy
  have hc : 0 < c := by
    refine Nat.pos_of_ne_zero fun h0 => ?_
    simp [h0] at hpos
  exact ⟨a * d, b * c, if_neg hc.ne', Nat.mul_pos hb hc, by push_cast; exact (div_div_div_eq ..).symm⟩

end

theorem intToF64_rounds (i : Int) : (intToF64 i).Rounds (decide (i < 0)) i.natAbs :=
  ⟨i.natAbs, 1, rfl, one_pos, by simp⟩

/-! ### The pattern of 1.0 -/

/-- The pattern of 1.0. -/
def oneBits : Nat := 0x3FF0000000000000

theorem magnitude_oneBits : binary64.magnitude oneBits = 1 := by
  have hmag := binary64.magnitude_of_counts (e := 1022) (k := 2 ^ 52) ⟨.inr le_rfl, by decide⟩
  rw [show 1022 * 2 ^ binary64.fracBits + 2 ^ 52 = oneBits by decide] at hmag
  rw [hmag, FloatFormat.spacing, show binary64.bias + binary64.fracBits = 52 + (1022 + 1) by decide, Nat.cast_pow,
    Nat.cast_ofNat, ← mul_div_assoc, ← pow_add, div_self (by positivity)]

/-- A number of magnitude 1 has the pattern of 1.0 under its sign. -/
theorem pat64_of_magnitude_one (draw : Cell) {x : FVal} {neg : Bool} (h : x.HasMagnitude neg 1) :
    pat64 draw x = if neg then 0xBFF0000000000000 else 0x3FF0000000000000 := by
  obtain ⟨num, den, rfl, hden, hquot⟩ := h
  rw [pat64, FloatFormat.pattern, binary64_proper.encode_of_magnitude hden (q := oneBits) (by decide)
    (magnitude_oneBits.trans hquot.symm)]
  cases neg <;> decide

/-- Rounding to binary32 keeps 1.0 and -1.0 (R208). -/
theorem rne32_one_hasMagnitude (neg : Bool) : (rne32 (.fin neg 1 1)).HasMagnitude neg 1 := by
  have heq : rne32 (.fin neg 1 1) = .fin neg (2 ^ 150) (2 ^ 150) := by cases neg <;> decide
  exact ⟨_, _, heq, Nat.two_pow_pos _, div_self (by exact_mod_cast (Nat.two_pow_pos 150).ne')⟩

/-! ### Cells and their numbers -/

section
variable {cell : Cell} {neg : Bool} {q : Nat} (hcell : cell.toNat = binary64.signBit neg + q)
  (hq : q < 2 ^ (binary64.expBits + binary64.fracBits))
include hcell hq

theorem f64_eq_of_toNat : f64 cell =
    if q < binary64.infinity then .fin neg (binary64.numerator q) (2 ^ (binary64.bias + binary64.fracBits))
    else if q = binary64.infinity then .inf neg else .nan := by
  rw [f64, hcell, binary64.value_signBit_add neg hq]

/-- The sign bit of a cell and the rest of it. -/
theorem cell_fields : cell.toNat % 2 ^ 63 = q ∧ cell.getLsbD 63 = neg := by
  have hsign : cell.toNat.testBit (binary64.expBits + binary64.fracBits) = neg := by
    rw [hcell, binary64.testBit_signBit_add neg hq]
  refine ⟨?_, hsign⟩
  have hlt : q < 2 ^ 63 := hq
  have hbit : binary64.signBit neg % 2 ^ 63 = 0 := by cases neg <;> decide
  omega

end

theorem SameNumber.refl (x : FVal) : SameNumber x x := by
  cases x with
  | nan => trivial
  | inf neg => exact rfl
  | fin neg num den => exact ⟨rfl, rfl⟩

/-- `pat64` of a cell's own number is the cell. -/
theorem pat64_f64 {draw c : Cell} (hnan : f64 c ≠ .nan) : pat64 draw (f64 c) = c := by
  have hden : ∀ neg num den, f64 c = .fin neg num den → 0 < den := fun _ _ _ => binary64.value_den_pos
  rw [pat64, binary64_proper.pattern_of_sameNumber c.isLt hnan hden (SameNumber.refl _), BitVec.ofNat_toNat,
    BitVec.setWidth_eq]

/-- A number that is no NaN is rounded to none. -/
theorem FloatFormat.value_pattern_ne_nan (f : FloatFormat) {x : FVal} (hx : x ≠ .nan) :
    f.value (f.pattern 0 x) ≠ .nan := by
  have hvalue (neg : Bool) {q : Nat} (hq : q ≤ f.infinity) : f.value (f.signBit neg + q) ≠ .nan := by
    rw [f.value_signBit_add neg (hq.trans_lt f.infinity_lt)]
    rcases hq.lt_or_eq with hlt | rfl
    · simp [hlt]
    · simp
  cases x with
  | nan => exact absurd rfl hx
  | inf neg => exact hvalue neg le_rfl
  | fin neg num den => exact hvalue neg (min_le_right ..)

/-- Widening what binary32 rounding gives is exact (R208). -/
theorem sameNumber_pat64_rne32 (draw : Cell) {x : FVal} (hx : x ≠ .nan) :
    SameNumber (f64 (pat64 draw (rne32 x))) (rne32 x) := by
  have hround : rne32 x = binary32.value (binary32.pattern 0 x) := by
    cases x with
    | nan => exact absurd rfl hx
    | inf _ => rfl
    | fin _ _ _ => rfl
  have hwiden := binary32_widensTo.sameNumber 0 (binary32.pattern_lt (nan := 0) hx)
  have hnum := binary32.value_pattern_ne_nan hx
  rw [widen, f64_pat64 _ hnum] at hwiden
  rwa [hround, f64_pat64 _ hnum]

end Sys2Proof.Machine
end

section
/-! PROOF of O39 to O42 (43_bitdepth_converter.md R200 to R209): one element of CVT on each of the four paths, and the
statements about them. -/

namespace Sys2Proof.Machine

/-! ### The bounds of a code (R200) -/

/-- The magnitude of the bound a sample scales by: `MAXV` for a positive one, `MINMAG` for any other. -/
def boundMagnitude (c : Nat) (pos : Bool) : Nat := if pos then 2 ^ (c - 1) - 1 else 2 ^ (c - 1)

section
variable {c : Nat} (hc : isIntCode c = true)
include hc

theorem boundMagnitude_bounds (pos : Bool) : 1 ≤ boundMagnitude c pos ∧ boundMagnitude c pos ≤ 2 ^ 52 := by
  obtain ⟨hlo, hhi⟩ := isIntCode_iff.mp hc
  have hmin : 2 ^ 7 ≤ 2 ^ (c - 1) := Nat.pow_le_pow_right two_pos (by omega)
  have hmax : 2 ^ (c - 1) ≤ 2 ^ 52 := Nat.pow_le_pow_right two_pos (by omega)
  unfold boundMagnitude
  split <;> omega

/-- The two bounds the unit computes are the bound of the sample's sign. -/
theorem cvtBound_eq (v : FVal) : cvtBound c v = if v.isPos then maxVal c else minMag c := by
  obtain ⟨-, hhi⟩ := isIntCode_iff.mp hc
  have hbits : codeBits c = c := by
    unfold codeBits codeAlaw codeMulaw codeF32
    rw [if_neg (by omega), if_neg (by omega)]
  rw [cvtBound, maxVal, minMag, hbits]
  split <;> rfl

theorem cvtBound_hasMagnitude (v : FVal) : (cvtBound c v).HasMagnitude false (boundMagnitude c v.isPos) := by
  obtain ⟨-, hhi⟩ := boundMagnitude_bounds hc v.isPos
  have hint : cvtBound c v = intToF64 (boundMagnitude c v.isPos) := by
    rw [cvtBound, boundMagnitude]
    congr 1
    split
    · rw [Nat.cast_sub Nat.one_le_two_pow]
      norm_num
    · norm_num
  have hround := intToF64_rounds (boundMagnitude c v.isPos)
  rw [← hint, Int.natAbs_natCast, decide_eq_false (by omega)] at hround
  exact hround.hasMagnitude (representable_natCast (by omega))

end

/-! ### The scaling stage (R205 to R207) -/

section
variable {a b : Nat} (v : FVal)

theorem scaleIntInt_eq (ha : isIntCode a = true) (hb : isIntCode b = true) :
    scaleIntInt a b v = (fmul (fdiv v (cvtBound a v)) (cvtBound b v)).trunc := by
  rw [cvtBound_eq ha, cvtBound_eq hb, scaleIntInt]
  split <;> rfl

theorem scaleIntFloat_eq (ha : isIntCode a = true) :
    scaleIntFloat a v = if v.isPos = true ∨ v.isNeg = true then fdiv v (cvtBound a v) else FVal.zero := by
  rw [cvtBound_eq ha, scaleIntFloat]
  cases v.isPos <;> simp

theorem scaleFloatInt_eq (hb : isIntCode b = true) : scaleFloatInt b v = (fmul v (cvtBound b v)).trunc := by
  rw [cvtBound_eq hb, scaleFloatInt]
  split <;> rfl

end

/-! ### The output stage (R209, R215) -/

theorem cvtIntOutput_answers (b i : Nat) (draw : Cell) (r : Int) :
    CvtAnswers (cvtIntOutput b draw i (some r)) b i r := by
  have hoff : r + (if b = 8 then 128 else 0) = if b = 8 then r + 128 else r := by split <;> simp
  unfold CvtAnswers cvtIntOutput
  simp only [hoff]
  generalize (if b = 8 then r + 128 else r) = r'
  refine ⟨fun h => if_pos h, fun h => ?_, fun hlo hhi => ?_⟩
  · rw [if_neg (by omega), if_pos h]
  · rw [if_neg (by omega), if_neg (by omega)]

/-- An integer of the target code's range is stored. -/
theorem CvtAnswers.ok_of_range {answer : Except Error Cell} {b i : Nat} {r : Int} (h : CvtAnswers answer b i r)
    (hlo : -2 ^ 52 ≤ r) (hhi : r ≤ 2 ^ 52) : answer = .ok (BitVec.ofInt 64 (r + if b = 8 then 128 else 0)) := by
  obtain ⟨-, -, hok⟩ := h
  exact hok (by split <;> omega) (by split <;> omega)

/-! ### One element by the path of its codes (R202) -/

section
variable {a b : Nat} (i : Nat) (draw cell : Cell)

theorem isIntCode_eq_false_of_float {c : Nat} (hc : isFloatCode c = true) : isIntCode c = false := by
  rcases isFloatCode_iff.mp hc with rfl | rfl <;> rfl

/-- The sample of an integer cell (R203). -/
def cvtSample (a : Nat) (cell : Cell) : FVal := intToF64 (if a = 8 then cell.toInt - 128 else cell.toInt)

theorem cvtCell_int_int (ha : isIntCode a = true) (hb : isIntCode b = true) : cvtCell a b draw i cell =
    cvtIntOutput b draw i (fmul (fdiv (cvtSample a cell) (cvtBound a (cvtSample a cell)))
      (cvtBound b (cvtSample a cell))).trunc := by
  rw [← scaleIntInt_eq _ ha hb]
  simp [cvtCell, cvtInput, cvtSample, ha, hb]

theorem cvtCell_int_float (ha : isIntCode a = true) (hb : isFloatCode b = true) : cvtCell a b draw i cell =
    .ok (pat64 draw (scaleIntFloat a (cvtSample a cell))) := by
  simp [cvtCell, cvtInput, cvtSample, ha, isIntCode_eq_false_of_float hb]

theorem cvtCell_float_int (ha : isFloatCode a = true) (hb : isIntCode b = true) : cvtCell a b draw i cell =
    cvtIntOutput b draw i (fmul (clampUnit (f64 cell)) (cvtBound b (clampUnit (f64 cell)))).trunc := by
  rw [← scaleFloatInt_eq _ hb]
  simp [cvtCell, cvtInput, isIntCode_eq_false_of_float ha, hb]

theorem cvtCell_float_float (ha : isFloatCode a = true) (hb : isFloatCode b = true) : cvtCell a b draw i cell =
    .ok (pat64 draw (scaleFloatFloat b (clampUnit (f64 cell)))) := by
  simp [cvtCell, cvtInput, isIntCode_eq_false_of_float ha, isIntCode_eq_false_of_float hb]

end

/-! ### int → int (R205, R212) -/

/-- The sample of any cell is finite. -/
theorem cvtSample_hasMagnitude (a : Nat) (cell : Cell) :
    ∃ neg, ∃ m ≤ (2 : ℚ) ^ 64, (cvtSample a cell).HasMagnitude neg m := by
  have hlo := BitVec.le_toInt cell
  have hhi := BitVec.toInt_lt (x := cell)
  have hround := intToF64_rounds (if a = 8 then cell.toInt - 128 else cell.toInt)
  have hle : (if a = 8 then cell.toInt - 128 else cell.toInt).natAbs ≤ 2 ^ 64 := by
    simp only [Nat.add_one_sub_one] at hlo hhi
    split <;> omega
  exact ⟨_, hround.exists_le (representable_two_pow (by omega)) (by exact_mod_cast hle)⟩

theorem exists_trunc_int_int {a b : Nat} (ha : isIntCode a = true) (hb : isIntCode b = true) (cell : Cell) :
    ∃ r, (fmul (fdiv (cvtSample a cell) (cvtBound a (cvtSample a cell))) (cvtBound b (cvtSample a cell))).trunc =
      some r := by
  obtain ⟨neg, m, hm, hsample⟩ := cvtSample_hasMagnitude a cell
  generalize cvtSample a cell = v at hsample ⊢
  obtain ⟨hlo, -⟩ := boundMagnitude_bounds ha v.isPos
  obtain ⟨-, hhi⟩ := boundMagnitude_bounds hb v.isPos
  have hlo' : (1 : ℚ) ≤ boundMagnitude a v.isPos := by exact_mod_cast hlo
  have hhi' : (boundMagnitude b v.isPos : ℚ) ≤ 2 ^ 52 := by exact_mod_cast hhi
  have hquot : m / boundMagnitude a v.isPos ≤ 2 ^ 64 := (div_le_self hsample.nonneg hlo').trans hm
  obtain ⟨m', hm', hdiv⟩ :=
    (hsample.fdiv_rounds (cvtBound_hasMagnitude ha v) (by linarith)).exists_le (representable_two_pow (by omega)) hquot
  have hprod : m' * boundMagnitude b v.isPos ≤ 2 ^ 116 := by
    calc m' * boundMagnitude b v.isPos ≤ 2 ^ 64 * 2 ^ 52 := mul_le_mul hm' hhi' (by positivity) (by positivity)
      _ = 2 ^ 116 := by norm_num
  obtain ⟨_, -, hmul⟩ :=
    (hdiv.fmul_rounds (cvtBound_hasMagnitude hb v)).exists_le (representable_two_pow (by omega)) hprod
  exact ⟨_, hmul.trunc_eq⟩

/-- A sample in range and not above zero is scaled without rounding, and only then truncated (R212). -/
theorem trunc_int_int_of_nonpos {a b k : Nat} (ha : isIntCode a = true) (hb : isIntCode b = true)
    (hk : k ≤ 2 ^ (a - 1)) {v : FVal} (hv : v = intToF64 (-k)) :
    (fmul (fdiv v (cvtBound a v)) (cvtBound b v)).trunc = some (-((k * 2 ^ (b - 1) / 2 ^ (a - 1) : Nat) : Int)) := by
  obtain ⟨-, ha53⟩ := isIntCode_iff.mp ha
  obtain ⟨-, hb53⟩ := isIntCode_iff.mp hb
  have hk53 : k ≤ 2 ^ 53 := hk.trans (Nat.pow_le_pow_right two_pos (by omega))
  have hsample : v.HasMagnitude (decide (-(k : Int) < 0)) k := by
    have hround := intToF64_rounds (-k)
    rw [← hv, Int.natAbs_neg, Int.natAbs_natCast] at hround
    exact hround.hasMagnitude (representable_natCast hk53)
  have hpos : v.isPos = false := by
    rw [hsample.isPos_eq]
    rcases Nat.eq_zero_or_pos k with rfl | h0 <;> simp [*]
  have hboundA := cvtBound_hasMagnitude ha v
  have hboundB := cvtBound_hasMagnitude hb v
  simp only [hpos, boundMagnitude, Bool.false_eq_true, if_false, Nat.cast_pow, Nat.cast_ofNat] at hboundA hboundB
  have hdiv := (hsample.fdiv_rounds hboundA (by positivity)).hasMagnitude
    (by simpa using representable_mul_div_two_pow hk53 (m := 0) (n := a - 1) (by omega) (by omega))
  have hmul := (hdiv.fmul_rounds hboundB).hasMagnitude
    (by simpa [div_mul_eq_mul_div] using
      representable_mul_div_two_pow hk53 (m := b - 1) (n := a - 1) (by omega) (by omega))
  have hfloor : ⌊(k : ℚ) / 2 ^ (a - 1) * 2 ^ (b - 1)⌋₊ = k * 2 ^ (b - 1) / 2 ^ (a - 1) := by
    rw [div_mul_eq_mul_div]
    exact_mod_cast Nat.floor_div_eq_div (K := ℚ) (k * 2 ^ (b - 1)) (2 ^ (a - 1))
  rw [hmul.trunc_eq, hfloor]
  rcases Nat.eq_zero_or_pos k with rfl | h0
  · simp
  · simp [h0]

/-! ### float → int (R204, R207) -/

/-- The clamp leaves a finite number of the interval [-1, 1] (R204). -/
theorem clampUnit_hasMagnitude {cell : Cell} (h : f64 cell ≠ .nan) :
    ∃ neg, ∃ m ≤ (1 : ℚ), (clampUnit (f64 cell)).HasMagnitude neg m := by
  cases hx : f64 cell with
  | nan => exact absurd hx h
  | inf neg => exact ⟨neg, 1, le_rfl, FVal.one_hasMagnitude neg⟩
  | fin neg num den =>
    have hden : 0 < den := binary64.value_den_pos hx
    simp only [clampUnit]
    split
    · exact ⟨neg, 1, le_rfl, FVal.one_hasMagnitude neg⟩
    · next hle =>
      exact ⟨neg, _, div_le_one_of_le₀ (by exact_mod_cast not_lt.mp hle) (by positivity), _, _, rfl, hden, rfl⟩

/-- A number scales into the range of the target code (R207). -/
theorem exists_trunc_float_int {b : Nat} (hb : isIntCode b = true) {cell : Cell} (h : f64 cell ≠ .nan) :
    ∃ r, (fmul (clampUnit (f64 cell)) (cvtBound b (clampUnit (f64 cell)))).trunc = some r ∧
      r ≤ 2 ^ (b - 1) - 1 ∧ -2 ^ (b - 1) ≤ r := by
  obtain ⟨neg, m, hm, hv⟩ := clampUnit_hasMagnitude h
  generalize clampUnit (f64 cell) = v at hv ⊢
  have hpow : (1 : Int) ≤ 2 ^ (b - 1) := one_le_pow₀ (by norm_num)
  have hrounds := hv.fmul_rounds (cvtBound_hasMagnitude hb v)
  rcases hv.nonneg.eq_or_lt with rfl | hpos
  · rw [zero_mul] at hrounds
    have hzero := hrounds.hasMagnitude (by simpa using representable_natCast (k := 0) (by omega))
    exact ⟨0, by simp [hzero.trunc_eq], by omega, by omega⟩
  · obtain ⟨-, hbound⟩ := boundMagnitude_bounds hb v.isPos
    obtain ⟨m', hm', hprod⟩ := hrounds.exists_le (representable_natCast (by omega))
      (mul_le_of_le_one_left (Nat.cast_nonneg _) hm)
    have hfloor : ⌊m'⌋₊ ≤ boundMagnitude b v.isPos := Nat.floor_le_of_le hm'
    have hsign : v.isPos = !neg := by simp [hv.isPos_eq, hpos]
    refine ⟨_, hprod.trunc_eq, ?_⟩
    cases neg with
    | true =>
      have hle : (⌊m'⌋₊ : Int) ≤ 2 ^ (b - 1) := by
        simp only [hsign, boundMagnitude, Bool.not_true, Bool.false_eq_true, if_false] at hfloor
        exact_mod_cast hfloor
      rw [Bool.bne_false, if_pos rfl]
      omega
    | false =>
      have hle : (⌊m'⌋₊ : Int) + 1 ≤ 2 ^ (b - 1) := by
        simp only [hsign, boundMagnitude, Bool.not_false, if_true] at hfloor
        have := Nat.one_le_two_pow (n := b - 1)
        exact_mod_cast (show ⌊m'⌋₊ + 1 ≤ 2 ^ (b - 1) by omega)
      rw [bne_self_eq_false, if_neg Bool.false_ne_true]
      omega

/-- A number in a float cell gives an integer of the target code's range, and no error (R207, R209). -/
theorem cvtCell_float_int_inRange {a b : Nat} (ha : isFloatCode a = true) (hb : isIntCode b = true) (i : Nat)
    (draw : Cell) {cell : Cell} (h : f64 cell ≠ .nan) :
    ∃ r c, cvtCell a b draw i cell = .ok c ∧ c.toInt = r + (if b = 8 then 128 else 0) ∧
      r ≤ 2 ^ (b - 1) - 1 ∧ -2 ^ (b - 1) ≤ r := by
  obtain ⟨r, hr, hhi, hlo⟩ := exists_trunc_float_int hb h
  obtain ⟨-, hb53⟩ := isIntCode_iff.mp hb
  have hpow : (2 : Int) ^ (b - 1) ≤ 2 ^ 52 := pow_le_pow_right₀ (by norm_num) (by omega)
  have hok := (cvtIntOutput_answers b i draw r).ok_of_range (by omega) (by omega)
  rw [← hr, ← cvtCell_float_int i draw cell ha hb] at hok
  exact ⟨r, _, hok, BitVec.toInt_ofInt_eq_self (by decide) (by simp only [Nat.add_one_sub_one]; split <;> omega)
    (by simp only [Nat.add_one_sub_one]; split <;> omega), hhi, hlo⟩

/-- No float cell gives an error, a NaN included: where it has no integer the draw stands for one (R213). -/
theorem exists_cvtCell_of_float {a b : Nat} (ha : isFloatCode a = true) (hb : validForCvt b = true) (i : Nat)
    (draw cell : Cell) : ∃ c, cvtCell a b draw i cell = .ok c := by
  rcases Bool.or_eq_true_iff.mp hb with hint | hfloat
  · by_cases hnan : f64 cell = .nan
    · refine ⟨draw, ?_⟩
      rw [cvtCell_float_int i draw cell ha hint, hnan]
      rfl
    · obtain ⟨-, c, hc, -⟩ := cvtCell_float_int_inRange ha hint i draw hnan
      exact ⟨c, hc⟩
  · exact ⟨_, cvtCell_float_float i draw cell ha hfloat⟩

/-! ### float → float (R204, R208) -/

/-- A finite pattern is past 1.0 exactly when its number is (R204). -/
theorem den_lt_numerator_iff {q : Nat} :
    2 ^ (binary64.bias + binary64.fracBits) < binary64.numerator q ↔ oneBits < q := by
  rw [← binary64.magnitude_strictMono.lt_iff_lt (a := oneBits), magnitude_oneBits, binary64.magnitude_eq,
    one_lt_div (by positivity)]
  exact Nat.cast_lt.symm

section
variable {cell : Cell} {neg : Bool} {q : Nat} (hcell : cell.toNat = binary64.signBit neg + q)
  (hq : q < 2 ^ (binary64.expBits + binary64.fracBits))
include hcell hq

theorem clampUnit_f64_of_le (hle : q ≤ oneBits) : clampUnit (f64 cell) = f64 cell := by
  have hinf : oneBits < binary64.infinity := by decide
  rw [f64_eq_of_toNat hcell hq, if_pos (by omega), clampUnit, if_neg (mt den_lt_numerator_iff.mp hle.not_gt)]

theorem clampUnit_f64_of_gt (hnan : f64 cell ≠ .nan) (hlt : oneBits < q) : clampUnit (f64 cell) = .fin neg 1 1 := by
  rw [f64_eq_of_toNat hcell hq] at hnan ⊢
  split at hnan
  · next hfin => rw [if_pos hfin, clampUnit, if_pos (den_lt_numerator_iff.mpr hlt)]
  · next hfin =>
    split at hnan
    · next heq => rw [if_neg hfin, if_pos heq, clampUnit]
    · exact absurd rfl hnan

end

theorem scaleFloatFloat_f64 (v : FVal) : scaleFloatFloat 64 v = v := if_neg (by decide)

theorem scaleFloatFloat_f32 (v : FVal) : scaleFloatFloat 0xA0 v = rne32 v := if_pos rfl

/-! ### The statements -/

/-- Settles O39: one element on each path with an integer side. -/
theorem cvtScalingFormulas : Obligations.CvtScalingFormulas := by
  intro a b i draw cell
  refine ⟨fun ha hb => ?_, fun ha hb => ?_, fun ha hb hnan => ?_⟩
  · obtain ⟨r, hr⟩ := exists_trunc_int_int ha hb cell
    refine ⟨r, hr, ?_⟩
    rw [cvtCell_int_int i draw cell ha hb, hr]
    exact cvtIntOutput_answers b i draw r
  · rw [cvtCell_int_float i draw cell ha hb, scaleIntFloat_eq _ ha]
    rfl
  · obtain ⟨r, hr, -⟩ := exists_trunc_float_int hb hnan
    refine ⟨r, hr, ?_⟩
    rw [cvtCell_float_int i draw cell ha hb, hr]
    exact cvtIntOutput_answers b i draw r

/-- Settles O40: the scaling is exact, and its integer lies in the range of the target code. -/
theorem cvtNonPositiveScalesExactly : Obligations.CvtNonPositiveScalesExactly := by
  intro a b i k draw cell ha hb hk hcell
  have hsample : cvtSample a cell = intToF64 (-k) := by
    rw [cvtSample, hcell]
    congr 1
    split <;> omega
  have hrange : k * 2 ^ (b - 1) / 2 ^ (a - 1) ≤ 2 ^ 52 := by
    obtain ⟨-, hb53⟩ := isIntCode_iff.mp hb
    have hpow : 2 ^ (b - 1) ≤ 2 ^ 52 := Nat.pow_le_pow_right two_pos (by omega)
    exact (Nat.div_le_of_le_mul (Nat.mul_le_mul_right _ hk)).trans hpow
  rw [cvtCell_int_int i draw cell ha hb, trunc_int_int_of_nonpos ha hb hk hsample]
  generalize k * 2 ^ (b - 1) / 2 ^ (a - 1) = n at hrange ⊢
  rw [(cvtIntOutput_answers b i draw _).ok_of_range (by omega) (by omega), neg_add_eq_sub]

/-- Settles O41: up to the pattern of 1.0 the clamp changes nothing, and past it leaves 1.0 with the cell's sign. -/
theorem cvtFloatClampsAndCopies : Obligations.CvtFloatClampsAndCopies := by
  intro a i draw cell ha hnan
  obtain ⟨neg, q, hcell, hq⟩ := binary64.exists_signBit_add cell.isLt
  obtain ⟨hmod, hsign⟩ := cell_fields hcell hq
  have h64 := cvtCell_float_float i draw cell ha (b := 64) rfl
  have h32 := cvtCell_float_float i draw cell ha (b := 0xA0) rfl
  rw [scaleFloatFloat_f64] at h64
  rw [scaleFloatFloat_f32] at h32
  rw [hmod, hsign]
  refine ⟨fun hle => ?_, fun hlt b hb => ?_⟩
  · rw [clampUnit_f64_of_le hcell hq hle] at h64 h32
    rw [pat64_f64 hnan] at h64
    exact ⟨h64, _, h32, sameNumber_pat64_rne32 draw hnan⟩
  · rw [clampUnit_f64_of_gt hcell hq hnan hlt] at h64 h32
    rw [pat64_of_magnitude_one draw (FVal.one_hasMagnitude neg)] at h64
    rw [pat64_of_magnitude_one draw (rne32_one_hasMagnitude neg)] at h32
    rcases hb with rfl | rfl
    · exact h64
    · exact h32

/-- Settles O42: no element of the loop fails, and each converts the cell of the start where DST is at most SRC. -/
theorem cvtFloatSourceNeverFails : Obligations.CvtFloatSourceNeverFails := by
  intro a b s ha hb hsrc hdst
  have hva : validForCvt a = true := Bool.or_eq_true_iff.mpr (.inr ha)
  obtain ⟨w, hw⟩ : ∃ w, cvtLoop a b s.cnt.toNat 0 s = .ok w :=
    cvtLoop_complete fun k _ t _ => exists_cvtCell_of_float ha hb k _ _
  refine ⟨_, exec_cvt_of_loop_ok hva hb hsrc hdst hw, cvtLoop_succeeded hw, fun j => cvtLoop_smpCell_outside hw,
    fun hint hsep i hi hnan => ?_⟩
  have hconv := cvtLoop_converts hw hi
  rw [cvtSource_of_separate (.inl hsep) hi] at hconv
  obtain ⟨r, c, hc, hval, hhi, hlo⟩ := cvtCell_float_int_inRange ha hint i (Config.freeCvtCell s.serial i) hnan
  obtain rfl : c = w.smpCell (s.dst.toNat + i) := Except.ok.inj (hc.symm.trans hconv)
  have hr : w.smpInt (s.dst.toNat + i) - (if b = 8 then 128 else 0) = r := by
    rw [State.smpInt, hval, add_sub_cancel_right]
  exact hr ▸ ⟨hhi, hlo⟩

end Sys2Proof.Machine
end

section
/-! PROOF of O44, and support for O46, O47 and O50 (44_adpcm.md R235 to R247): the codec step by step, and where
the codes of a pass stand in BUF. -/

namespace Sys2Proof.Machine

/-! ### The codec step by step (R235 to R237) -/

/-- The magnitude bits 2 to 0 of a code (R235). -/
def codeMagnitude (b2 b1 b0 : Bool) : Nat := (if b2 then 4 else 0) + (if b1 then 2 else 0) + (if b0 then 1 else 0)

/-- The code of a sign bit and magnitude bits (R235). -/
def codeOfBits (down b2 b1 b0 : Bool) : Nat := (if down then 8 else 0) + codeMagnitude b2 b1 b0

/-- The bits of a code read back, and the index table repeats for the other sign (R232). -/
theorem codeOfBits_fields (down b2 b1 b0 : Bool) :
    (codeOfBits down b2 b1 b0).testBit 3 = down ∧ (codeOfBits down b2 b1 b0).testBit 2 = b2 ∧
      (codeOfBits down b2 b1 b0).testBit 1 = b1 ∧ (codeOfBits down b2 b1 b0).testBit 0 = b0 ∧
      indexTable.getD (codeOfBits down b2 b1 b0) 0 = indexTable.getD (codeMagnitude b2 b1 b0) 0 := by
  revert down b2 b1 b0
  decide

/-- What `enc` answers, by the four bits it decides (R235). -/
theorem exists_adpcmEnc_eq (a : AdpcmState) (x : Int) : ∃ down b2 b1 b0, adpcmEnc a x =
    (codeOfBits down b2 b1 b0,
      a.move down (a.step >>> 3 + (if b2 then a.step else 0) + (if b1 then a.step >>> 1 else 0) +
        (if b0 then a.step >>> 2 else 0)) (indexTable.getD (codeMagnitude b2 b1 b0) 0)) :=
  ⟨_, _, _, _, rfl⟩

/-- The decoder moves by what the encoder moved by (R235 to R237). -/
theorem adpcmDec_adpcmEnc (a : AdpcmState) (x : Int) : adpcmDec a (adpcmEnc a x).1 = (adpcmEnc a x).2 := by
  obtain ⟨down, b2, b1, b0, heq⟩ := exists_adpcmEnc_eq a x
  obtain ⟨h3, h2, h1, h0, hindex⟩ := codeOfBits_fields down b2 b1 b0
  rw [heq, adpcmDec, reconstruction, h3, h2, h1, h0, hindex]

/-- Settles O44: the decoder makes of the code's four bits what the encoder moved by. -/
theorem adpcmDecoderTracksEncoder : Obligations.AdpcmDecoderTracksEncoder :=
  fun a x => ⟨adpcmEnc_lt a x, adpcmDec_adpcmEnc a x⟩

/-! ### Extents and codes in BUF -/

section
variable (s : State)

/-- An extent in two parts. -/
theorem State.bufBytes_add (a m n : Nat) : s.bufBytes a (m + n) = s.bufBytes a m ++ s.bufBytes (a + m) n := by
  simp [State.bufBytes, List.range_add, Function.comp_def, Nat.add_assoc]

theorem State.bufBytes_take (a m n : Nat) : (s.bufBytes a n).take m = s.bufBytes a (min m n) := by
  rw [State.bufBytes, ← List.map_take, List.take_range, ← State.bufBytes]

theorem State.bufBytes_drop (a : Nat) {m n : Nat} (h : m ≤ n) :
    (s.bufBytes a n).drop m = s.bufBytes (a + m) (n - m) := by
  rw [← Nat.add_sub_cancel' h, s.bufBytes_add, List.drop_left' (s.bufBytes_length a m), Nat.add_sub_cancel_left]

/-- The low nibble of a byte is the earlier code (R243). -/
theorem State.codeAt_zero (a : Nat) : s.codeAt a 0 = (s.bufByte a).toNat &&& 0xF := by
  rw [show (0xF : Nat) = 2 ^ 4 - 1 from rfl, Nat.and_two_pow_sub_one_eq_mod]
  simp [State.codeAt]

/-- The high nibble of a byte is the later code (R243). -/
theorem State.codeAt_one (a : Nat) : s.codeAt a 1 = (s.bufByte a).toNat >>> 4 := by
  have hbyte := (s.bufByte a).isLt
  rw [Nat.shiftRight_eq_div_pow]
  simp only [State.codeAt, Nat.reduceDiv, Nat.add_zero, Nat.reduceMod, pow_one]
  omega

theorem State.codeAt_add_two (a j : Nat) : s.codeAt a (j + 2) = s.codeAt (a + 1) j := by
  rw [State.codeAt, State.codeAt, Nat.add_div_right j (by decide), Nat.add_mod_right, Nat.add_comm (j / 2) 1,
    Nat.add_assoc a]

end

/-! ### The encoder's data bytes (R240, R243, R245) -/

/-- The encoder's state after it has coded `xs` from the state `a` (R235). -/
def encoderRun (a : AdpcmState) (xs : List Int) : AdpcmState := xs.foldl (fun a x => (adpcmEnc a x).2) a

/-- The code at position `j` where `xs` is coded from the state `a`: 0 where there is no sample (R245). -/
def codeOfSample (a : AdpcmState) (xs : List Int) (j : Nat) : Nat :=
  if h : j < xs.length then (adpcmEnc (encoderRun a (xs.take j)) xs[j]).1 else 0

/-- A code is a nibble. -/
theorem codeOfSample_lt (a : AdpcmState) (xs : List Int) (j : Nat) : codeOfSample a xs j < 16 := by
  unfold codeOfSample
  split
  · exact adpcmEnc_lt ..
  · decide

/-- The codes after the first two are those of the samples after the first two. -/
theorem codeOfSample_add_two (a : AdpcmState) (xs : List Int) (j : Nat) :
    codeOfSample a xs (j + 2) = codeOfSample (encoderRun a (xs.take 2)) (xs.drop 2) j := by
  match xs with
  | [] => rfl
  | [x] => simp [codeOfSample]
  | x :: y :: xs => simp [codeOfSample, encoderRun]

/-- One data byte packs the codes of two samples, and the next ones follow from the state after these. -/
theorem encodeData_succ (n : Nat) (xs : List Int) (a : AdpcmState) :
    encodeData (n + 1) xs a =
      (BitVec.ofNat 8 (codeOfSample a xs 0 ||| codeOfSample a xs 1 <<< 4) ::
        (encodeData n (xs.drop 2) (encoderRun a (xs.take 2))).1,
        (encodeData n (xs.drop 2) (encoderRun a (xs.take 2))).2) := by
  match xs with
  | [] => simp [encodeData, codeOfSample, encoderRun]
  | [x] => simp [encodeData, codeOfSample, encoderRun]
  | x :: y :: xs => rfl

/-- With room for every sample the data bytes leave the state of the last one. -/
theorem encodeData_state {n : Nat} {xs : List Int} (a : AdpcmState) (h : xs.length ≤ 2 * n) :
    (encodeData n xs a).2 = encoderRun a xs := by
  induction n generalizing xs a with
  | zero => rw [List.eq_nil_of_length_eq_zero (by omega : xs.length = 0)]; rfl
  | succ n ih =>
    rw [encodeData_succ, ih _ (by rw [List.length_drop]; omega), encoderRun, encoderRun, ← List.foldl_append,
      List.take_append_drop]
    rfl

section
variable {s : State} {base : Nat}

/-- The codes of a byte that packs two. -/
theorem codeAt_of_packedCodes {lo hi : Nat} (hlo : lo < 16) (hhi : hi < 16)
    (h : s.bufByte base = BitVec.ofNat 8 (lo ||| hi <<< 4)) : s.codeAt base 0 = lo ∧ s.codeAt base 1 = hi := by
  have hbyte : (s.bufByte base).toNat = lo + 16 * hi := by
    rw [h, Nat.lor_comm, ← Nat.shiftLeft_add_eq_or_of_lt hlo, Nat.shiftLeft_eq, BitVec.toNat_ofNat]
    omega
  simp only [State.codeAt, Nat.reduceDiv, Nat.add_zero, Nat.reduceMod, pow_zero, pow_one, hbyte]
  omega

/-- Where the data bytes stand in BUF, each position has the code of its sample. -/
theorem codeAt_of_encodeData {n : Nat} {xs : List Int} {a : AdpcmState}
    (h : s.bufBytes base n = (encodeData n xs a).1) {j : Nat} (hj : j < 2 * n) :
    s.codeAt base j = codeOfSample a xs j := by
  induction n generalizing base xs a j with
  | zero => omega
  | succ n ih =>
    rw [State.bufBytes_succ, encodeData_succ] at h
    obtain ⟨hhead, htail⟩ := List.cons.inj h
    obtain ⟨hzero, hone⟩ := codeAt_of_packedCodes (codeOfSample_lt ..) (codeOfSample_lt ..) hhead
    match j with
    | 0 => exact hzero
    | 1 => exact hone
    | j + 2 => rw [s.codeAt_add_two, codeOfSample_add_two, ih htail (by omega)]

end

/-- The run of a block's samples, by the spec's function of the position. -/
theorem encoderState_eq_encoderRun {x : Nat → Int} {xs : List Int} (index : Nat)
    (hx : ∀ k (hk : k < xs.length), xs[k] = x (k + 1)) {j : Nat} (hj : j ≤ xs.length) :
    encoderState index x j = encoderRun { pred := x 0, index := index } (xs.take j) := by
  induction j with
  | zero => rfl
  | succ j ih =>
    rw [encoderState, ih (by omega), List.take_succ_eq_append_getElem hj, encoderRun, encoderRun, List.foldl_append,
      hx j hj]
    rfl

/-! ### The encoder's blocks (R238, R240, R242) -/

/-- The samples of block `b` (R240). -/
def blockSamples (xs : List Int) (b : Nat) : List Int := (xs.drop (505 * b)).take 505

/-- The codec state that block `b` starts with, where the pass starts with `a` (R242). -/
def encoderCarry (a : AdpcmState) (xs : List Int) : Nat → AdpcmState
  | 0 => a
  | b + 1 => (encodeBlock (encoderCarry a xs b) (blockSamples xs b)).2

theorem blockSamples_drop (xs : List Int) (b : Nat) : blockSamples (xs.drop 505) b = blockSamples xs (b + 1) := by
  rw [blockSamples, blockSamples, List.drop_drop, Nat.mul_succ, Nat.add_comm]

theorem encoderCarry_drop (a : AdpcmState) (xs : List Int) (b : Nat) :
    encoderCarry (encodeBlock a (xs.take 505)).2 (xs.drop 505) b = encoderCarry a xs (b + 1) := by
  induction b with
  | zero => rfl
  | succ b ih => rw [encoderCarry, ih, blockSamples_drop, ← encoderCarry]

theorem encodeBlocks_state (n : Nat) (xs : List Int) (a : AdpcmState) :
    (encodeBlocks n xs a).2 = encoderCarry a xs n := by
  induction n generalizing xs a with
  | zero => rfl
  | succ n ih => exact (ih ..).trans (encoderCarry_drop ..)

theorem encoderCarry_inRange {xs : List Int} (hx : ∀ x ∈ xs, IsSample16 x) (b : Nat) :
    (encoderCarry AdpcmState.fresh xs b).InRange :=
  encodeBlocks_state b xs AdpcmState.fresh ▸ encodeBlocks_inRange b AdpcmState.fresh_inRange hx

/-- The block at `base` holds the samples `x 0` to `x (m - 1)`, coded from the index `index` (R238, R240, R243,
R245). -/
structure EncodedBlock (s : State) (base index : Nat) (x : Nat → Int) (m : Nat) : Prop where
  first : (s.bytesAt base 2 false : Int) = x 0 % 2 ^ 16
  stepIndex : (s.bufByte (base + 2)).toNat = index
  zero : s.bufByte (base + 3) = 0
  codes : ∀ j < 504, s.codeAt (base + 4) j =
    if j + 1 < m then (adpcmEnc (encoderState index x j) (x (j + 1))).1 else 0

section
variable {s : State} {base : Nat}

/-- The number of two bytes, low byte first (R58). -/
theorem State.bytesAt_two (s : State) (a : Nat) :
    s.bytesAt a 2 false = (s.bufByte a).toNat + 256 * (s.bufByte (a + 1)).toNat := by
  simp [State.bytesAt, Finset.sum_range_succ, Nat.mul_comm]

/-- The bytes of a pass in BUF are those of its first block, then those of the others (R240). -/
theorem bufBytes_of_encodeBlocks_succ {n : Nat} {xs : List Int} {a : AdpcmState} (hxs : 0 < xs.length)
    (h : s.bufBytes base (256 * (n + 1)) = (encodeBlocks (n + 1) xs a).1) :
    s.bufBytes base 256 = (encodeBlock a (xs.take 505)).1 ∧
      s.bufBytes (base + 256) (256 * n) = (encodeBlocks n (xs.drop 505) (encodeBlock a (xs.take 505)).2).1 := by
  have hne : xs.take 505 ≠ [] := List.ne_nil_of_length_pos (by rw [List.length_take]; omega)
  rw [Nat.mul_succ, Nat.add_comm, State.bufBytes_add] at h
  exact List.append_inj h (by rw [State.bufBytes_length, encodeBlock_length a hne])

/-- Where the blocks of a pass stand in BUF, block `b` stands at its 256 bytes (R238). -/
theorem bufBytes_of_encodeBlocks {n b : Nat} {xs : List Int} {a : AdpcmState}
    (h : s.bufBytes base (256 * n) = (encodeBlocks n xs a).1) (hb : b < n) (hxs : 505 * b < xs.length) :
    s.bufBytes (base + 256 * b) 256 = (encodeBlock (encoderCarry a xs b) (blockSamples xs b)).1 := by
  induction b generalizing base n xs a with
  | zero =>
    obtain ⟨n, rfl⟩ := Nat.exists_eq_succ_of_ne_zero hb.ne'
    exact (bufBytes_of_encodeBlocks_succ hxs h).1
  | succ b ih =>
    obtain ⟨n, rfl⟩ := Nat.exists_eq_succ_of_ne_zero (Nat.ne_zero_of_lt hb)
    have htail := (bufBytes_of_encodeBlocks_succ (by omega) h).2
    have hblock := ih htail (by omega) (by rw [List.length_drop]; omega)
    rwa [encoderCarry_drop, blockSamples_drop, Nat.add_assoc, Nat.add_comm 256, ← Nat.mul_succ] at hblock

/-- Where one block stands in BUF, its header and its codes (R238, R240). -/
theorem encodedBlock_of_encodeBlock {a : AdpcmState} {ys : List Int} {x : Nat → Int} (ha : a.index ≤ 88)
    (hpos : 0 < ys.length) (hx : ∀ k (hk : k < ys.length), ys[k] = x k)
    (h : s.bufBytes base 256 = (encodeBlock a ys).1) : EncodedBlock s base a.index x ys.length := by
  obtain ⟨y, ys, rfl⟩ := List.exists_cons_of_length_pos hpos
  obtain rfl : y = x 0 := hx 0 hpos
  have hparts : s.bufByte base :: s.bufByte (base + 1) :: s.bufByte (base + 2) :: s.bufByte (base + 3) ::
      s.bufBytes (base + 4) 252 = (encodeBlock a (x 0 :: ys)).1 := (s.bufBytes_add base 4 252).symm.trans h
  simp only [encodeBlock, List.cons.injEq] at hparts
  obtain ⟨hlow, hhigh, hindex, hzero, hdata⟩ := hparts
  refine ⟨?_, ?_, hzero, fun j hj => ?_⟩
  · rw [s.bytesAt_two, hlow, hhigh, BitVec.toNat_ofInt, BitVec.toNat_ofInt]
    omega
  · rw [hindex, BitVec.toNat_ofNat]
    omega
  · rw [codeAt_of_encodeData hdata (by omega), codeOfSample]
    split
    · next hlt =>
      have hx' : ∀ k (hk : k < ys.length), ys[k] = x (k + 1) := fun k hk => hx (k + 1) (by simpa using hk)
      rw [if_pos (by simpa using hlt), encoderState_eq_encoderRun _ hx' hlt.le, hx' j hlt]
    · next hge => rw [if_neg (by simpa using hge)]

/-- A block leaves the state of its last sample (R242, R245). -/
theorem encodeBlock_state {a : AdpcmState} {ys : List Int} {x : Nat → Int} (hpos : 0 < ys.length)
    (hle : ys.length ≤ 505) (hx : ∀ k (hk : k < ys.length), ys[k] = x k) :
    (encodeBlock a ys).2 = encoderState a.index x (ys.length - 1) := by
  obtain ⟨y, ys, rfl⟩ := List.exists_cons_of_length_pos hpos
  obtain rfl : y = x 0 := hx 0 hpos
  have hx' : ∀ k (hk : k < ys.length), ys[k] = x (k + 1) := fun k hk => hx (k + 1) (by simpa using hk)
  rw [List.length_cons, Nat.add_sub_cancel, encoderState_eq_encoderRun _ hx' le_rfl, List.take_length]
  exact encodeData_state _ (Nat.le_of_succ_le_succ hle)

end

end Sys2Proof.Machine
end

section
/-! PROOF of O46, O47 and O51 (44_adpcm.md R240 to R247): how ADE ends, the range check of the encoders, and what ADE
leaves. -/

namespace Sys2Proof.Machine

/-! ### How ADE ends (R54, R83, R240) -/

/-- The state from which ADE of the samples `xs` ends without error (R240). -/
def State.adeEncoded (s : State) (xs : List Int) : State :=
  (((s.storeBytes s.off.toNat (encodeBlocks s.adeBlocks xs AdpcmState.fresh).1).setAdpcm
    (encodeBlocks s.adeBlocks xs AdpcmState.fresh).2).setNext (s.off.toNat + 256 * s.adeBlocks)).setRcnt
      (256 * s.adeBlocks)

/-- BUF after ADE is BUF with the blocks stored. -/
theorem State.adeEncoded_bufByte (s : State) (xs : List Int) (a : Nat) :
    (s.adeEncoded xs).completed.bufByte a =
      (s.storeBytes s.off.toNat (encodeBlocks s.adeBlocks xs AdpcmState.fresh).1).bufByte a :=
  State.bufByte_congr (by simp [State.adeEncoded]) (by simp [State.adeEncoded]) a

@[simp] theorem State.adeEncoded_nextOff (s : State) (xs : List Int) :
    (s.adeEncoded xs).completed.nextOff = BitVec.ofNat 32 (s.off.toNat + 256 * s.adeBlocks) := by
  simp [State.adeEncoded]

@[simp] theorem State.adeEncoded_rcnt (s : State) (xs : List Int) :
    (s.adeEncoded xs).completed.rcnt = BitVec.ofNat 32 (256 * s.adeBlocks) := by
  simp [State.adeEncoded]

@[simp] theorem State.adeEncoded_pred (s : State) (xs : List Int) :
    (s.adeEncoded xs).completed.pred = BitVec.ofInt 17 (encodeBlocks s.adeBlocks xs AdpcmState.fresh).2.pred := by
  simp [State.adeEncoded]

@[simp] theorem State.adeEncoded_sidx (s : State) (xs : List Int) :
    (s.adeEncoded xs).completed.sidx = BitVec.ofNat 7 (encodeBlocks s.adeBlocks xs AdpcmState.fresh).2.index := by
  simp [State.adeEncoded]

/-- The frame of an ADE that ends without error (R46, R47). -/
theorem State.adeEncoded_frame (s : State) (xs : List Int) :
    (s.adeEncoded xs).completed = State.succeeded { s with
      buf := (s.adeEncoded xs).completed.buf, nextOff := (s.adeEncoded xs).completed.nextOff
      rcnt := (s.adeEncoded xs).completed.rcnt, pred := (s.adeEncoded xs).completed.pred
      sidx := (s.adeEncoded xs).completed.sidx } := by
  refine (State.completed_eq_succeeded _).trans (congrArg State.succeeded ?_)
  simp [State.adeEncoded, State.storeBytes, State.setAdpcm, State.setNext, State.setRcnt]

section
variable {s u : State} {xs : List Int} {e : Error}

theorem exec_ade_outside (h : s.bufOutside (256 * s.adeBlocks)) :
    exec .ade s = .next (s.freeAdpcm.failed 17 s.off.toNat) :=
  (if_pos h).trans (congrArg Host.Outcome.next (State.raised_eq_failed ..))

section
variable (hin : s.off.toNat + 256 * s.adeBlocks ≤ s.len)
include hin

theorem exec_ade_srcOutside (h : s.srcOutside s.cnt.toNat) : exec .ade s = .next (s.freeAdpcm.failed 17 s.src.toNat) :=
  (if_neg hin.not_gt).trans ((if_pos h).trans (congrArg Host.Outcome.next (State.raised_eq_failed ..)))

variable (hsrc : s.src.toNat + s.cnt.toNat ≤ s.params.smpSize)
include hsrc

theorem exec_ade_of_error (he : s.samples16 = .error e) :
    exec .ade s =
      .next ((s.freeBytes s.off.toNat (256 * s.adeBlocks)).freeAdpcm.failed e.kind.code e.info) := by
  show execAde s = _
  rw [execAde, if_neg hin.not_gt, if_neg hsrc.not_gt, he, ← State.raised_eq_failed]
  rfl

theorem exec_ade_of_ok (hxs : s.samples16 = .ok xs) : exec .ade s = .next (s.adeEncoded xs).completed := by
  show execAde s = _
  rw [execAde, if_neg hin.not_gt, if_neg hsrc.not_gt, hxs]
  rfl

end

/-- ADE ends without error only where its checks passed. -/
theorem exec_ade_ok (h : exec .ade s = .next u) (herr : u.err = false) :
    s.off.toNat + 256 * s.adeBlocks ≤ s.len ∧ s.src.toNat + s.cnt.toNat ≤ s.params.smpSize ∧
      ∃ xs, s.samples16 = .ok xs ∧ u = (s.adeEncoded xs).completed := by
  rcases execAde_cases h with ⟨-, rfl⟩ | ⟨-, -, rfl⟩ | ⟨hin, hsrc, ⟨e, -, rfl⟩ | ⟨xs, hxs, rfl⟩⟩
  case inr.inr.inr => exact ⟨not_lt.mp hin, not_lt.mp hsrc, xs, hxs, rfl⟩
  all_goals exact absurd herr (by simp)

/-! ### The range check of the encoders (R244, R272) -/

theorem checkSample16_of_isSample16 {v : Int} {i : Nat} (h : IsSample16 v) : checkSample16 v i = .ok v :=
  checkSample16_ok.mpr ⟨rfl, h⟩

theorem checkSample16_of_not_isSample16 {v : Int} {i : Nat} (h : ¬ IsSample16 v) :
    checkSample16 v i = .error (if 32767 < v then overflow i else underflow i) := by
  unfold checkSample16
  unfold IsSample16 at h
  split
  · rfl
  · exact if_pos (by omega)

theorem exists_samples16_ok (h : ∀ i, i < s.cnt.toNat → IsSample16 (s.smpInt (s.src.toNat + i))) :
    ∃ xs, s.samples16 = .ok xs :=
  collect_complete fun k hk => ⟨_, by rw [Nat.zero_add]; exact checkSample16_of_isSample16 (h k hk)⟩

theorem samples16_of_first_error {k : Nat} (hk : k < s.cnt.toNat)
    (hok : ∀ j, j < k → IsSample16 (s.smpInt (s.src.toNat + j)))
    (hbad : ¬ IsSample16 (s.smpInt (s.src.toNat + k))) :
    s.samples16 = .error (if 32767 < s.smpInt (s.src.toNat + k) then overflow k else underflow k) :=
  collect_of_first_error hk (fun j hj => ⟨_, checkSample16_of_isSample16 (hok j hj)⟩)
    (checkSample16_of_not_isSample16 hbad)

/-- The code and the info of a sample's range error. -/
theorem failed_of_range_error (w : State) (v : Int) (k : Nat) :
    w.failed (if 32767 < v then overflow k else underflow k).kind.code
      (if 32767 < v then overflow k else underflow k).info = w.failed (if 32767 < v then 5 else 6) k := by
  split <;> rfl

/-- ALE and MUE after a sample outside 16 bits. -/
theorem compress_of_error {enc : Int → Nat} (hin : s.off.toNat + s.cnt.toNat ≤ s.len)
    (hsrc : s.src.toNat + s.cnt.toNat ≤ s.params.smpSize) (he : s.samples16 = .error e) :
    compress enc s = .next ((s.freeBytes s.off.toNat s.cnt.toNat).failed e.kind.code e.info) := by
  rw [compress, if_neg hin.not_gt, if_neg hsrc.not_gt, he, ← State.raised_eq_failed]
  rfl

end

/-- Settles O51: the loop of each of the three encoders ends in the error of sample k. -/
theorem encoderRangeErrors : Obligations.EncoderRangeErrors := by
  intro i s k hi hin hsrc hk hok hbad
  have hsamples := samples16_of_first_error hk hok hbad
  have hcompress (enc : Int → Nat) (hin : s.off.toNat + s.cnt.toNat ≤ s.len) :=
    (compress_of_error (enc := enc) hin hsrc hsamples).trans (congrArg _ (failed_of_range_error ..))
  rcases hi with rfl | rfl | rfl
  · exact ⟨_, (exec_ade_of_error hin hsrc hsamples).trans (congrArg _ (failed_of_range_error ..)),
      fun a => s.freeBytes_bufByte_outside _ _ a, fun h => absurd rfl h, rfl⟩
  · exact ⟨_, hcompress alawEnc hin, fun a => s.freeBytes_bufByte_outside _ _ a, fun _ => ⟨rfl, rfl⟩, rfl⟩
  · exact ⟨_, hcompress mulawEnc hin, fun a => s.freeBytes_bufByte_outside _ _ a, fun _ => ⟨rfl, rfl⟩, rfl⟩

/-! ### What ADE leaves (R240, R242, R247) -/

/-- PRED and SIDX show a codec state in range (R39). -/
theorem AdpcmState.InRange.registers {a : AdpcmState} (ha : a.InRange) :
    (BitVec.ofInt 17 a.pred).toInt = a.pred ∧ (BitVec.ofNat 7 a.index).toNat = a.index := by
  obtain ⟨hlo, hhi, hindex⟩ := ha
  rw [BitVec.toInt_ofInt, BitVec.toNat_ofNat]
  exact ⟨Int.bmod_eq_of_le (by omega) (by omega), by omega⟩

section
variable {s : State} {xs : List Int} (hxs : s.samples16 = .ok xs)
include hxs

theorem isSample16_of_samples16 : ∀ x ∈ xs, IsSample16 x := by
  intro x hx
  obtain ⟨k, hk, rfl⟩ := List.mem_iff_getElem.mp hx
  exact ((samples16_ok hxs).2 k hk).2

/-- The samples of block `b` are the cells from SRC + 505 × b on. -/
theorem blockSamples_of_samples16 (b : Nat) :
    (blockSamples xs b).length = min 505 (s.cnt.toNat - 505 * b) ∧
      ∀ k (hk : k < (blockSamples xs b).length),
        (blockSamples xs b)[k] = s.smpInt (s.src.toNat + 505 * b + k) := by
  obtain ⟨hlen, hget⟩ := samples16_ok hxs
  refine ⟨by rw [blockSamples, List.length_take, List.length_drop, hlen], fun k hk => ?_⟩
  simp only [blockSamples, List.getElem_take, List.getElem_drop]
  rw [(hget _ _).1, Nat.add_assoc]

theorem encodeBlocks_length_of_samples16 :
    (encodeBlocks s.adeBlocks xs AdpcmState.fresh).1.length = 256 * s.adeBlocks := by
  unfold State.adeBlocks
  rw [← (samples16_ok hxs).1]
  exact encodeBlocks_length xs AdpcmState.fresh

/-- The index that block `b` starts with. -/
theorem encoderCarry_index_le (b : Nat) : (encoderCarry AdpcmState.fresh xs b).index ≤ 88 :=
  (encoderCarry_inRange (isSample16_of_samples16 hxs) b).2.2

section
variable {b : Nat} (hb : 505 * b < s.cnt.toNat)
include hb

/-- Block `b` after ADE. -/
theorem adeEncoded_block :
    EncodedBlock (s.adeEncoded xs).completed (s.off.toNat + 256 * b) (encoderCarry AdpcmState.fresh xs b).index
      (fun k => s.smpInt (s.src.toNat + 505 * b + k)) (min 505 (s.cnt.toNat - 505 * b)) := by
  obtain ⟨hlen, hget⟩ := blockSamples_of_samples16 hxs b
  have hstored : (s.adeEncoded xs).completed.bufBytes s.off.toNat (256 * s.adeBlocks) =
      (encodeBlocks s.adeBlocks xs AdpcmState.fresh).1 := by
    rw [State.bufBytes_congr (s.adeEncoded_bufByte xs)]
    exact s.storeBytes_bufBytes_self s.off.toNat (encodeBlocks_length_of_samples16 hxs)
  have hbytes := bufBytes_of_encodeBlocks (b := b) hstored (by unfold State.adeBlocks; omega)
    (by rw [(samples16_ok hxs).1]; exact hb)
  rw [← hlen]
  exact encodedBlock_of_encodeBlock (encoderCarry_index_le hxs b) (by omega) hget hbytes

/-- The state that block `b` ends with. -/
theorem encoderCarry_succ :
    encoderCarry AdpcmState.fresh xs (b + 1) =
      encoderState (encoderCarry AdpcmState.fresh xs b).index (fun k => s.smpInt (s.src.toNat + 505 * b + k))
        (min 505 (s.cnt.toNat - 505 * b) - 1) := by
  obtain ⟨hlen, hget⟩ := blockSamples_of_samples16 hxs b
  rw [encoderCarry, encodeBlock_state (by omega) (by omega) hget, hlen]

end

/-- The registers after ADE show the state the last block ended with (R39, R40). -/
theorem adeEncoded_adpcm :
    (s.adeEncoded xs).completed.pred.toInt = (encoderCarry AdpcmState.fresh xs s.adeBlocks).pred ∧
      (s.adeEncoded xs).completed.sidx.toNat = (encoderCarry AdpcmState.fresh xs s.adeBlocks).index := by
  rw [State.adeEncoded_pred, State.adeEncoded_sidx, encodeBlocks_state]
  exact (encoderCarry_inRange (isSample16_of_samples16 hxs) s.adeBlocks).registers

theorem adeEncoded_bufByte_outside {a : Nat} (ha : a < s.off.toNat ∨ s.off.toNat + 256 * s.adeBlocks ≤ a) :
    (s.adeEncoded xs).completed.bufByte a = s.bufByte a := by
  rw [s.adeEncoded_bufByte, State.storeBytes_bufByte, dif_neg]
  rw [encodeBlocks_length_of_samples16 hxs]
  omega

end

/-- Without a sample ADE leaves the state it starts from (R241). -/
theorem adeEncoded_of_cnt_eq_zero {s : State} (xs : List Int) (h : s.cnt = 0) :
    (s.adeEncoded xs).completed.pred = 0 ∧ (s.adeEncoded xs).completed.sidx = 0 := by
  have hblocks : s.adeBlocks = 0 := by rw [State.adeBlocks, h]; rfl
  rw [State.adeEncoded_pred, State.adeEncoded_sidx, hblocks]
  exact ⟨rfl, rfl⟩

/-- Settles O46: the ways ADE ends, and the header of each block it stored. -/
theorem adeEncodesBlocks : Obligations.AdeEncodesBlocks := by
  intro s
  refine ⟨fun hout => ⟨_, exec_ade_outside hout, rfl⟩, fun hin hout => ⟨_, exec_ade_srcOutside hin hout, rfl⟩,
    fun hin hsrc hsamples => ?_⟩
  obtain ⟨xs, hxs⟩ := exists_samples16_ok hsamples
  refine ⟨_, exec_ade_of_ok hin hsrc hxs, fun b hb => ?_, fun a ha => adeEncoded_bufByte_outside hxs ha, ?_, ?_,
    adeEncoded_of_cnt_eq_zero xs, s.adeEncoded_frame xs⟩
  case refine_2 => rw [State.adeEncoded_nextOff]; exact toNat_ofNat_of_le_len hin
  case refine_3 => rw [State.adeEncoded_rcnt]; exact toNat_ofNat_of_le_len ((Nat.le_add_left ..).trans hin)
  have hblock := adeEncoded_block hxs (b := b) (by omega)
  refine ⟨hblock.first, hblock.zero, ?_⟩
  rintro rfl
  exact BitVec.eq_of_toNat_eq hblock.stepIndex

/-- Settles O47: the codes of block b, and the state it hands to the next block or to the registers. -/
theorem adeCodesFollowEnc : Obligations.AdeCodesFollowEnc := by
  intro s u b hexec herr hb
  obtain ⟨hin, hsrc, xs, hxs, rfl⟩ := exec_ade_ok hexec herr
  have hblock := adeEncoded_block hxs hb
  have hcarry := encoderCarry_succ hxs hb
  rw [← hblock.stepIndex] at hcarry
  refine ⟨fun j hj => ?_, fun hnext => ?_, fun hlast => ?_⟩
  · rw [hblock.codes j hj, hblock.stepIndex]
    exact if_congr (by omega) rfl rfl
  · have hindex := (adeEncoded_block hxs hnext).stepIndex
    rwa [hcarry, Nat.min_eq_left (by omega), Nat.mul_succ, ← Nat.add_assoc] at hindex
  · have hblocks : s.adeBlocks = b + 1 := by unfold State.adeBlocks; omega
    rw [Nat.min_eq_right (by omega), ← hblocks] at hcarry
    rw [← hcarry]
    exact adeEncoded_adpcm hxs

end Sys2Proof.Machine
end

section
/-! PROOF of O48 to O50 (44_adpcm.md R250 to R255): the samples of a pass of the decoder, how ADD ends, and the round
trip. -/

namespace Sys2Proof.Machine

/-! ### Where nothing is decoded, and the range of what is (R252, R253) -/

theorem decodeBlock_of_short {bytes : List Byte} (h : bytes.length < 4) (a : AdpcmState) :
    decodeBlock bytes a = ([], a) := by
  match bytes with
  | [] => rfl
  | [_] => rfl
  | [_, _] => rfl
  | [_, _, _] => rfl
  | _ :: _ :: _ :: _ :: _ => simp at h; omega

theorem decodeBlocks_of_short {bytes : List Byte} (h : bytes.length < 4) (ba n : Nat) (a : AdpcmState) :
    decodeBlocks ba n bytes a = ([], a) := by
  induction n generalizing bytes with
  | zero => rfl
  | succ n ih =>
    rw [decodeBlocks, decodeBlock_of_short (by rw [List.length_take]; omega),
      ih (by rw [List.length_drop]; omega)]
    rfl

theorem AdpcmState.InRange.isSample16 {a : AdpcmState} (h : a.InRange) : IsSample16 a.pred := ⟨h.1, h.2.1⟩

theorem decodeData_isSample16 (ys : List Byte) (a : AdpcmState) : ∀ x ∈ (decodeData ys a).1, IsSample16 x := by
  induction ys generalizing a with
  | nil => simp [decodeData]
  | cons y ys ih =>
    intro x hx
    rcases List.mem_cons.mp hx with rfl | hx
    · exact (adpcmDec_inRange _ _).isSample16
    · rcases List.mem_cons.mp hx with rfl | hx
      · exact (adpcmDec_inRange _ _).isSample16
      · exact ih _ x hx

theorem isSample16_toInt (v : BitVec 16) : IsSample16 v.toInt := by
  have hlo := BitVec.le_toInt v
  have hhi := Int.le_sub_one_of_lt (BitVec.toInt_lt (x := v))
  exact ⟨hlo, hhi⟩

theorem decodeBlock_isSample16 (bytes : List Byte) (a : AdpcmState) :
    ∀ x ∈ (decodeBlock bytes a).1, IsSample16 x := by
  rcases Nat.lt_or_ge bytes.length 4 with hshort | hlong
  · simp [decodeBlock_of_short hshort]
  · match bytes with
    | h0 :: h1 :: h2 :: h3 :: data =>
      intro x hx
      rcases List.mem_cons.mp hx with rfl | hx
      · exact isSample16_toInt _
      · exact decodeData_isSample16 data _ x hx

theorem decodeBlocks_isSample16 (ba n : Nat) (bytes : List Byte) (a : AdpcmState) :
    ∀ x ∈ (decodeBlocks ba n bytes a).1, IsSample16 x := by
  induction n generalizing bytes a with
  | zero => simp [decodeBlocks]
  | succ n ih =>
    intro x hx
    rcases List.mem_append.mp hx with hx | hx
    · exact decodeBlock_isSample16 _ _ x hx
    · exact ih _ _ x hx

/-! ### One block of the decoder (R243, R251, R252) -/

/-- The state a block's header gives: its first sample, and its index clamped to 88 (R252). -/
def State.blockSeed (s : State) (base : Nat) : AdpcmState :=
  { pred := if s.bytesAt base 2 false < 2 ^ 15 then (s.bytesAt base 2 false : Int)
      else (s.bytesAt base 2 false : Int) - 2 ^ 16
    index := min (s.bufByte (base + 2)).toNat 88 }

section
variable (s : State)

/-- After a byte's two codes the decoder goes on from the next byte. -/
theorem State.decoderState_add_two (a : Nat) (seed : AdpcmState) (j : Nat) :
    s.decoderState a seed (j + 2) = s.decoderState (a + 1) (s.decoderState a seed 2) j := by
  induction j with
  | zero => rfl
  | succ j ih =>
    calc s.decoderState a seed (j + 2 + 1)
        = adpcmDec (s.decoderState a seed (j + 2)) (s.codeAt a (j + 2)) := rfl
      _ = s.decoderState (a + 1) (s.decoderState a seed 2) (j + 1) := by rw [ih, s.codeAt_add_two]; rfl

theorem State.decodeData_succ (a n : Nat) (seed : AdpcmState) :
    decodeData (s.bufBytes a (n + 1)) seed =
      ((s.decoderState a seed 1).pred :: (s.decoderState a seed 2).pred ::
        (decodeData (s.bufBytes (a + 1) n) (s.decoderState a seed 2)).1,
        (decodeData (s.bufBytes (a + 1) n) (s.decoderState a seed 2)).2) := by
  simp only [State.bufBytes_succ, decodeData, State.decoderState, s.codeAt_zero, s.codeAt_one]

theorem State.decodeData_state (a n : Nat) (seed : AdpcmState) :
    (decodeData (s.bufBytes a n) seed).2 = s.decoderState a seed (2 * n) := by
  induction n generalizing a seed with
  | zero => rfl
  | succ n ih => exact (congrArg Prod.snd (s.decodeData_succ ..)).trans ((ih ..).trans (s.decoderState_add_two ..).symm)

theorem State.decodeData_getElem? {n j : Nat} (hj : j < 2 * n) (a : Nat) (seed : AdpcmState) :
    (decodeData (s.bufBytes a n) seed).1[j]? = some (s.decoderState a seed (j + 1)).pred := by
  induction n generalizing a seed j with
  | zero => omega
  | succ n ih =>
    rw [s.decodeData_succ]
    match j with
    | 0 => rfl
    | 1 => rfl
    | j + 2 => exact (ih (by omega) ..).trans (by rw [← s.decoderState_add_two])

/-- The 16-bit value of a header (R252). -/
theorem State.toInt_header (base : Nat) :
    (s.bufByte (base + 1) ++ s.bufByte base).toInt = (s.blockSeed base).pred := by
  have hlow := (s.bufByte base).isLt
  have hhigh := (s.bufByte (base + 1)).isLt
  have hnat : (s.bufByte (base + 1) ++ s.bufByte base).toNat = s.bytesAt base 2 false := by
    rw [append_toNat, s.bytesAt_two]
    omega
  rw [BitVec.toInt_eq_toNat_cond, hnat, State.blockSeed]
  exact if_congr (by omega) rfl rfl

section
variable {s}

theorem State.decodeBlock_bufBytes (base n : Nat) (a : AdpcmState) :
    decodeBlock (s.bufBytes base (4 + n)) a =
      ((s.blockSeed base).pred :: (decodeData (s.bufBytes (base + 4) n) (s.blockSeed base)).1,
        (decodeData (s.bufBytes (base + 4) n) (s.blockSeed base)).2) := by
  have hseed : ({ pred := (s.bufByte (base + 1) ++ s.bufByte base).toInt
                  index := min (s.bufByte (base + 2)).toNat 88 } : AdpcmState) = s.blockSeed base := by
    rw [s.toInt_header]; rfl
  rw [s.bufBytes_add, ← hseed]
  rfl

theorem State.decodeBlock_state {base n : Nat} (hn : 4 ≤ n) (a : AdpcmState) :
    (decodeBlock (s.bufBytes base n) a).2 = s.decoderState (base + 4) (s.blockSeed base) (2 * (n - 4)) := by
  obtain ⟨n, rfl⟩ := Nat.exists_eq_add_of_le hn
  rw [s.decodeBlock_bufBytes, s.decodeData_state, Nat.add_sub_cancel_left]

theorem State.decodeBlock_getElem? {base n j : Nat} (hn : 4 ≤ n) (hj : j ≤ 2 * (n - 4)) (a : AdpcmState) :
    (decodeBlock (s.bufBytes base n) a).1[j]? =
      some (s.decoderState (base + 4) (s.blockSeed base) j).pred := by
  obtain ⟨n, rfl⟩ := Nat.exists_eq_add_of_le hn
  rw [s.decodeBlock_bufBytes]
  match j with
  | 0 => rfl
  | j + 1 => exact s.decodeData_getElem? (by omega) ..

/-! ### The decoder's blocks (R250, R251, R253) -/

/-- A pass is its first block, then the others from the state it leaves. -/
theorem State.decodeBlocks_succ (ba n base count : Nat) (a : AdpcmState) :
    decodeBlocks ba (n + 1) (s.bufBytes base count) a =
      ((decodeBlock (s.bufBytes base (min ba count)) a).1 ++ (decodeBlocks ba n
          ((s.bufBytes base count).drop ba) (decodeBlock (s.bufBytes base (min ba count)) a).2).1,
        (decodeBlocks ba n
          ((s.bufBytes base count).drop ba) (decodeBlock (s.bufBytes base (min ba count)) a).2).2) := by
  rw [decodeBlocks, s.bufBytes_take]

theorem State.decodeBlocks_succ_of_full {ba base count : Nat} (h : ba ≤ count) (n : Nat) (a : AdpcmState) :
    decodeBlocks ba (n + 1) (s.bufBytes base count) a =
      ((decodeBlock (s.bufBytes base ba) a).1 ++
        (decodeBlocks ba n (s.bufBytes (base + ba) (count - ba)) (decodeBlock (s.bufBytes base ba) a).2).1,
        (decodeBlocks ba n (s.bufBytes (base + ba) (count - ba)) (decodeBlock (s.bufBytes base ba) a).2).2) := by
  rw [s.decodeBlocks_succ, Nat.min_eq_left h, s.bufBytes_drop base h]

/-- Block `b` after the first block is block `b + 1`. -/
theorem next_block_offset (base count ba b : Nat) :
    base + ba + b * ba = base + (b + 1) * ba ∧ count - ba - b * ba = count - (b + 1) * ba := by
  rw [Nat.succ_mul]
  omega

/-- The samples of block `b` stand where those of the full blocks before it end. -/
theorem State.decodeBlocks_getElem? {ba n b base count j : Nat} (hba : 4 ≤ ba) (hb : b < n)
    (hsize : b * ba + 4 ≤ count) (hj : j ≤ 2 * (min ba (count - b * ba) - 4)) (a : AdpcmState) :
    (decodeBlocks ba n (s.bufBytes base count) a).1[b * (1 + 2 * (ba - 4)) + j]? =
      some (s.decoderState (base + b * ba + 4) (s.blockSeed (base + b * ba)) j).pred := by
  obtain ⟨n, rfl⟩ := Nat.exists_eq_succ_of_ne_zero (Nat.ne_zero_of_lt hb)
  induction b generalizing n base count a with
  | zero =>
    simp only [Nat.zero_mul, Nat.zero_add, Nat.add_zero, Nat.sub_zero] at hsize hj ⊢
    have hget := s.decodeBlock_getElem? (base := base) (by omega) hj a
    rwa [s.decodeBlocks_succ, List.getElem?_append_left (List.getElem?_eq_some_iff.mp hget).1]
  | succ b ih =>
    obtain ⟨n, rfl⟩ := Nat.exists_eq_succ_of_ne_zero (Nat.ne_zero_of_lt (Nat.lt_of_succ_lt_succ hb))
    obtain ⟨hbase, hcount⟩ := next_block_offset base count ba b
    rw [Nat.succ_mul] at hsize
    have hlen : (decodeBlock (s.bufBytes base ba) a).1.length = 1 + 2 * (ba - 4) := by
      rw [decodeBlock_length, State.bufBytes_length, if_pos hba]
    have hpos : (b + 1) * (1 + 2 * (ba - 4)) + j = (1 + 2 * (ba - 4)) + (b * (1 + 2 * (ba - 4)) + j) := by
      rw [Nat.succ_mul]; omega
    have hrest := ih (base := base + ba) (count := count - ba) (by omega) (by rwa [hcount])
      (decodeBlock (s.bufBytes base ba) a).2 n (Nat.lt_of_succ_lt_succ hb)
    rw [s.decodeBlocks_succ_of_full (by omega), hpos, ← hlen, List.getElem?_append_right (Nat.le_add_right ..),
      Nat.add_sub_cancel_left, hlen, ← hbase]
    exact hrest

/-- Block `b` leaves its state where less than a header follows (R253). -/
theorem State.decodeBlocks_state {ba n b base count : Nat} (hba : 4 ≤ ba) (hb : b < n) (hsize : b * ba + 4 ≤ count)
    (hlast : count < (b + 1) * ba + 4) (a : AdpcmState) :
    (decodeBlocks ba n (s.bufBytes base count) a).2 =
      s.decoderState (base + b * ba + 4) (s.blockSeed (base + b * ba)) (2 * (min ba (count - b * ba) - 4)) := by
  obtain ⟨n, rfl⟩ := Nat.exists_eq_succ_of_ne_zero (Nat.ne_zero_of_lt hb)
  induction b generalizing n base count a with
  | zero =>
    simp only [Nat.zero_mul, Nat.zero_add, Nat.add_zero, Nat.sub_zero, Nat.one_mul] at hsize hlast ⊢
    have hshort : ((s.bufBytes base count).drop ba).length < 4 := by
      rw [List.length_drop, State.bufBytes_length]; omega
    rw [s.decodeBlocks_succ, decodeBlocks_of_short hshort]
    exact s.decodeBlock_state (by omega) a
  | succ b ih =>
    obtain ⟨n, rfl⟩ := Nat.exists_eq_succ_of_ne_zero (Nat.ne_zero_of_lt (Nat.lt_of_succ_lt_succ hb))
    obtain ⟨hbase, hcount⟩ := next_block_offset base count ba b
    rw [Nat.succ_mul] at hsize hlast
    have hrest := ih (base := base + ba) (count := count - ba) (by omega) (by omega)
      (decodeBlock (s.bufBytes base ba) a).2 n (Nat.lt_of_succ_lt_succ hb)
    rw [s.decodeBlocks_succ_of_full (by omega), ← hbase, ← hcount]
    exact hrest

end

end

/-! ### How ADD ends (R250, R251) -/

/-- The state from which ADD ends without error (R251). -/
def State.addDecoded (s : State) : State :=
  (((s.storeCells s.dst.toNat (s.addResult.1.map (BitVec.ofInt 64))).setAdpcm s.addResult.2).setNext
    (s.off.toNat + s.cnt.toNat)).setRcnt s.addSamples

/-- SMP after ADD is SMP with the samples stored. -/
theorem State.addDecoded_smpCell (s : State) (j : Nat) :
    s.addDecoded.completed.smpCell j =
      (s.storeCells s.dst.toNat (s.addResult.1.map (BitVec.ofInt 64))).smpCell j :=
  State.smpCell_congr (by simp [State.addDecoded]) (by simp [State.addDecoded]) j

@[simp] theorem State.addDecoded_nextOff (s : State) :
    s.addDecoded.completed.nextOff = BitVec.ofNat 32 (s.off.toNat + s.cnt.toNat) := by
  simp [State.addDecoded]

@[simp] theorem State.addDecoded_rcnt (s : State) :
    s.addDecoded.completed.rcnt = BitVec.ofNat 32 s.addSamples := by
  simp [State.addDecoded]

@[simp] theorem State.addDecoded_pred (s : State) :
    s.addDecoded.completed.pred = BitVec.ofInt 17 s.addResult.2.pred := by
  simp [State.addDecoded]

@[simp] theorem State.addDecoded_sidx (s : State) :
    s.addDecoded.completed.sidx = BitVec.ofNat 7 s.addResult.2.index := by
  simp [State.addDecoded]

/-- The frame of an ADD that ends without error (R46, R47). -/
theorem State.addDecoded_frame (s : State) :
    s.addDecoded.completed = State.succeeded { s with
      smp := s.addDecoded.completed.smp, nextOff := s.addDecoded.completed.nextOff
      rcnt := s.addDecoded.completed.rcnt, pred := s.addDecoded.completed.pred
      sidx := s.addDecoded.completed.sidx } := by
  refine (State.completed_eq_succeeded _).trans (congrArg State.succeeded ?_)
  simp [State.addDecoded, State.storeCells, State.setAdpcm, State.setNext, State.setRcnt]

section
variable {s u : State}

/-- A count of cells below SMP_SIZE fits 32 bits (R10). -/
theorem toNat_ofNat_of_le_smpSize (hwf : s.params.wf) {n : Nat} (h : n ≤ s.params.smpSize) :
    (BitVec.ofNat 32 n).toNat = n := by
  obtain ⟨-, -, -, hsmp, -⟩ := hwf
  rw [BitVec.toNat_ofNat]
  omega

theorem exec_add_invalid (h : s.blockSize < 4) : exec .add s = .next (s.freeAdpcm.failed 18 s.blockSize) :=
  (if_pos h).trans (congrArg Host.Outcome.next (State.raised_eq_failed ..))

/-- ADD ends without error only where its checks passed. -/
theorem exec_add_ok (h : exec .add s = .next u) (herr : u.err = false) :
    4 ≤ s.blockSize ∧ s.off.toNat + s.cnt.toNat ≤ s.len ∧ s.dst.toNat + s.addSamples ≤ s.params.smpSize ∧
      u = s.addDecoded.completed := by
  rcases execAdd_cases h with ⟨-, rfl⟩ | ⟨-, -, rfl⟩ | ⟨-, -, -, rfl⟩ | ⟨hba, hin, hdst, rfl⟩
  case inr.inr.inr => exact ⟨hba, not_lt.mp hin, not_lt.mp hdst, rfl⟩
  all_goals exact absurd herr (by simp)

section
variable (hba : 4 ≤ s.blockSize)
include hba

theorem exec_add_outside (h : s.bufOutside s.cnt.toNat) : exec .add s = .next (s.freeAdpcm.failed 17 s.off.toNat) :=
  (if_neg hba.not_gt).trans ((if_pos h).trans (congrArg Host.Outcome.next (State.raised_eq_failed ..)))

section
variable (hin : s.off.toNat + s.cnt.toNat ≤ s.len)
include hin

theorem exec_add_dstOutside (h : s.dstOutside s.addSamples) :
    exec .add s = .next (s.freeAdpcm.failed 17 s.dst.toNat) :=
  (if_neg hba.not_gt).trans ((if_neg hin.not_gt).trans
    ((if_pos h).trans (congrArg Host.Outcome.next (State.raised_eq_failed ..))))

theorem exec_add_of_inside (hdst : s.dst.toNat + s.addSamples ≤ s.params.smpSize) :
    exec .add s = .next s.addDecoded.completed :=
  (if_neg hba.not_gt).trans ((if_neg hin.not_gt).trans (if_neg hdst.not_gt))

end

/-! ### What ADD leaves (R251 to R253) -/

theorem addDecoded_smpCell_outside {j : Nat} (hj : j < s.dst.toNat ∨ s.dst.toNat + s.addSamples ≤ j) :
    s.addDecoded.completed.smpCell j = s.smpCell j := by
  rw [s.addDecoded_smpCell, State.storeCells_smpCell, dif_neg]
  rw [List.length_map, addResult_length hba]
  omega

end

/-- A cell after ADD is the sample of its position. -/
theorem addDecoded_smpInt {k : Nat} {v : Int} (h : s.addResult.1[k]? = some v) :
    s.addDecoded.completed.smpInt (s.dst.toNat + k) = v := by
  obtain ⟨hk, rfl⟩ := List.getElem?_eq_some_iff.mp h
  obtain ⟨hlo, hhi⟩ := decodeBlocks_isSample16 _ _ _ _ _ (List.getElem_mem hk)
  have hcell : s.addDecoded.completed.smpCell (s.dst.toNat + k) = BitVec.ofInt 64 s.addResult.1[k] := by
    rw [s.addDecoded_smpCell, State.storeCells_smpCell, dif_pos (by rw [List.length_map]; omega)]
    simp
  rw [State.smpInt, hcell, BitVec.toInt_ofInt]
  exact Int.bmod_eq_of_le (by omega) (by omega)

theorem addDecoded_isSample16 {k : Nat} (hba : 4 ≤ s.blockSize) (hk : k < s.addSamples) :
    IsSample16 (s.addDecoded.completed.smpInt (s.dst.toNat + k)) := by
  have hk : k < s.addResult.1.length := hk.trans_eq (addResult_length hba).symm
  rw [addDecoded_smpInt (List.getElem?_eq_getElem hk)]
  exact decodeBlocks_isSample16 _ _ _ _ _ (List.getElem_mem hk)

/-- Fewer than four bytes leave the state ADD starts from (R241, R253). -/
theorem addDecoded_of_short (h : s.cnt.toNat < 4) :
    s.addDecoded.completed.pred = 0 ∧ s.addDecoded.completed.sidx = 0 := by
  have hstate : s.addResult.2 = AdpcmState.fresh :=
    congrArg Prod.snd (decodeBlocks_of_short (by rwa [State.bufBytes_length]) ..)
  rw [State.addDecoded_pred, State.addDecoded_sidx, hstate]
  exact ⟨rfl, rfl⟩

theorem addDecoded_adpcm :
    s.addDecoded.completed.pred.toInt = s.addResult.2.pred ∧
      s.addDecoded.completed.sidx.toNat = s.addResult.2.index := by
  rw [State.addDecoded_pred, State.addDecoded_sidx]
  exact AdpcmState.InRange.registers (decodeBlocks_inRange _ _ _ AdpcmState.fresh_inRange)

section
variable {b : Nat} (hba : 4 ≤ s.blockSize) (hsize : b * s.blockSize + 4 ≤ s.cnt.toNat)
include hba hsize

/-- A block with a header is one of the blocks ADD decodes (R250). -/
theorem lt_blockCount : b < (s.cnt.toNat + s.blockSize - 1) / s.blockSize := by
  rw [Nat.lt_iff_add_one_le, Nat.le_div_iff_mul_le (by omega), Nat.succ_mul]
  omega

/-- A sample of block `b` after ADD (R251). -/
theorem addDecoded_block {j : Nat} (hj : j ≤ 2 * (min s.blockSize (s.cnt.toNat - b * s.blockSize) - 4)) :
    s.addDecoded.completed.smpInt (s.dst.toNat + b * (1 + 2 * (s.blockSize - 4)) + j) =
      (s.decoderState (s.off.toNat + b * s.blockSize + 4) (s.blockSeed (s.off.toNat + b * s.blockSize)) j).pred := by
  rw [Nat.add_assoc s.dst.toNat]
  exact addDecoded_smpInt (s.decodeBlocks_getElem? hba (lt_blockCount hba hsize) hsize hj _)

/-- The state after ADD where block `b` is the last with a header (R253). -/
theorem addResult_state (hlast : s.cnt.toNat < (b + 1) * s.blockSize + 4) :
    s.addResult.2 =
      s.decoderState (s.off.toNat + b * s.blockSize + 4) (s.blockSeed (s.off.toNat + b * s.blockSize))
        (2 * (min s.blockSize (s.cnt.toNat - b * s.blockSize) - 4)) :=
  s.decodeBlocks_state hba (lt_blockCount hba hsize) hsize hlast _

end

end

/-- Settles O48: the ways ADD ends, and what it stored. -/
theorem addDecodesBlocks : Obligations.AddDecodesBlocks := by
  intro s hwf
  refine ⟨fun h => ⟨_, exec_add_invalid h, rfl⟩, fun hba hout => ⟨_, exec_add_outside hba hout, rfl⟩,
    fun hba hin hout => ⟨_, exec_add_dstOutside hba hin hout, rfl⟩, fun hba hin hdst =>
    ⟨_, exec_add_of_inside hba hin hdst, fun j hj => addDecoded_smpCell_outside hba hj,
      fun j hj => addDecoded_isSample16 hba hj, ?_, ?_, addDecoded_of_short, s.addDecoded_frame⟩⟩
  case refine_1 => rw [State.addDecoded_nextOff]; exact toNat_ofNat_of_le_len hin
  case refine_2 => rw [State.addDecoded_rcnt]; exact toNat_ofNat_of_le_smpSize hwf ((Nat.le_add_left ..).trans hdst)

/-- Settles O49: the samples of block b, which the shorter block after it does not disturb. -/
theorem addSamplesFollowDec : Obligations.AddSamplesFollowDec := by
  intro s u b hexec herr ba base size first seed hsize
  obtain ⟨hba, -, -, rfl⟩ := exec_add_ok hexec herr
  have hsize' : b * s.blockSize + 4 ≤ s.cnt.toNat := by
    have hrest : 4 ≤ s.cnt.toNat - b * s.blockSize := hsize.trans (Nat.min_le_right ..)
    omega
  refine ⟨fun j hj => addDecoded_block hba hsize' hj, fun hlast => ?_⟩
  have hstate := addResult_state hba hsize' hlast
  obtain ⟨hpred, hsidx⟩ := addDecoded_adpcm (s := s)
  rw [hstate] at hpred hsidx
  exact ⟨hpred, hsidx⟩

/-! ### The round trip (R255) -/

/-- The decoder starts a block from what the encoder seeded it with (R242, R252). -/
theorem EncodedBlock.blockSeed_eq {s : State} {base index m : Nat} {x : Nat → Int} (h : EncodedBlock s base index x m)
    (hx : IsSample16 (x 0)) (hindex : index ≤ 88) : s.blockSeed base = { pred := x 0, index := index } := by
  obtain ⟨hlo, hhi⟩ := hx
  have hfirst := h.first
  rw [State.blockSeed, h.stepIndex, Nat.min_eq_left hindex]
  congr 1
  split <;> omega

/-- Where a sample was encoded the decoder's state is the encoder's (R237, R255). -/
theorem EncodedBlock.decoderState_eq {s : State} {base index m : Nat} {x : Nat → Int}
    (h : EncodedBlock s base index x m) (hx : IsSample16 (x 0)) (hindex : index ≤ 88) {k : Nat} (hk : k < m)
    (hk' : k < 505) : s.decoderState (base + 4) (s.blockSeed base) k = encoderState index x k := by
  induction k with
  | zero => exact h.blockSeed_eq hx hindex
  | succ k ih =>
    rw [State.decoderState, ih (by omega) (by omega), h.codes k (by omega), if_pos hk, adpcmDec_adpcmEnc]
    rfl

/-- A block is read from BUF alone. -/
theorem EncodedBlock.congr {s t : State} {base index m : Nat} {x : Nat → Int} (h : EncodedBlock s base index x m)
    (ht : ∀ a, t.bufByte a = s.bufByte a) : EncodedBlock t base index x m where
  first := (State.bytesAt_congr ht base 2 false).symm ▸ h.first
  stepIndex := (ht _).symm ▸ h.stepIndex
  zero := (ht _).trans h.zero
  codes j hj := by rw [State.codeAt, ht]; exact h.codes j hj

section
variable {s t : State} {xs : List Int} (hcnt : t.cnt.toNat = 256 * s.adeBlocks) (hba : t.blockSize = 256)
include hcnt hba

/-- Whole blocks of 256 bytes give 505 samples each (R251). -/
theorem addSamples_of_wholeBlocks : t.addSamples = 505 * s.adeBlocks := by
  rw [State.addSamples, hba, hcnt, Nat.mul_mod_right, Nat.mul_div_cancel_left _ (by decide), if_neg (by decide)]
  omega

/-- ADD of the bytes ADE wrote gives back the encoder's predictions (R255). -/
theorem addDecoded_of_adeEncoded (hxs : s.samples16 = .ok xs) (hoff : t.off = s.off)
    (hbuf : ∀ a, t.bufByte a = (s.adeEncoded xs).completed.bufByte a) {b k : Nat} (hk : k < 505)
    (hlt : 505 * b + k < s.cnt.toNat) :
    t.addDecoded.completed.smpInt (t.dst.toNat + 505 * b + k) =
      (encoderState ((s.adeEncoded xs).completed.bufByte (s.off.toNat + 256 * b + 2)).toNat
        (fun m => s.smpInt (s.src.toNat + 505 * b + m)) k).pred := by
  have hblock := adeEncoded_block hxs (b := b) (by omega)
  have hfirst : IsSample16 (s.smpInt (s.src.toNat + 505 * b)) := by
    obtain ⟨hlen, hget⟩ := samples16_ok hxs
    obtain ⟨heq, hrange⟩ := hget (505 * b) (by omega)
    rwa [heq] at hrange
  have hcount : b * 256 + 256 ≤ t.cnt.toNat := by rw [hcnt, State.adeBlocks]; omega
  have hsize : b * t.blockSize + 4 ≤ t.cnt.toNat := by
    rw [hba]
    exact (Nat.add_le_add_left (by decide) _).trans hcount
  have hj : k ≤ 2 * (min t.blockSize (t.cnt.toNat - b * t.blockSize) - 4) := by
    rw [hba, Nat.min_eq_left (Nat.le_sub_of_add_le' hcount)]
    omega
  have hdecoded := addDecoded_block (by omega) hsize hj
  rw [hba, hoff, Nat.mul_comm b, Nat.mul_comm b,
    (hblock.congr hbuf).decoderState_eq hfirst (encoderCarry_index_le hxs b) (by omega) hk] at hdecoded
  rw [hblock.stepIndex]
  exact hdecoded

end

/-- Settles O50: ADD finds in each block the seed and the codes of ADE, and decodes each code to the encoder's state. -/
theorem adeThenAddReturnsPredictions : Obligations.AdeThenAddReturnsPredictions := by
  intro s u t hexec herr ht hblk hroom hwf
  obtain ⟨hin, -, xs, hxs, hu⟩ := exec_ade_ok hexec herr
  have hoff : t.off = s.off := by rw [ht, hu]; simp [State.adeEncoded]
  have hlen : t.len = s.len := by rw [ht, hu]; simp [State.adeEncoded, State.len]
  have hparams : t.params = s.params := by rw [ht, hu]; simp [State.adeEncoded]
  have hbuf (a : Nat) : t.bufByte a = u.bufByte a := by rw [ht]; exact State.bufByte_congr rfl rfl a
  have hcnt : t.cnt.toNat = 256 * s.adeBlocks := by
    rw [ht, hu]
    simp only [State.adeEncoded_rcnt]
    exact toNat_ofNat_of_le_len ((Nat.le_add_left ..).trans hin)
  have hba : t.blockSize = 256 := by
    unfold State.blockSize
    rcases hblk with h | h <;> rw [h] <;> rfl
  have hsamples := addSamples_of_wholeBlocks hcnt hba
  have hdst : t.dst.toNat + t.addSamples ≤ t.params.smpSize := by rwa [hsamples, hparams]
  have hadd := exec_add_of_inside (s := t) (by rw [hba]; decide) (by rwa [hoff, hcnt, hlen]) hdst
  refine ⟨_, hadd, State.completed_err _, ?_, fun b k hk hlt => ?_⟩
  case refine_2 => exact hu ▸ addDecoded_of_adeEncoded hcnt hba hxs hoff (hu ▸ hbuf) hk hlt
  rw [State.addDecoded_rcnt, toNat_ofNat_of_le_smpSize (hparams ▸ hwf) ((Nat.le_add_left ..).trans hdst), hsamples]
  rfl

end Sys2Proof.Machine
end

section
/-! PROOF of O54 and O55 (45_companding.md R271 to R289). Both laws cut the magnitudes into segments of 16 equal steps.
A byte holds the sign, the segment and the step; encoding finds the step a magnitude lies in, and decoding gives the
middle of that step. So a middle encodes to its own byte, and the error is at most half a step. -/

namespace Sys2Proof.Machine

/-! ### The fields of a companded byte -/

/-- A byte's sign bit, segment and step, before the law inverts its bits. -/
def companded (top : Bool) (e man : Nat) : Nat := (if top then 128 else 0) + (16 * e + man)

theorem exists_companded {a : Nat} (ha : a < 256) : ∃ top e man, e < 8 ∧ man < 16 ∧ a = companded top e man := by
  refine ⟨decide (128 ≤ a), a / 16 % 8, a % 16, by omega, by omega, ?_⟩
  simp only [companded, decide_eq_true_eq]
  split <;> omega

/-- A law's byte is a companded byte with the law's bits inverted. -/
theorem exists_companded_xor {y k : Nat} (hy : y < 256) (hk : k < 256) :
    ∃ top e man, e < 8 ∧ man < 16 ∧ y = companded top e man ^^^ k := by
  obtain ⟨top, e, man, he, hman, h⟩ := exists_companded (Nat.xor_lt_two_pow (n := 8) hy hk)
  exact ⟨top, e, man, he, hman, by rw [← h, Nat.xor_xor_cancel_right]⟩

/-- Inverting all eight bits. -/
theorem xor_0xFF {a : Nat} (ha : a < 256) : a ^^^ 0xFF = 255 - a := by
  have h := congrArg BitVec.toNat (BitVec.xor_allOnes (x := BitVec.ofNat 8 a))
  rwa [BitVec.toNat_xor, BitVec.toNat_not, BitVec.toNat_ofNat, Nat.mod_eq_of_lt ha] at h

/-- The sign bit on seven bits, by each encoder's operation. -/
theorem signBit_xor_or : ∀ c < 128, c ^^^ 128 = 128 + c ∧ 128 ||| c = 128 + c := by
  decide

section
variable {e man : Nat}

theorem shiftLeft_four_or (hman : man < 16) (e : Nat) : e <<< 4 ||| man = 16 * e + man := by
  rw [← Nat.shiftLeft_add_eq_or_of_lt hman, Nat.shiftLeft_eq, Nat.mul_comm]

section
variable (he : e < 8) (hman : man < 16)
include he hman

theorem companded_lt (top : Bool) : companded top e man < 256 := by
  unfold companded
  split <;> omega

theorem companded_fields (top : Bool) :
    companded top e man / 16 % 8 = e ∧ companded top e man % 16 = man ∧ (128 ≤ companded top e man ↔ top = true) := by
  unfold companded
  split
  · next h => exact ⟨by omega, by omega, iff_of_true (by omega) h⟩
  · next h => exact ⟨by omega, by omega, iff_of_false (by omega) h⟩

/-- How the decoders take a byte apart. -/
theorem companded_masks (top : Bool) :
    companded top e man &&& 0x7F = 16 * e + man ∧ companded top e man >>> 4 &&& 7 = e ∧
      companded top e man &&& 0xF = man ∧ (companded top e man &&& 0x80 ≠ 0 ↔ top = true) := by
  obtain ⟨hseg, hstep, htop⟩ := companded_fields he hman top
  have hlt := companded_lt he hman top
  refine ⟨?_, ?_, ?_, ?_⟩
  · rw [show 0x7F = 2 ^ 7 - 1 from rfl, Nat.and_two_pow_sub_one_eq_mod]
    omega
  · rw [Nat.shiftRight_eq_div_pow]
    exact (Nat.and_two_pow_sub_one_eq_mod _ 3).trans hseg
  · exact (Nat.and_two_pow_sub_one_eq_mod _ 4).trans hstep
  · have hbit : (companded top e man).testBit 7 = true ↔ 128 ≤ companded top e man := by
      rw [Nat.testBit_eq_decide_div_mod_eq, decide_eq_true_eq]
      omega
    rw [show 0x80 = 2 ^ 7 from rfl, Nat.and_two_pow, ← htop, ← hbit]
    simp

end

end

/-! ### Steps of equal length -/

/-- The step with this middle and this half length holds `m`. -/
def InStep (mid half m : Nat) : Prop := mid ≤ m + half ∧ m < mid + half

theorem inStep_mid {mid half : Nat} (h : 0 < half) : InStep mid half mid :=
  ⟨Nat.le_add_right .., Nat.lt_add_of_pos_right h⟩

/-- The middle of step `man` in segment `e`, where each segment's steps are twice as long as those of the one before. -/
def stepMid (e man : Nat) : Nat := (2 * man + 33) * 2 ^ (e + 2)

theorem inStep_stepMid_iff {e man m : Nat} : InStep (stepMid e man) (2 ^ (e + 2)) m ↔ m / 2 ^ (e + 3) = 16 + man := by
  have hlen : 2 ^ (e + 3) = 2 * 2 ^ (e + 2) := pow_succ' ..
  have hmid : stepMid e man = (16 + man) * 2 ^ (e + 3) + 2 ^ (e + 2) := by rw [stepMid, hlen]; ring
  have hpos : 0 < 2 ^ (e + 2) := by positivity
  rw [InStep, hmid, Nat.div_eq_iff (by positivity)]
  omega

theorem stepMid_bounds {e man : Nat} (he : e < 8) (hman : man < 16) : 132 ≤ stepMid e man ∧ stepMid e man ≤ 32256 := by
  have hlo : 2 ^ 2 ≤ 2 ^ (e + 2) := Nat.pow_le_pow_right (by decide) (by omega)
  have hhi : 2 ^ (e + 2) ≤ 2 ^ 9 := Nat.pow_le_pow_right (by decide) (by omega)
  exact ⟨Nat.mul_le_mul (by omega : 33 ≤ 2 * man + 33) hlo, Nat.mul_le_mul (by omega : 2 * man + 33 ≤ 63) hhi⟩

theorem half_bounds {e : Nat} (he : e < 8) : 0 < 2 ^ (e + 2) ∧ 2 ^ (e + 2) ≤ 512 :=
  ⟨by positivity, Nat.pow_le_pow_right (by decide) (by omega : _ ≤ 9)⟩

/-- A magnitude's highest bit gives its segment, and the four bits below that its step. -/
theorem exists_inStep {m : Nat} (hlo : 128 ≤ m) (hhi : m < 2 ^ 15) :
    ∃ e man, e < 8 ∧ man < 16 ∧ InStep (stepMid e man) (2 ^ (e + 2)) m := by
  have hlog : 7 ≤ Nat.log 2 m := Nat.le_log_of_pow_le (by decide) hlo
  have hlog' : Nat.log 2 m < 15 := Nat.log_lt_of_lt_pow (by omega) hhi
  obtain ⟨e, he⟩ := Nat.exists_eq_add_of_le' hlog
  have hle := Nat.pow_log_le_self 2 (show m ≠ 0 by omega)
  have hlt : m < 2 ^ (Nat.log 2 m + 1) := Nat.lt_pow_succ_log_self (by decide) m
  rw [he, show e + 7 = e + 3 + 4 from rfl, pow_add] at hle
  rw [he, show e + 7 + 1 = e + 3 + 5 from rfl, pow_add] at hlt
  have hquot : 16 ≤ m / 2 ^ (e + 3) := (Nat.le_div_iff_mul_le (by positivity)).mpr (by omega)
  have hquot' : m / 2 ^ (e + 3) < 32 := Nat.div_lt_of_lt_mul (by omega)
  exact ⟨e, m / 2 ^ (e + 3) - 16, by omega, by omega, inStep_stepMid_iff.mpr (by omega)⟩

/-! ### The encoders' tables (R271, R281) -/

theorem mulog_eq {i e : Nat} (he : e < 8) (hlo : 2 ^ e ≤ i) (hhi : i < 2 ^ (e + 1)) : mulog i = e := by
  unfold mulog
  interval_cases e
  all_goals
    simp only [Nat.reducePow, Nat.reduceAdd] at hlo hhi
    split_ifs <;> omega

theorem alog_eq_mulog_add_one {i : Nat} (h : i < 128) : alog i = mulog i + 1 := by
  unfold alog mulog
  split_ifs <;> omega

section
variable {e man m : Nat}

section
variable (he : e < 8) (hman : man < 16) (h : InStep (stepMid e man) (2 ^ (e + 2)) m)
include he hman h

theorem segment_bounds : 2 ^ e * 128 ≤ m ∧ m < 2 ^ e * 256 ∧ m < 2 ^ 15 := by
  have hquot := inStep_stepMid_iff.mp h
  have hlo : 16 * 2 ^ (e + 3) ≤ m := (Nat.le_div_iff_mul_le (by positivity)).mp (by omega)
  have hhi : m < 32 * 2 ^ (e + 3) := (Nat.div_lt_iff_lt_mul (by positivity)).mp (by omega)
  have hpow : 2 ^ e ≤ 2 ^ 7 := Nat.pow_le_pow_right (by decide) (by omega)
  rw [pow_add] at hlo hhi
  omega

theorem mulog_of_inStep : mulog (m >>> 7 &&& 0xFF) = e := by
  obtain ⟨hlo, hhi, hlt⟩ := segment_bounds he hman h
  rw [show 0xFF = 2 ^ 8 - 1 from rfl, Nat.and_two_pow_sub_one_eq_mod, Nat.shiftRight_eq_div_pow]
  exact mulog_eq he (by omega) (by omega)

theorem alog_of_inStep (hm : 256 ≤ m) : alog (m >>> 8 &&& 0x7F) = e := by
  obtain ⟨hlo, hhi, hlt⟩ := segment_bounds he hman h
  rw [show 0x7F = 2 ^ 7 - 1 from rfl, Nat.and_two_pow_sub_one_eq_mod, Nat.shiftRight_eq_div_pow,
    alog_eq_mulog_add_one (Nat.mod_lt _ (by decide))]
  cases e with
  | zero => omega
  | succ e => rw [mulog_eq (e := e) (by omega) (by omega) (by omega)]

omit he in
/-- The segment and the step, as both encoders put them together (R273, R284). -/
theorem stepBits_of_inStep : e <<< 4 ||| (m >>> (e + 3) &&& 0xF) = 16 * e + man := by
  rw [show 0xF = 2 ^ 4 - 1 from rfl, Nat.and_two_pow_sub_one_eq_mod, Nat.shiftRight_eq_div_pow,
    inStep_stepMid_iff.mp h, Nat.add_mod_left, Nat.mod_eq_of_lt hman, shiftLeft_four_or hman]

end

/-! ### A-law (R273 to R277) -/

/-- The middle of an A-law step; segment 0 has the steps of segment 1, from 0 on (R275). -/
def alawMid (e man : Nat) : Nat := if e = 0 then 16 * man + 8 else stepMid e man

/-- Half the length of an A-law step. -/
def alawHalf (e : Nat) : Nat := if e = 0 then 8 else 2 ^ (e + 2)

theorem alawHalf_bounds (he : e < 8) : 0 < alawHalf e ∧ alawHalf e ≤ 512 := by
  unfold alawHalf
  split
  · decide
  · exact half_bounds he

theorem alawMid_bounds (he : e < 8) (hman : man < 16) : 8 ≤ alawMid e man ∧ alawMid e man ≤ 32256 := by
  obtain ⟨hlo, hhi⟩ := stepMid_bounds he hman
  unfold alawMid
  split <;> omega

theorem exists_alawStep (hm : m < 2 ^ 15) :
    ∃ e man, e < 8 ∧ man < 16 ∧ InStep (alawMid e man) (alawHalf e) m := by
  by_cases hlow : m < 256
  · refine ⟨0, m / 16, by decide, by omega, ?_⟩
    simp only [InStep, alawMid, alawHalf, if_true]
    omega
  · obtain ⟨e, man, he, hman, h⟩ := exists_inStep (by omega) hm
    obtain ⟨-, hhi, -⟩ := segment_bounds he hman h
    have hne : e ≠ 0 := by
      rintro rfl
      omega
    exact ⟨e, man, he, hman, by rwa [alawMid, alawHalf, if_neg hne, if_neg hne]⟩

/-- The byte of a magnitude before the inversion, as `alaw_enc` computes it (R273). -/
def alawCode (m : Nat) : Nat :=
  let e := alog (m >>> 8 &&& 0x7F)
  if 256 ≤ m then e <<< 4 ||| (m >>> (e + 3) &&& 0xF) else m >>> 4

/-- The sample that `alaw_enc` takes the sign and the magnitude of (R273). -/
def alawInput (s : Int) : Int := if s = -32768 then -32767 else s

theorem alawInput_of_ne {s : Int} (h : s ≠ -32768) : alawInput s = s := if_neg h

theorem alawEnc_eq (s : Int) : alawEnc s =
    alawCode (min (alawInput s).natAbs 32635) ^^^ ((if 0 ≤ alawInput s then 0x80 else 0x00) ^^^ 0x55) := rfl

theorem alawInput_bounds {s : Int} (hs : IsSample16 s) :
    (0 ≤ alawInput s ↔ 0 ≤ s) ∧ (alawInput s).natAbs < 2 ^ 15 ∧
      (alawInput s = s ∨ s = -32768 ∧ alawInput s = -32767) := by
  obtain ⟨hlo, hhi⟩ := hs
  unfold alawInput
  split <;> omega

theorem alawCode_of_inStep (he : e < 8) (hman : man < 16) (h : InStep (alawMid e man) (alawHalf e) m) :
    alawCode m = 16 * e + man := by
  unfold alawMid alawHalf at h
  unfold alawCode
  by_cases hzero : e = 0
  · subst hzero
    obtain ⟨hlo, hhi⟩ := h
    rw [if_pos rfl, if_pos rfl] at *
    rw [if_neg (by omega), Nat.shiftRight_eq_div_pow]
    omega
  · rw [if_neg hzero, if_neg hzero] at h
    obtain ⟨hlo, -, -⟩ := segment_bounds he hman h
    have hpow : 2 ^ 1 ≤ 2 ^ e := Nat.pow_le_pow_right (by decide) (by omega)
    have hm : 256 ≤ m := by omega
    rw [if_pos hm, alog_of_inStep he hman h hm, stepBits_of_inStep hman h]

/-- The clip stays in the step of what it clips (R275). -/
theorem alawCode_min (hm : m < 2 ^ 15) : alawCode (min m 32635) = alawCode m := by
  by_cases hle : m ≤ 32635
  · rw [Nat.min_eq_left hle]
  · have htop (n : Nat) (hn : 31744 ≤ n ∧ n < 32768) : alawCode n = 127 :=
      alawCode_of_inStep (e := 7) (man := 15) (by decide) (by decide)
        (by simp [InStep, alawMid, alawHalf, stepMid]; omega)
    rw [htop m (by omega), htop _ (by omega)]

theorem alawEnc_of_inStep (he : e < 8) (hman : man < 16) {s : Int} (hs : IsSample16 s)
    (h : InStep (alawMid e man) (alawHalf e) (alawInput s).natAbs) :
    alawEnc s = companded (decide (0 ≤ s)) e man ^^^ 0x55 := by
  obtain ⟨hsign, hm, -⟩ := alawInput_bounds hs
  rw [alawEnc_eq, alawCode_min hm, alawCode_of_inStep he hman h, ← Nat.xor_assoc, companded]
  simp only [hsign, decide_eq_true_eq]
  split
  · rw [(signBit_xor_or _ (by omega)).1]
  · rw [Nat.xor_zero, Nat.zero_add]

/-- The segment-position arithmetic of `alaw_dec` (R276). -/
theorem alawPosition_eq (hman : man < 16) :
    (if e + 4 ≠ 4 then 1 <<< (e + 4) ||| man <<< (e + 4 - 4) ||| 1 <<< (e + 4 - 5)
      else (16 * e + man) <<< 1 ||| 1) * 8 = alawMid e man := by
  cases e with
  | zero =>
    rw [if_neg (by decide), ← Nat.shiftLeft_add_eq_or_of_lt (by decide), Nat.shiftLeft_eq, alawMid, if_pos rfl]
    omega
  | succ e =>
    have hlead : 1 <<< (e + 1 + 4) ||| man <<< (e + 1) = (16 + man) <<< (e + 1) := by
      rw [Nat.two_pow_add_eq_or_of_lt (i := 4) hman 1, Nat.shiftLeft_or_distrib, Nat.add_comm (e + 1) 4,
        Nat.shiftLeft_add]
      rfl
    have hhalf : 1 <<< e < 2 ^ (e + 1) := by
      rw [Nat.one_shiftLeft]
      exact Nat.pow_lt_pow_succ (by decide)
    rw [if_pos (by omega), Nat.add_sub_cancel, show e + 1 + 4 - 5 = e from rfl, hlead,
      ← Nat.shiftLeft_add_eq_or_of_lt hhalf, Nat.shiftLeft_eq, Nat.one_shiftLeft, alawMid, if_neg (by omega), stepMid]
    ring

theorem alawDec_companded (he : e < 8) (hman : man < 16) (top : Bool) :
    alawDec (companded top e man ^^^ 0x55) = if top then (alawMid e man : Int) else -(alawMid e man : Int) := by
  obtain ⟨hlow, -, -, htop⟩ := companded_masks he hman top
  have hseg : (16 * e + man) >>> 4 = e := (Nat.shiftRight_eq_div_pow _ 4).trans (by omega)
  have hstep : (16 * e + man) &&& 0xF = man := (Nat.and_two_pow_sub_one_eq_mod _ 4).trans (by omega)
  simp only [alawDec, Nat.xor_xor_cancel_right, hlow, hseg, hstep, alawPosition_eq hman, htop]

theorem alawEnc_lt {s : Int} (hs : IsSample16 s) : alawEnc s < 256 := by
  obtain ⟨-, hm, -⟩ := alawInput_bounds hs
  obtain ⟨e, man, he, hman, h⟩ := exists_alawStep hm
  rw [alawEnc_of_inStep he hman hs h]
  exact Nat.xor_lt_two_pow (n := 8) (companded_lt he hman _) (by decide)

/-- Decoding gives the middle of the step of the magnitude, which is at most half a step away (R277). -/
theorem alawDec_alawEnc_error {s : Int} (hs : IsSample16 s) : |alawDec (alawEnc s) - s| ≤ 512 := by
  obtain ⟨hsign, hm, hinput⟩ := alawInput_bounds hs
  obtain ⟨e, man, he, hman, h⟩ := exists_alawStep hm
  obtain ⟨-, hmid⟩ := alawMid_bounds he hman
  obtain ⟨hhalf, hhalf'⟩ := alawHalf_bounds he
  rw [alawEnc_of_inStep he hman hs h, alawDec_companded he hman, abs_le]
  obtain ⟨hlo, hhi⟩ := h
  simp only [decide_eq_true_eq]
  split <;> omega

theorem alawDec_isSample16 {y : Nat} (hy : y < 256) : IsSample16 (alawDec y) := by
  obtain ⟨top, e, man, he, hman, rfl⟩ := exists_companded_xor hy (k := 0x55) (by decide)
  obtain ⟨-, hhi⟩ := alawMid_bounds he hman
  rw [alawDec_companded he hman, IsSample16]
  split <;> omega

/-- The middle of a step, of either sign, encodes to its own byte (R277). -/
theorem alawEnc_alawDec {y : Nat} (hy : y < 256) : alawEnc (alawDec y) = y := by
  obtain ⟨top, e, man, he, hman, rfl⟩ := exists_companded_xor hy (k := 0x55) (by decide)
  obtain ⟨hlo, hhi⟩ := alawMid_bounds he hman
  have hdec := alawDec_companded he hman top
  have habs : (alawDec (companded top e man ^^^ 0x55)).natAbs = alawMid e man := by
    rw [hdec]
    split <;> omega
  have hsign : 0 ≤ alawDec (companded top e man ^^^ 0x55) ↔ top = true := by
    rw [hdec]
    split
    · next h => exact iff_of_true (by omega) h
    · next h => exact iff_of_false (by omega) h
  have hstep : InStep (alawMid e man) (alawHalf e) (alawInput (alawDec (companded top e man ^^^ 0x55))).natAbs := by
    rw [alawInput_of_ne (by omega), habs]
    exact inStep_mid (alawHalf_bounds he).1
  rw [alawEnc_of_inStep he hman (alawDec_isSample16 hy) hstep]
  simp [hsign]

/-! ### μ-law (R284 to R288) -/

/-- The decode table holds each segment's first middle less the bias (R282). -/
theorem mudec_getD : ∀ e < 8, mudec.getD e 0 = stepMid e 0 - 132 := by decide

theorem mulawDec_companded (he : e < 8) (hman : man < 16) (top : Bool) :
    mulawDec (companded top e man ^^^ 0xFF) =
      if top then -((stepMid e man - 132 : Nat) : Int) else ((stepMid e man - 132 : Nat) : Int) := by
  obtain ⟨-, hseg, hstep, htop⟩ := companded_masks he hman top
  have hvalue : mudec.getD e 0 + man <<< (e + 3) = stepMid e man - 132 := by
    have hfirst := (stepMid_bounds he (man := 0) (by decide)).1
    have hmid : stepMid e man = stepMid e 0 + man * 2 ^ (e + 3) := by
      unfold stepMid
      ring
    rw [mudec_getD e he, Nat.shiftLeft_eq, hmid, Nat.sub_add_comm hfirst]
  simp only [mulawDec, Nat.xor_xor_cancel_right, hseg, hstep, htop, hvalue]

theorem mulawEnc_of_inStep (he : e < 8) (hman : man < 16) {s : Int}
    (h : InStep (stepMid e man) (2 ^ (e + 2)) (min s.natAbs 32635 + 132)) :
    mulawEnc s = companded (decide (s < 0)) e man ^^^ 0xFF := by
  simp only [mulawEnc, mulog_of_inStep he hman h, Nat.lor_assoc, stepBits_of_inStep hman h, companded,
    decide_eq_true_eq]
  split
  · rw [(signBit_xor_or _ (by omega)).2]
  · rw [Nat.zero_or, Nat.zero_add]

/-- The clip leaves the biased magnitude inside the segments (R285). -/
theorem exists_mulawStep (s : Int) :
    ∃ e man, e < 8 ∧ man < 16 ∧ InStep (stepMid e man) (2 ^ (e + 2)) (min s.natAbs 32635 + 132) :=
  exists_inStep (by omega) (by omega)

theorem mulawEnc_lt (s : Int) : mulawEnc s < 256 := by
  obtain ⟨e, man, he, hman, h⟩ := exists_mulawStep s
  rw [mulawEnc_of_inStep he hman h]
  exact Nat.xor_lt_two_pow (n := 8) (companded_lt he hman _) (by decide)

/-- Decoding gives the middle of the step of the clipped magnitude (R288). -/
theorem mulawDec_mulawEnc_error {s : Int} (hs : IsSample16 s) :
    |mulawDec (mulawEnc s) - s| ≤ 644 ∧ (-32635 ≤ s → s ≤ 32635 → |mulawDec (mulawEnc s) - s| ≤ 512) := by
  obtain ⟨hmin, hmax⟩ := hs
  obtain ⟨e, man, he, hman, h⟩ := exists_mulawStep s
  obtain ⟨hhalf, hhalf'⟩ := half_bounds he
  obtain ⟨hmid, -⟩ := stepMid_bounds he hman
  rw [mulawEnc_of_inStep he hman h, mulawDec_companded he hman, abs_le, abs_le]
  obtain ⟨hlo, hhi⟩ := h
  simp only [decide_eq_true_eq]
  split <;> omega

end

theorem mulawDec_isSample16 {y : Nat} (hy : y < 256) : IsSample16 (mulawDec y) := by
  obtain ⟨top, e, man, he, hman, rfl⟩ := exists_companded_xor hy (k := 0xFF) (by decide)
  obtain ⟨-, hhi⟩ := stepMid_bounds he hman
  rw [mulawDec_companded he hman, IsSample16]
  split <;> omega

/-- Only the first step of segment 0 decodes to 0. -/
theorem eq_zero_of_stepMid_eq {e man : Nat} (h : stepMid e man = 132) : e = 0 ∧ man = 0 := by
  unfold stepMid at h
  cases e with
  | zero => omega
  | succ e =>
    have hpow : 2 ^ 3 ≤ 2 ^ (e + 1 + 2) := Nat.pow_le_pow_right (by decide) (by omega)
    have hle := Nat.mul_le_mul (show 33 ≤ 2 * man + 33 by omega) hpow
    omega

/-- The middle of a step encodes to its own byte, but the zero of negative sign has a positive zero's byte (R288). -/
theorem mulawEnc_mulawDec {y : Nat} (hy : y < 256) : mulawEnc (mulawDec y) = if y = 0x7F then 0xFF else y := by
  split_ifs with hzero
  · rw [hzero]
    rfl
  obtain ⟨top, e, man, he, hman, rfl⟩ := exists_companded_xor hy (k := 0xFF) (by decide)
  obtain ⟨hlo, hhi⟩ := stepMid_bounds he hman
  have hdec := mulawDec_companded he hman top
  have hmid : min (mulawDec (companded top e man ^^^ 0xFF)).natAbs 32635 + 132 = stepMid e man := by
    rw [hdec]
    split <;> omega
  have hstep := inStep_mid (mid := stepMid e man) (half_bounds he).1
  rw [mulawEnc_of_inStep he hman (hmid ▸ hstep)]
  have hsign : mulawDec (companded top e man ^^^ 0xFF) < 0 ↔ top = true := by
    rw [hdec]
    split
    · next htop =>
      have hne : stepMid e man ≠ 132 := by
        intro h
        obtain ⟨rfl, rfl⟩ := eq_zero_of_stepMid_eq h
        exact hzero (by rw [htop]; rfl)
      exact iff_of_true (by omega) htop
    · next htop => exact iff_of_false (by omega) htop
  simp [hsign]

/-- Settles O54: every byte is the inversion of a sign, a segment and a step, and the closed forms are the middles of
the steps. -/
theorem compandedByteValues : Obligations.CompandedByteValues := by
  intro y hy
  refine ⟨?_, ?_⟩
  · obtain ⟨top, e, man, he, hman, rfl⟩ := exists_companded_xor hy (k := 0x55) (by decide)
    obtain ⟨hseg, hstep, htop⟩ := companded_fields he hman top
    refine ⟨?_, alawEnc_alawDec hy⟩
    simp only [Nat.xor_xor_cancel_right, hseg, hstep, htop]
    exact alawDec_companded he hman top
  · obtain ⟨top, e, man, he, hman, rfl⟩ := exists_companded_xor hy (k := 0xFF) (by decide)
    obtain ⟨hseg, hstep, htop⟩ := companded_fields he hman top
    have hfields : 255 - (companded top e man ^^^ 0xFF) = companded top e man := by
      rw [← xor_0xFF hy, Nat.xor_xor_cancel_right]
    refine ⟨?_, mulawEnc_mulawDec hy⟩
    simp only [hfields, hseg, hstep, htop]
    exact mulawDec_companded he hman top

/-- Settles O55: both round trips end at the middle of the step of the sample; the equal ends of A-law evaluate. -/
theorem compandingErrorBounds : Obligations.CompandingErrorBounds := by
  intro x hx
  obtain ⟨hall, hunclipped⟩ := mulawDec_mulawEnc_error hx
  exact ⟨alawEnc_lt hx, mulawEnc_lt x, alawDec_alawEnc_error hx, hunclipped, hall, rfl⟩

end Sys2Proof.Machine
end

section
/-! PROOF of O52 and O53 (45_companding.md R270 to R287): the two shapes of the four commands, for any law whose codes
are bytes and whose values are 16-bit samples. -/

namespace Sys2Proof.Machine

/-! ### ALE and MUE (R270, R273, R284) -/

/-- The state from which ALE and MUE of the samples `xs` end without error (R270). -/
def State.compressed (s : State) (enc : Int → Nat) (xs : List Int) : State :=
  ((s.storeBytes s.off.toNat (xs.map fun x => BitVec.ofNat 8 (enc x))).setNext (s.off.toNat + s.cnt.toNat)).setRcnt
    s.cnt.toNat

/-- BUF after the command is BUF with the codes stored. -/
theorem State.compressed_bufByte (s : State) (enc : Int → Nat) (xs : List Int) (a : Nat) :
    (s.compressed enc xs).completed.bufByte a =
      (s.storeBytes s.off.toNat (xs.map fun x => BitVec.ofNat 8 (enc x))).bufByte a :=
  State.bufByte_congr (by simp [State.compressed]) (by simp [State.compressed]) a

section
variable {s : State} {enc : Int → Nat} {xs : List Int}

theorem compress_outside (h : s.bufOutside s.cnt.toNat) : compress enc s = .next (s.failed 17 s.off.toNat) :=
  (if_pos h).trans (congrArg Host.Outcome.next (State.raised_eq_failed ..))

theorem compress_srcOutside (hin : s.off.toNat + s.cnt.toNat ≤ s.len) (h : s.srcOutside s.cnt.toNat) :
    compress enc s = .next (s.failed 17 s.src.toNat) :=
  (if_neg hin.not_gt).trans ((if_pos h).trans (congrArg Host.Outcome.next (State.raised_eq_failed ..)))

theorem compress_of_ok (hin : s.off.toNat + s.cnt.toNat ≤ s.len) (hsrc : s.src.toNat + s.cnt.toNat ≤ s.params.smpSize)
    (hxs : s.samples16 = .ok xs) : compress enc s = .next (s.compressed enc xs).completed := by
  rw [compress, if_neg hin.not_gt, if_neg hsrc.not_gt, hxs]
  rfl

section
variable (hxs : s.samples16 = .ok xs)
include hxs

theorem compressed_bufByte_inside {k : Nat} (hk : k < s.cnt.toNat) :
    (s.compressed enc xs).completed.bufByte (s.off.toNat + k) = BitVec.ofNat 8 (enc (s.smpInt (s.src.toNat + k))) := by
  obtain ⟨hlen, hget⟩ := samples16_ok hxs
  rw [s.compressed_bufByte, State.storeBytes_bufByte, dif_pos (by rw [List.length_map]; omega), List.getElem_map,
    (hget _ _).1, Nat.add_sub_cancel_left]

theorem compressed_bufByte_outside {a : Nat} (ha : a < s.off.toNat ∨ s.off.toNat + s.cnt.toNat ≤ a) :
    (s.compressed enc xs).completed.bufByte a = s.bufByte a := by
  rw [s.compressed_bufByte, State.storeBytes_bufByte, dif_neg]
  rw [List.length_map, (samples16_ok hxs).1]
  omega

end

end

/-- Settles O52: both laws' codes are bytes, so byte OFF + k shows the whole code of sample k. -/
theorem compandersEncode : Obligations.CompandersEncode := by
  intro i enc s hi
  have hexec : exec i s = compress enc s := by
    rcases hi with ⟨rfl, rfl⟩ | ⟨rfl, rfl⟩
    · rfl
    · rfl
  have hcode (x : Int) (hx : IsSample16 x) : enc x < 256 := by
    rcases hi with ⟨-, rfl⟩ | ⟨-, rfl⟩
    · exact alawEnc_lt hx
    · exact mulawEnc_lt x
  rw [hexec]
  refine ⟨compress_outside, compress_srcOutside, fun hin hsrc hsamples => ?_⟩
  obtain ⟨xs, hxs⟩ := exists_samples16_ok hsamples
  refine ⟨_, compress_of_ok hin hsrc hxs, fun k hk => ?_, fun a => compressed_bufByte_outside hxs,
    toNat_ofNat_of_le_len hin, (BitVec.ofNat_toNat ..).trans (BitVec.setWidth_eq _), State.completed_eq_succeeded _⟩
  rw [compressed_bufByte_inside hxs hk, BitVec.toNat_ofNat, Nat.mod_eq_of_lt (hcode _ (hsamples k hk))]

/-! ### ALD and MUD (R270, R276, R287) -/

/-- The state from which ALD and MUD end without error (R270). -/
def State.expanded (s : State) (dec : Nat → Int) : State :=
  ((s.storeCells s.dst.toNat ((s.bufBytes s.off.toNat s.cnt.toNat).map fun y => BitVec.ofInt 64 (dec y.toNat))).setNext
    (s.off.toNat + s.cnt.toNat)).setRcnt s.cnt.toNat

/-- SMP after the command is SMP with the values stored. -/
theorem State.expanded_smpCell (s : State) (dec : Nat → Int) (j : Nat) :
    (s.expanded dec).completed.smpCell j =
      (s.storeCells s.dst.toNat
        ((s.bufBytes s.off.toNat s.cnt.toNat).map fun y => BitVec.ofInt 64 (dec y.toNat))).smpCell j :=
  State.smpCell_congr (by simp [State.expanded]) (by simp [State.expanded]) j

section
variable {s : State} {dec : Nat → Int}

theorem expand_outside (h : s.bufOutside s.cnt.toNat) : expand dec s = .next (s.failed 17 s.off.toNat) :=
  (if_pos h).trans (congrArg Host.Outcome.next (State.raised_eq_failed ..))

section
variable (hin : s.off.toNat + s.cnt.toNat ≤ s.len)
include hin

theorem expand_dstOutside (h : s.dstOutside s.cnt.toNat) : expand dec s = .next (s.failed 17 s.dst.toNat) :=
  (if_neg hin.not_gt).trans ((if_pos h).trans (congrArg Host.Outcome.next (State.raised_eq_failed ..)))

theorem expand_of_inside (hdst : s.dst.toNat + s.cnt.toNat ≤ s.params.smpSize) :
    expand dec s = .next (s.expanded dec).completed :=
  (if_neg hin.not_gt).trans (if_neg hdst.not_gt)

end

theorem expanded_smpCell_inside {k : Nat} (hk : k < s.cnt.toNat) :
    (s.expanded dec).completed.smpCell (s.dst.toNat + k) =
      BitVec.ofInt 64 (dec (s.bufByte (s.off.toNat + k)).toNat) := by
  rw [s.expanded_smpCell, State.storeCells_smpCell, dif_pos (by rw [List.length_map, State.bufBytes_length]; omega),
    List.getElem_map, State.bufBytes_getElem, Nat.add_sub_cancel_left]

theorem expanded_smpCell_outside {j : Nat} (hj : j < s.dst.toNat ∨ s.dst.toNat + s.cnt.toNat ≤ j) :
    (s.expanded dec).completed.smpCell j = s.smpCell j := by
  rw [s.expanded_smpCell, State.storeCells_smpCell, dif_neg]
  rw [List.length_map, State.bufBytes_length]
  omega

end

/-- A cell holds a 16-bit sample whole. -/
theorem IsSample16.toInt_ofInt {v : Int} (h : IsSample16 v) : (BitVec.ofInt 64 v).toInt = v := by
  obtain ⟨hlo, hhi⟩ := h
  rw [BitVec.toInt_ofInt]
  exact Int.bmod_eq_of_le (by omega) (by omega)

/-- Settles O53: both laws' values are 16-bit samples, so cell DST + k shows the whole value of byte k. -/
theorem compandersDecode : Obligations.CompandersDecode := by
  intro i dec s hi
  have hexec : exec i s = expand dec s := by
    rcases hi with ⟨rfl, rfl⟩ | ⟨rfl, rfl⟩
    · rfl
    · rfl
  have hvalue (y : Byte) : IsSample16 (dec y.toNat) := by
    rcases hi with ⟨-, rfl⟩ | ⟨-, rfl⟩
    · exact alawDec_isSample16 y.isLt
    · exact mulawDec_isSample16 y.isLt
  rw [hexec]
  refine ⟨expand_outside, expand_dstOutside, fun hin hdst => ?_⟩
  refine ⟨_, expand_of_inside hin hdst, fun k hk => ?_, fun j => expanded_smpCell_outside,
    toNat_ofNat_of_le_len hin, (BitVec.ofNat_toNat ..).trans (BitVec.setWidth_eq _), State.completed_eq_succeeded _⟩
  rw [State.smpInt, expanded_smpCell_inside hk, (hvalue _).toInt_ofInt]

end Sys2Proof.Machine
end

section
/-! PROOFS of the family of 60_exceptions.md: the errors each command can end with (R302), O12, and the type check that
comes before every other check of the four VAL commands (R305), O15. -/

namespace Sys2Proof.Machine

/-! ### Errors that stand in a command's row (R301, R302) -/

/-- The command's row lists the error. -/
def InRow (i : Instr) (e : Error) : Prop := e.kind.code.toNat ∈ errorRow i

section
variable {i : Instr}

@[simp] theorem inRow_unsupportedContainer (n : Nat) : InRow i (unsupportedContainer n) ↔ 1 ∈ errorRow i := Iff.rfl
@[simp] theorem inRow_invalidType (n : Nat) : InRow i (invalidType n) ↔ 3 ∈ errorRow i := Iff.rfl
@[simp] theorem inRow_invalidBitDepth (n : Nat) : InRow i (invalidBitDepth n) ↔ 4 ∈ errorRow i := Iff.rfl
@[simp] theorem inRow_overflow (n : Nat) : InRow i (overflow n) ↔ 5 ∈ errorRow i := Iff.rfl
@[simp] theorem inRow_underflow (n : Nat) : InRow i (underflow n) ↔ 6 ∈ errorRow i := Iff.rfl
@[simp] theorem inRow_outOfBounds (n : Nat) : InRow i (outOfBounds n) ↔ 17 ∈ errorRow i := Iff.rfl
@[simp] theorem inRow_invalidArgument (n : Nat) : InRow i (invalidArgument n) ↔ 18 ∈ errorRow i := Iff.rfl
@[simp] theorem inRow_tableFull (n : Nat) : InRow i (tableFull n) ↔ 19 ∈ errorRow i := Iff.rfl

/-- The row lists both errors of a range check (R307). -/
def ListsRange (i : Instr) : Prop := 5 ∈ errorRow i ∧ 6 ∈ errorRow i

theorem writeValue_error_inRow {t : NumericType} {raw : BitVec 32} {v : Cell} {n : Nat} {e : Error}
    (h : writeValue t raw v n = .error e) (hi : ListsRange i) : InRow i e := by
  unfold writeValue at h
  split at h
  · cases h
  · split at h
    · next hc =>
      cases h
      rcases checkRange_error hc with ⟨-, rfl⟩ | ⟨-, -, rfl⟩
      · exact hi.1
      · exact hi.2
    · cases h

theorem samples16_error_inRow {s : State} {e : Error} (h : s.samples16 = .error e) (hi : ListsRange i) :
    InRow i e := by
  obtain ⟨k, -, hk, -⟩ := collect_error h
  rcases checkSample16_error hk with ⟨-, rfl⟩ | ⟨-, rfl⟩
  · exact hi.1
  · exact hi.2

theorem cvtLoop_error_inRow {a b n j : Nat} {s : State} {e : Error} (h : cvtLoop a b n j s = .error e)
    (hi : ListsRange i) : InRow i e := by
  obtain ⟨k, -, rfl | rfl⟩ := cvtLoop_error h
  · exact hi.1
  · exact hi.2

theorem containerHeader_error_inRow {s : State} {e : Error} (h : s.containerHeader = .error e) : InRow .idx e := by
  rcases containerHeader_error h with rfl | rfl | rfl | rfl | rfl <;> simp [errorRow]

end

/-! ### Every command, by its cases -/

/-- A command's end without error, or with an error its row lists. -/
inductive EndsInRow (i : Instr) : State → Prop where
  | completed (w : State) : EndsInRow i w.completed
  | raised (w : State) {e : Error} (he : InRow i e) : EndsInRow i (w.raised e)

/-- What ERRCODE holds after such an end. -/
theorem EndsInRow.errCode {i : Instr} {u : State} (h : EndsInRow i u) :
    u.errCode.toNat = 0 ∨ u.errCode.toNat ∈ errorRow i := by
  cases h with
  | completed w => exact .inl rfl
  | raised w he => exact .inr he

section
variable {s u : State}

theorem execRdv_endsInRow {t : NumericType} (h : execRdv t s = .next u) : EndsInRow (.rdv t) u := by
  rcases execRdv_cases h with ⟨-, rfl⟩ | ⟨-, -, rfl⟩ | ⟨-, -, rfl⟩
  · exact .raised _ (by simp [errorRow])
  · exact .raised _ (by simp [errorRow])
  · exact .completed _

theorem execWrv_endsInRow {t : NumericType} (h : execWrv t s = .next u) : EndsInRow (.wrv t) u := by
  rcases execWrv_cases h with ⟨-, rfl⟩ | ⟨-, -, rfl⟩ | ⟨-, -, ⟨e, he, rfl⟩ | ⟨l, -, rfl⟩⟩
  · exact .raised _ (by simp [errorRow])
  · exact .raised _ (by simp [errorRow])
  · exact .raised _ (writeValue_error_inRow he (by simp [ListsRange, errorRow]))
  · exact .completed _

theorem execRda_endsInRow {t : NumericType} (h : execRda t s = .next u) : EndsInRow (.rda t) u := by
  rcases execRda_cases h with ⟨-, rfl⟩ | ⟨-, -, rfl⟩ | ⟨-, -, -, rfl⟩ | ⟨-, -, -, rfl⟩
  · exact .raised _ (by simp [errorRow])
  · exact .raised _ (by simp [errorRow])
  · exact .raised _ (by simp [errorRow])
  · exact .completed _

theorem execWra_endsInRow {t : NumericType} (h : execWra t s = .next u) : EndsInRow (.wra t) u := by
  rcases execWra_cases h with
    ⟨-, rfl⟩ | ⟨-, -, rfl⟩ | ⟨-, -, -, rfl⟩ | ⟨-, -, -, ⟨e, he, rfl⟩ | ⟨l, -, rfl⟩⟩
  · exact .raised _ (by simp [errorRow])
  · exact .raised _ (by simp [errorRow])
  · exact .raised _ (by simp [errorRow])
  · obtain ⟨k, -, hk, -⟩ := collect_error he
    exact .raised _ (writeValue_error_inRow hk (by simp [ListsRange, errorRow]))
  · exact .completed _

theorem execIdx_endsInRow (h : execIdx s = .next u) : EndsInRow .idx u := by
  rcases execIdx_cases h with ⟨e, he, rfl⟩ | ⟨kind, size, e, -, he, rfl⟩ | ⟨kind, size, rs, -, -, rfl⟩
  · exact .raised _ (containerHeader_error_inRow he)
  · obtain ⟨c, rfl, -⟩ := walk_error _ _ _ _ _ _ _ _ he
    exact .raised _ (by simp [errorRow])
  · exact .completed _

theorem execHdr_endsInRow {depth : Nat} {kind : ContainerKind} (h : execHdr depth kind s = .next u) :
    EndsInRow (.hdr depth kind) u := by
  rcases execHdr_cases h with ⟨-, rfl⟩ | ⟨-, ⟨e, he, rfl⟩ | ⟨-, rfl⟩⟩
  · exact .raised _ (by simp [errorRow])
  · obtain ⟨n, rfl⟩ := checkWidths_error he
    exact .raised _ (by simp [errorRow])
  · exact .completed _

theorem execCvt_endsInRow {a b : Nat} (h : execCvt a b s = .next u) : EndsInRow (.cvt a b) u := by
  rcases execCvt_cases h with
    ⟨-, rfl⟩ | ⟨-, -, rfl⟩ | ⟨-, -, -, rfl⟩ | ⟨-, -, -, -, rfl⟩ | ⟨-, -, -, -, ⟨e, he, rfl⟩ | ⟨w, -, rfl⟩⟩
  · exact .raised _ (by simp [errorRow])
  · exact .raised _ (by simp [errorRow])
  · exact .raised _ (by simp [errorRow])
  · exact .raised _ (by simp [errorRow])
  · exact .raised _ (cvtLoop_error_inRow he (by simp [ListsRange, errorRow]))
  · exact .completed _

theorem execAde_endsInRow (h : execAde s = .next u) : EndsInRow .ade u := by
  rcases execAde_cases h with ⟨-, rfl⟩ | ⟨-, -, rfl⟩ | ⟨-, -, ⟨e, he, rfl⟩ | ⟨xs, -, rfl⟩⟩
  · exact .raised _ (by simp [errorRow])
  · exact .raised _ (by simp [errorRow])
  · exact .raised _ (samples16_error_inRow he (by simp [ListsRange, errorRow]))
  · exact .completed _

theorem execAdd_endsInRow (h : execAdd s = .next u) : EndsInRow .add u := by
  rcases execAdd_cases h with ⟨-, rfl⟩ | ⟨-, -, rfl⟩ | ⟨-, -, -, rfl⟩ | ⟨-, -, -, rfl⟩
  · exact .raised _ (by simp [errorRow])
  · exact .raised _ (by simp [errorRow])
  · exact .raised _ (by simp [errorRow])
  · exact .completed _

/-- ALE and MUE, the two commands of this shape (R270). -/
theorem compress_endsInRow {i : Instr} (hi : errorRow i = [17, 5, 6]) {enc : Int → Nat}
    (h : compress enc s = .next u) : EndsInRow i u := by
  rcases compress_cases h with ⟨-, rfl⟩ | ⟨-, -, rfl⟩ | ⟨-, -, ⟨e, he, rfl⟩ | ⟨xs, -, rfl⟩⟩
  · exact .raised _ (by simp [hi])
  · exact .raised _ (by simp [hi])
  · exact .raised _ (samples16_error_inRow he (by simp [ListsRange, hi]))
  · exact .completed _

/-- ALD and MUD, the two commands of this shape (R270). -/
theorem expand_endsInRow {i : Instr} (hi : errorRow i = [17]) {dec : Nat → Int} (h : expand dec s = .next u) :
    EndsInRow i u := by
  rcases expand_cases h with ⟨-, rfl⟩ | ⟨-, -, rfl⟩ | ⟨-, -, rfl⟩
  · exact .raised _ (by simp [hi])
  · exact .raised _ (by simp [hi])
  · exact .completed _

theorem exec_endsInRow {i : Instr} (h : exec i s = .next u) : EndsInRow i u := by
  cases i with
  | rdv t => exact execRdv_endsInRow h
  | wrv t => exact execWrv_endsInRow h
  | rda t => exact execRda_endsInRow h
  | wra t => exact execWra_endsInRow h
  | idx => exact execIdx_endsInRow h
  | hdr depth kind => exact execHdr_endsInRow h
  | cvt a b => exact execCvt_endsInRow h
  | ade => exact execAde_endsInRow h
  | add => exact execAdd_endsInRow h
  | ale => exact compress_endsInRow rfl h
  | ald => exact expand_endsInRow rfl h
  | mue => exact compress_endsInRow rfl h
  | mud => exact expand_endsInRow rfl h

end

/-- Settles O12: every end of every command is without error or with an error of its row. -/
theorem commandErrorsAsListed : Obligations.CommandErrorsAsListed :=
  fun _ _ _ h => (exec_endsInRow h).errCode

/-! ### InvalidType before anything else (R305) -/

/-- The check the VAL commands make accepts the valid types of R74 and no others. -/
theorem typeValid_iff {t : NumericType} : typeValid t = true ↔ ValidType t := by
  refine ⟨fun h => ?_, ValidType.typeValid_eq_true⟩
  cases hf : t.isFloat with
  | false => exact .inl ⟨hf, by simpa [typeValid, hf] using h⟩
  | true => exact .inr ⟨hf, by simpa [typeValid, hf, or_assoc] using h⟩

/-- Settles O15: each of the four commands opens with the check of its type. -/
theorem invalidTypeRaisedFirst : Obligations.InvalidTypeRaisedFirst := by
  intro t s ht
  have hinvalid : (!typeValid t) = true := by simpa [← typeValid_iff] using ht
  have hend : raise (invalidType t.bits) s = .next (s.failed 3 t.bits) :=
    congrArg Host.Outcome.next (State.raised_eq_failed s (invalidType t.bits))
  rw [← hend]
  exact ⟨if_pos hinvalid, if_pos hinvalid, if_pos hinvalid, if_pos hinvalid⟩

end Sys2Proof.Machine
end

section
/-! PROOF of the family of 70_reset_and_hazards.md: the machine right after reset meets the four invariants (O56), which
O57 to O60 carry over every step. What an asserted reset leaves in the memories and in STATUS, ERRCODE and ERRINFO does
not depend on the state it meets, and the reset state holds the same there. -/

namespace Sys2Proof.Machine

/-- The reset state lists no cell, as after a reset the host asserts (R331). -/
theorem State.reset_memoriesCanonical : State.reset.MemoriesCanonical :=
  State.afterReset_memoriesCanonical State.reset

/-- PRED and SIDX are 0 after reset (R330), inside the ranges of R39. -/
theorem State.reset_adpcmInRange : State.reset.AdpcmInRange := by
  refine ⟨?pred_ge, ?pred_le, ?sidx_le⟩
  case pred_ge => decide
  case pred_le => decide
  case sidx_le => decide

/-- STATUS, ERRCODE and ERRINFO are as after a reset the host asserts (R330). -/
theorem State.reset_statusAgreement : State.reset.Idle ∧ State.reset.ErrCodeKnown ∧ State.reset.StatusAgrees :=
  State.afterReset_statusAgreement State.reset

/-- Before any HDR the size is 0, and the fields beyond it are 0 too (R38). -/
theorem State.reset_headerPrefix : State.reset.HeaderPrefix := by
  have hsize : State.reset.hdr.fmtSize.toNat = 0 := rfl
  refine ⟨?_, fun _ => ⟨rfl, rfl⟩, fun _ => ⟨rfl, rfl, rfl, rfl, rfl⟩⟩
  rw [hsize]
  exact List.mem_cons_self

/-- Both kind registers hold the code of RIFF, which is 0 (R78). -/
theorem State.reset_kindsLegal : State.reset.KindsLegal :=
  ⟨kindCode_ne_three .riff, kindCode_ne_three .riff⟩

/-- Settles O56: the reset state meets each of the four invariants. -/
theorem resetMeetsInvariants : Obligations.ResetMeetsInvariants :=
  ⟨State.reset_memoriesCanonical, State.reset_adpcmInRange, State.reset_statusAgreement, State.reset_headerPrefix,
    State.reset_kindsLegal⟩

end Sys2Proof.Machine
end
